-- ==== Sys2Proof/Word.lean ====
section
/-!
DEFINITION. The word types of the bit-field codec: bytes of the buffer, 64-bit slots of the struct memory, 128-bit
command words and 16-bit descriptor entries (spec/00_scope.md R6, spec/30_encoding.md R45).
-/

namespace Sys2Proof

/-- A byte of the buffer BUF, bit 7 the most significant (20 R31). -/
abbrev Byte := BitVec 8

/-- A slot of the struct memory, a command's VAL operand, the result register RES (10 R12, R14, R15). -/
abbrev Slot := BitVec 64

/-- A command word (30 R46). -/
abbrev CommandWord := BitVec 128

/-- A descriptor entry word (30 R50). -/
abbrev EntryWord := BitVec 16

end Sys2Proof
end

