-- ==== Sys2Proof/Config.lean ====
section
/-!
DEFINITION. What an implementation fixes (the OPEN parameters of spec/00_scope.md R4) and the model's free values.
None of the opaque constants has a body: nothing can be proved of their values.
-/

namespace Sys2Proof

/-- The OPEN parameters of the block (00 R4), arguments of the model: every state carries them and no step changes
them (notes/assumptions/1). `maxsat`, `rawxClass` and `rawxId` range over 0..255 by their type; the constraint on
`ephLayout` (30 R52, R55) is `Params.ok` of Machine/Layout.lean. -/
structure Params where
  /-- MAXSAT, the bound on the RAWX measurement count. -/
  maxsat : BitVec 8
  /-- RAWX_CLASS, the expected class id of RAWX. -/
  rawxClass : BitVec 8
  /-- RAWX_ID, the expected message id of RAWX. -/
  rawxId : BitVec 8
  /-- EPH_LAYOUT, the words of the EPH descriptor, END included. -/
  ephLayout : List EntryWord
  deriving DecidableEq, Repr

/-- The block's MAXSAT, not given by the spec (00 R4, 92 D14). -/
opaque Config.maxsat : BitVec 8

/-- The block's RAWX_CLASS, not given by the spec (00 R4, 92 D15). -/
opaque Config.rawxClass : BitVec 8

/-- The block's RAWX_ID, not given by the spec (00 R4, 92 D15). -/
opaque Config.rawxId : BitVec 8

/-- The block's EPH_LAYOUT before the constraints of 30 R55 are imposed on it (00 R4, 92 D16). -/
opaque Config.ephLayoutRaw : List EntryWord

/-- FREE VALUE: what the slot at address `a` holds after the `n`-th decode that ended with a status other than OK,
for the slots the descriptor names, which 60 R124 leaves unspecified (notes/assumptions/8). -/
opaque Config.freeSlot (n a : Nat) : Slot

end Sys2Proof
end

