-- ==== Sys2Proof/Syntax.lean ====
section
/-!
DEFINITION. The instructions: one constructor per row of spec/opcode_table.json. The first eight are the host's
commands (30 R47), the last eight the descriptor entries of the sequencer (30 R51).
-/

namespace Sys2Proof

/-- An instruction. A command's operands are POS, LEN and VAL as 30 R46 packs them; an entry's are SGN, WM1 (the
field width minus 1) and SLOT as 30 R50 packs them. The operand types have exactly the widths of the fields, so
every term of this type has an encoding. -/
inductive Instr where
  /-- SETU pos, len, val (40 R66). -/
  | setu (pos : BitVec 32) (len : BitVec 8) (val : Slot)
  /-- SETS pos, len, val (40 R67). -/
  | sets (pos : BitVec 32) (len : BitVec 8) (val : Slot)
  /-- GETU pos, len (40 R68). -/
  | getu (pos : BitVec 32) (len : BitVec 8)
  /-- GETS pos, len (40 R69). -/
  | gets (pos : BitVec 32) (len : BitVec 8)
  /-- ENC_RAWX (42 R100). -/
  | encRawx
  /-- DEC_RAWX (42 R101). -/
  | decRawx
  /-- ENC_EPH (42 R102). -/
  | encEph
  /-- DEC_EPH (42 R103). -/
  | decEph
  /-- END, the end of a descriptor (41 R83). -/
  | endDesc
  /-- FLD, a data field, signed when `sgn` (41 R84). -/
  | fld (sgn : Bool) (wm1 slot : BitVec 6)
  /-- RSV, reserved bits (41 R85). -/
  | rsv (wm1 : BitVec 6)
  /-- TAGC, the class-id field (41 R86). -/
  | tagc (wm1 slot : BitVec 6)
  /-- TAGI, the message-id field (41 R87). -/
  | tagi (wm1 slot : BitVec 6)
  /-- CNTF, the repeat-count field (41 R88). -/
  | cntf (wm1 slot : BitVec 6)
  /-- REPB, begin of the repeated block (41 R89). -/
  | repb
  /-- REPE, end of the repeated block (41 R90). -/
  | repe
  deriving DecidableEq, Repr

/-- The instruction is a host command (30 R47), not a descriptor entry (30 R51). -/
def Instr.isCommand : Instr → Bool
  | .setu _ _ _ | .sets _ _ _ | .getu _ _ | .gets _ _ => true
  | .encRawx | .decRawx | .encEph | .decEph => true
  | .endDesc | .fld _ _ _ | .rsv _ | .tagc _ _ | .tagi _ _ | .cntf _ _ | .repb | .repe => false

/-- The width `W = WM1 + 1` of the field an entry stands for (30 R50); 0 for an instruction that has no field. -/
def Instr.width : Instr → Nat
  | .fld _ wm1 _ | .rsv wm1 | .tagc wm1 _ | .tagi wm1 _ | .cntf wm1 _ => wm1.toNat + 1
  | .setu _ _ _ | .sets _ _ _ | .getu _ _ | .gets _ _ => 0
  | .encRawx | .decRawx | .encEph | .decEph | .endDesc | .repb | .repe => 0

/-- The slot number an entry names, if it names one (30 R51, the column "fields used"). -/
def Instr.slot? : Instr → Option Nat
  | .fld _ _ slot | .tagc _ slot | .tagi _ slot | .cntf _ slot => some slot.toNat
  | .setu _ _ _ | .sets _ _ _ | .getu _ _ | .gets _ _ => none
  | .encRawx | .decRawx | .encEph | .decEph | .endDesc | .rsv _ | .repb | .repe => none

/-- The entry is a signed FLD (30 R50, SGN = 1). -/
def Instr.isSigned : Instr → Bool
  | .fld sgn _ _ => sgn
  | .setu _ _ _ | .sets _ _ _ | .getu _ _ | .gets _ _ => false
  | .encRawx | .decRawx | .encEph | .decEph | .endDesc => false
  | .rsv _ | .tagc _ _ | .tagi _ _ | .cntf _ _ | .repb | .repe => false

end Sys2Proof
end

