-- ==== Sys2Proof/Decode.lean ====
section
/-!
DEFINITION. Decoding and encoding: 128-bit command words (spec/30_encoding.md R46 to R48, R57) and 16-bit descriptor
entries (R50, R51). Both decoders are total and reject by name. A command word arrives whole on the command port and
an entry word lies whole in the descriptor store, so no byte order enters (20 R32).
-/

namespace Sys2Proof

/-- The word of one instruction: a command word or a descriptor entry word (30 R45, R59). -/
inductive Code where
  | command (w : CommandWord)
  | entry (w : EntryWord)
  deriving DecidableEq, Repr

/-- Why a word is no instruction (30 R51, R57). -/
inductive DecodeError where
  /-- A command word whose ZERO field is not 0. -/
  | nonzeroZero
  /-- A command word whose OP is none of those of 30 R47. -/
  | illegalOp (op : BitVec 4)
  /-- A command word with a non-zero field its operation does not use (30 R48). -/
  | nonzeroUnused
  /-- A descriptor entry word that selects no row of 30 R51. -/
  | malformedEntry (w : EntryWord)
  deriving DecidableEq, Repr

/-- Decode a command word (30 R46 to R48): every word that selects no row of R48 is rejected. -/
def decodeCommand (w : CommandWord) : Except DecodeError Instr :=
  let op := w.extractLsb' 124 4
  let zero := w.extractLsb' 104 20
  let len := w.extractLsb' 96 8
  let pos := w.extractLsb' 64 32
  let val := w.extractLsb' 0 64
  if zero ≠ 0 then .error .nonzeroZero else
  match op.toNat with
  | 0x1 => .ok (.setu pos len val)
  | 0x2 => .ok (.sets pos len val)
  | 0x3 => if val = 0 then .ok (.getu pos len) else .error .nonzeroUnused
  | 0x4 => if val = 0 then .ok (.gets pos len) else .error .nonzeroUnused
  | 0x8 => if len = 0 ∧ pos = 0 ∧ val = 0 then .ok .encRawx else .error .nonzeroUnused
  | 0x9 => if len = 0 ∧ pos = 0 ∧ val = 0 then .ok .decRawx else .error .nonzeroUnused
  | 0xA => if len = 0 ∧ pos = 0 ∧ val = 0 then .ok .encEph else .error .nonzeroUnused
  | 0xB => if len = 0 ∧ pos = 0 ∧ val = 0 then .ok .decEph else .error .nonzeroUnused
  | _ => .error (.illegalOp op)

/-- Decode a descriptor entry word (30 R50, R51): a word with a non-zero unused field is malformed. -/
def decodeEntry (w : EntryWord) : Except DecodeError Instr :=
  let kind := w.extractLsb' 13 3
  let sgn := w.getLsbD 12
  let wm1 := w.extractLsb' 6 6
  let slot := w.extractLsb' 0 6
  match kind.toNat with
  | 0 => if sgn = false ∧ wm1 = 0 ∧ slot = 0 then .ok .endDesc else .error (.malformedEntry w)
  | 1 => .ok (.fld sgn wm1 slot)
  | 2 => if sgn = false ∧ slot = 0 then .ok (.rsv wm1) else .error (.malformedEntry w)
  | 3 => if sgn = false then .ok (.tagc wm1 slot) else .error (.malformedEntry w)
  | 4 => if sgn = false then .ok (.tagi wm1 slot) else .error (.malformedEntry w)
  | 5 => if sgn = false then .ok (.cntf wm1 slot) else .error (.malformedEntry w)
  | 6 => if sgn = false ∧ wm1 = 0 ∧ slot = 0 then .ok .repb else .error (.malformedEntry w)
  | _ => if sgn = false ∧ wm1 = 0 ∧ slot = 0 then .ok .repe else .error (.malformedEntry w)

/-- Decode a word of either kind. -/
def decode : Code → Except DecodeError Instr
  | .command w => decodeCommand w
  | .entry w => decodeEntry w

/-- The command word with the given OP, LEN, POS and VAL, its ZERO field 0 (30 R46). -/
def commandWord (op : Nat) (len : BitVec 8) (pos : BitVec 32) (val : Slot) : CommandWord :=
  BitVec.ofNat 128 (op * 2 ^ 124 + len.toNat * 2 ^ 96 + pos.toNat * 2 ^ 64 + val.toNat)

/-- The word of an entry is `KIND*8192 + SGN*4096 + WM1*64 + SLOT` (30 R50, R61). -/
def entryWord (kind : Nat) (sgn : Bool) (wm1 slot : BitVec 6) : EntryWord :=
  BitVec.ofNat 16 (kind * 8192 + sgn.toNat * 4096 + wm1.toNat * 64 + slot.toNat)

/-- Encode an instruction: the command word of a command (30 R46 to R48), the entry word of an entry (R50, R51). -/
def encode : Instr → Code
  | .setu pos len val => .command (commandWord 0x1 len pos val)
  | .sets pos len val => .command (commandWord 0x2 len pos val)
  | .getu pos len => .command (commandWord 0x3 len pos 0)
  | .gets pos len => .command (commandWord 0x4 len pos 0)
  | .encRawx => .command (commandWord 0x8 0 0 0)
  | .decRawx => .command (commandWord 0x9 0 0 0)
  | .encEph => .command (commandWord 0xA 0 0 0)
  | .decEph => .command (commandWord 0xB 0 0 0)
  | .endDesc => .entry (entryWord 0 false 0 0)
  | .fld sgn wm1 slot => .entry (entryWord 1 sgn wm1 slot)
  | .rsv wm1 => .entry (entryWord 2 false wm1 0)
  | .tagc wm1 slot => .entry (entryWord 3 false wm1 slot)
  | .tagi wm1 slot => .entry (entryWord 4 false wm1 slot)
  | .cntf wm1 slot => .entry (entryWord 5 false wm1 slot)
  | .repb => .entry (entryWord 6 false 0 0)
  | .repe => .entry (entryWord 7 false 0 0)

/-- The word of `nbits` bits, numbered as spec/opcode_table.json numbers them, as one of the two kinds of word: up to
16 bits an entry, more a command; bits above `nbits` are 0. -/
def codeOfTable (nbits w : Nat) : Code :=
  if nbits ≤ 16 then .entry (BitVec.ofNat 16 (w % 2 ^ nbits)) else .command (BitVec.ofNat 128 (w % 2 ^ nbits))

/-- The instruction the decoder reads from a word of the opcode table. -/
def decodeTableWord (nbits w : Nat) : Option Instr :=
  (decode (codeOfTable nbits w)).toOption

end Sys2Proof
end

