-- ==== Sys2Proof/WellFormed.lean ====
section
/-!
DEFINITION. The checks on syntax. A single instruction needs none, for the operand types have the fields' own widths;
what is checked is a DESCRIPTOR, the list of entries the sequencer walks: spec/30_encoding.md R52, condition by
condition, and R55 for the EPH descriptor.
-/

namespace Sys2Proof

/-- A descriptor: its entries in order, END included (30 R52). -/
abbrev Descriptor := List Instr

namespace Descriptor

/-- The entries before REPB; the whole descriptor when there is none. -/
def before (d : Descriptor) : List Instr := d.takeWhile (· ≠ .repb)

/-- The entries after REPB. -/
def afterRepb (d : Descriptor) : List Instr := (d.dropWhile (· ≠ .repb)).drop 1

/-- The entries inside the repeated block, strictly between REPB and REPE. -/
def inside (d : Descriptor) : List Instr := d.afterRepb.takeWhile (· ≠ .repe)

/-- The entries after REPE. -/
def behind (d : Descriptor) : List Instr := (d.afterRepb.dropWhile (· ≠ .repe)).drop 1

/-- The entries outside the repeated block, in order, REPB and REPE left out. -/
def outside (d : Descriptor) : List Instr := d.before ++ d.behind

/-- The sum of the field widths of a list of entries. -/
def totalWidth (d : List Instr) : Nat := (d.map Instr.width).sum

/-- 30 R52 condition 1: at most 64 entries, every one a descriptor entry, the last END and no other END. -/
def endsOnce (d : Descriptor) : Bool :=
  d.length ≤ 64 && d.all (fun i => !i.isCommand) && d.getLast? == some .endDesc && d.count .endDesc == 1

/-- The entry is a TAGC or a TAGI. -/
def isTag : Instr → Bool
  | .tagc _ _ | .tagi _ _ => true
  | _ => false

/-- 30 R52 condition 2: entry 0 is TAGC and entry 1 is TAGI, both 8 bits wide, and no other entry is either. -/
def tagsFirst (d : Descriptor) : Bool :=
  match d with
  | .tagc w _ :: .tagi w' _ :: rest => w.toNat == 7 && w'.toNat == 7 && rest.all (fun i => !isTag i)
  | _ => false

/-- The entry is a CNTF. -/
def isCount : Instr → Bool
  | .cntf _ _ => true
  | _ => false

/-- 30 R52 condition 3: no REPB, no REPE and no CNTF; or one REPB, one REPE after it with at least one entry between,
and exactly one CNTF, before REPB. -/
def repeatOnce (d : Descriptor) : Bool :=
  (d.count .repb == 0 && d.count .repe == 0 && !d.any isCount) ||
  (d.count .repb == 1 && d.count .repe == 1 && d.afterRepb.count .repe == 1 && !d.inside.isEmpty &&
    d.countP isCount == 1 && d.before.any isCount)

/-- The entry is an FLD or an RSV. -/
def isPlain : Instr → Bool
  | .fld _ _ _ | .rsv _ => true
  | _ => false

/-- 30 R52 condition 4: only FLD and RSV inside the repeated block. -/
def bodyPlain (d : Descriptor) : Bool := d.inside.all isPlain

/-- 30 R52 condition 5: slot numbers distinct outside the block; distinct and below REC_STRIDE = 16 inside it. -/
def slotsDistinct (d : Descriptor) : Bool :=
  decide (d.outside.filterMap Instr.slot?).Nodup && decide (d.inside.filterMap Instr.slot?).Nodup &&
    (d.inside.filterMap Instr.slot?).all (· < 16)

/-- 30 R52 condition 6: `H + MAXSAT * B < 2^32`. -/
def sizeOk (d : Descriptor) (maxsat : Nat) : Bool :=
  totalWidth d.outside + maxsat * totalWidth d.inside < 2 ^ 32

/-- 30 R52: the descriptor is well-formed. -/
def wf (d : Descriptor) (maxsat : Nat) : Bool :=
  d.endsOnce && d.tagsFirst && d.repeatOnce && d.bodyPlain && d.slotsDistinct && d.sizeOk maxsat

/-- 30 R55 condition 2: no REPB, REPE or CNTF. -/
def noRepeat (d : Descriptor) : Bool := d.all fun i => i ≠ .repb && i ≠ .repe && !isCount i

/-- 30 R55 condition 3: every field has 8 to 32 bits. -/
def widthsEph (d : Descriptor) : Bool := d.all fun i => i.width = 0 || (8 ≤ i.width && i.width ≤ 32)

/-- The entry is an RSV. -/
def isRsv : Instr → Bool
  | .rsv _ => true
  | _ => false

/-- 30 R55 condition 4: exactly one RSV, 8 bits wide, neither the first nor the last entry before END. -/
def oneReserved (d : Descriptor) : Bool :=
  d.countP isRsv == 1 && d.count (.rsv 7) == 1 && !d.head?.any isRsv && !d.dropLast.getLast?.any isRsv

/-- 30 R55, the conditions a model can check (1 to 4; 5 holds of every FLD; 6 and 7 name no checkable fact of a list
of words, notes/assumptions/11). -/
def ephOk (d : Descriptor) (maxsat : Nat) : Bool :=
  d.wf maxsat && d.noRepeat && d.widthsEph && d.oneReserved

end Descriptor

end Sys2Proof
end

