-- ==== Sys2Proof/Machine/Layout.lean ====
section
/-!
DEFINITION. The descriptors the block walks (spec/30_encoding.md R52 to R56) and the constants wired into it
(spec/10_state.md R21), and what makes a set of parameters legal.
-/

namespace Sys2Proof.Machine

open Sys2Proof

/-- The RAWX descriptor, the 26 words of 30 R54 in order. -/
def rawxWords : List EntryWord :=
  [0x61C0, 0x81C1, 0x2FC2, 0x23C3, 0x33C4, 0xA1C5, 0x21C6, 0x21C7, 0x40C0, 0xC000,
   0x2FC0, 0x2FC1, 0x27C2, 0x21C3, 0x21C4, 0x21C5, 0x31C6, 0x21C7, 0x23C8, 0x21C9,
   0x21CA, 0x21CB, 0x21CC, 0x41C0, 0xE000, 0x0000]

/-- `EPH_LAYOUT_REF`, the 32 words of 30 R56: a reference value of the parameter EPH_LAYOUT, not the hardware's. -/
def ephReference : List EntryWord :=
  [0x61C0, 0x81C1, 0x21C2, 0x21C3, 0x21C4, 0x21C5, 0x21C6, 0x21C7, 0x31C8, 0x23C9,
   0x23CA, 0x41C0, 0x31CB, 0x33CC, 0x37CD, 0x33CE, 0x33CF, 0x37D0, 0x33D1, 0x33D2,
   0x27D3, 0x27D4, 0x23D5, 0x33D6, 0x37D7, 0x33D8, 0x33D9, 0x37DA, 0x37DB, 0x37DC,
   0x33DD, 0x0000]

/-- EPH_CLASS, the expected class id of EPH (00 R4). -/
def ephClass : BitVec 8 := 0x13

/-- EPH_ID, the expected message id of EPH (00 R4). -/
def ephId : BitVec 8 := 0x00

/-- NSLOT, the number of scalar slots (00 R4). -/
def nslot : Nat := 64

/-- REC_STRIDE, the slot address stride between records (00 R4). -/
def recStride : Nat := 16

/-- The address of `R[i][j]` on the struct port (10 R12). -/
def recordAddress (i j : Nat) : Nat := nslot + recStride * i + j

/-- The entries a list of words stands for, or none when some word selects no row of 30 R51. -/
def decodeLayout : List EntryWord → Option Descriptor
  | [] => some []
  | w :: rest =>
    match decodeEntry w, decodeLayout rest with
    | .ok i, some d => some (i :: d)
    | _, _ => none

/-- The addresses of the struct slots a descriptor names: the scalar slots of the entries outside the repeated block,
and the slots inside it, below REC_STRIDE as 30 R52 has them, of every record below MAXSAT (60 R124). -/
def namedSlots (d : Descriptor) (maxsat : Nat) : List Nat :=
  d.outside.filterMap Instr.slot? ++
    (List.range maxsat).flatMap fun i =>
      ((d.inside.filterMap Instr.slot?).filter (· < recStride)).map (recordAddress i)

/-- The bound of 41 R92 on the micro-steps of one command: `n_out + MAXSAT * (n_in + 1) + 2`. -/
def microBound (d : Descriptor) (maxsat : Nat) : Nat :=
  d.outside.length + maxsat * (d.inside.length + 1) + 2

end Sys2Proof.Machine

namespace Sys2Proof

open Sys2Proof.Machine

/-- EPH_LAYOUT meets the constraints of 30 R52 and R55. -/
def Params.ok (p : Params) : Bool :=
  match decodeLayout p.ephLayout with
  | some d => d.ephOk p.maxsat.toNat
  | none => false

/-- The block's own parameters: arbitrary values, EPH_LAYOUT arbitrary among those 30 R55 admits (00 R4,
notes/assumptions/2). -/
def Params.config : Params :=
  let p : Params := ⟨Config.maxsat, Config.rawxClass, Config.rawxId, Config.ephLayoutRaw⟩
  if p.ok then p else { p with ephLayout := ephReference }

/-- The reference values of the OPEN parameters, for tests only (00 R4, 93 G1, G2). -/
def Params.reference : Params := ⟨31, 0x02, 0x15, ephReference⟩

end Sys2Proof
end

