-- ==== Sys2Proof/Machine/State.lean ====
section
/-!
DEFINITION. The state of the block (spec/10_state.md R10), the reasons a step can stop, and the state after reset
(R24). All of it is plain data.
-/

namespace Sys2Proof.Machine

open Sys2Proof

/-- The outcome of the last DEC command (10 R17, 60 R121); its numeric code is `Status.code`. -/
inductive Status where
  | ok
  | typeMismatch
  | invalidMessage
  deriving DecidableEq, Repr

/-- MT, the message type of the command in hand (10 R16). -/
inductive MsgType where
  | rawx
  | eph
  deriving DecidableEq, Repr

/-- DIR, the direction of the command in hand (10 R16): encode is struct to buffer, decode buffer to struct. -/
inductive Direction where
  | enc
  | dec
  deriving DecidableEq, Repr

/-- The causes of a FAULT (60 R125), in the order of their bits. -/
inductive Cause where
  | width
  | bounds
  | illegal
  | count
  deriving DecidableEq, Repr

/-- What the host does to the block (30 R60, 70 R145, R146). Reads are no actions: they change nothing (20 R37). -/
inductive HostAction where
  /-- A word on the command port. -/
  | command (w : CommandWord)
  /-- A write of the register at `addr` (10 R22). -/
  | writeReg (addr : Nat) (v : BitVec 64)
  /-- `BUF[a] <- b`. -/
  | writeBuf (a : Nat) (b : Byte)
  /-- A write of the struct slot at address `a`: `S[k]` at `k`, `R[i][j]` at `64 + 16*i + j` (10 R12). -/
  | writeFld (a : Nat) (v : Slot)
  /-- RESET (70 R140). -/
  | reset
  deriving DecidableEq, Repr

/-- The two memories (10 R11, R12), in one canonical form: every list strictly rising in its addresses.
An address that is not listed holds no value (10 R24). -/
structure Memory where
  /-- BUF: the bytes of which at least one bit has been written; the bits nothing has written stand as 0. -/
  bytes : List Host.Cell
  /-- For a byte of BUF only partly written, the mask of its written bits, neither 0 nor 0xFF; a listed byte without
  an entry here is wholly written (notes/assumptions/6). -/
  part : List Host.Cell
  /-- FLD: the slots that have been written. -/
  slots : List (Nat × Slot)
  deriving DecidableEq, Repr

/-- The complete state of the block (10 R10), with the parameters the model takes as arguments and the model's own
`running`, `freeCount` and `pending`. -/
structure State where
  /-- The OPEN parameters; no step changes them (00 R4, notes/assumptions/1). -/
  params : Params
  /-- BUF and FLD (10 R11, R12). -/
  mem : Memory
  /-- CAP, the capacity in bytes (10 R20). -/
  cap : BitVec 29
  /-- STATUS (10 R17). -/
  status : Status
  /-- BITS (10 R18). -/
  bits : BitVec 32
  /-- RES (10 R15). -/
  res : BitVec 64
  /-- FAULT, bit 0 WIDTH, 1 BOUNDS, 2 ILLEGAL, 3 COUNT (10 R19). -/
  fault : BitVec 4
  /-- MT (10 R16). -/
  mt : MsgType
  /-- DIR (10 R16). -/
  dir : Direction
  /-- DIX, the index of the next descriptor entry (10 R16). -/
  dix : BitVec 6
  /-- CUR, the bit address of the next field (10 R16). -/
  cur : BitVec 32
  /-- REC, the record in hand (10 R16). -/
  recIx : BitVec 8
  /-- CNT, the latched count (10 R16). -/
  cnt : BitVec 64
  /-- INREP, set between REPB and REPE (10 R16). -/
  inrep : Bool
  /-- RPT, the index of the first entry after REPB (10 R16). -/
  rpt : BitVec 6
  /-- The micro-steps of a command are in progress (41 R81); the model's own (notes/assumptions/3). -/
  running : Bool
  /-- How many decodes have failed, the argument of the free values; the model's own (notes/assumptions/8). -/
  freeCount : Nat
  /-- The host's actions still to come, the next one first (70 R145); the model's own (notes/assumptions/4). -/
  pending : List HostAction
  deriving DecidableEq, Repr

/-- Why the model stops where the spec says that no value exists (10 R24, 93 U7) or that the address does not exist.
These are model-level faults: the register FAULT is not one of them, raising it is a next state (60 R131). -/
inductive Fault where
  /-- A command reads the bit of BUF at bit address `p`, which neither the host nor the block has written. Raised by
  GETU, GETS and every decode of a field. Safe: the hardware goes on with whatever the memory holds. -/
  | unwrittenBit (p : Nat)
  /-- An encode reads the struct slot at address `a`, which neither the host nor the block has written. Raised by
  FLD, TAGC, TAGI and CNTF. Safe, as above. -/
  | unwrittenSlot (a : Nat)
  /-- An access to a struct slot that does not exist (10 R12): by the host, or by an FLD inside a repeated block with
  `SLOT >= 16` or `REC >= MAXSAT`, which no well-formed descriptor leads to (41 R82). Safe. -/
  | noSuchSlot (a : Nat)
  /-- The host writes a byte of BUF that no value of CAP reaches (10 R20). Safe. -/
  | noSuchByte (a : Nat)
  deriving DecidableEq, Repr

/-- Why the model gives an instruction no meaning. -/
inductive Refusal where
  /-- An instruction without a meaning in the model; no arm of exec answers it now. Safe. -/
  | notModelled (mnemonic : String)
  /-- The descriptor is not well-formed (30 R52, 93 U11): ENC_EPH or DEC_EPH with an EPH_LAYOUT outside 30 R55, a
  micro-step that finds no entry of 30 R51 at DIX, or a REPB without a REPE. Safe. -/
  | malformedDescriptor
  /-- A command made more micro-steps than 41 R92 allows, which no well-formed descriptor does. Safe. -/
  | beyondMicroBound
  deriving DecidableEq, Repr

/-- What an instruction answers. -/
abbrev Result := Host.Outcome State Fault Refusal

/-- The machine right after reset (10 R24): every register 0, nothing in either memory, no host action to come. -/
def State.reset : State where
  params := Params.config
  mem := ⟨[], [], []⟩
  cap := 0
  status := .ok
  bits := 0
  res := 0
  fault := 0
  mt := .rawx
  dir := .enc
  dix := 0
  cur := 0
  recIx := 0
  cnt := 0
  inrep := false
  rpt := 0
  running := false
  freeCount := 0
  pending := []

end Sys2Proof.Machine
end

