-- ==== Sys2Proof/Machine/Flags.lean ====
section
/-!
DEFINITION. The block's flags: the bits of FAULT (spec/60_exceptions.md R125) and the codes of STATUS (R121).
-/

namespace Sys2Proof.Machine

/-- The value of FAULT with the cause's bit alone set (60 R125). -/
def Cause.mask : Cause → BitVec 4
  | .width => 0x1
  | .bounds => 0x2
  | .illegal => 0x4
  | .count => 0x8

/-- The code STATUS shows the host (60 R121). -/
def Status.code : Status → BitVec 2
  | .ok => 0
  | .typeMismatch => 1
  | .invalidMessage => 2

/-- The block is halted: FAULT is not 0 (60 R132). -/
def State.halted (s : State) : Bool := s.fault ≠ 0

end Sys2Proof.Machine
end

