-- ==== Sys2Proof/Machine/Ops.lean ====
section
/-!
DEFINITION. The shared operations: cells in canonical form, the buffer bit by bit (spec/20_memory.md R31, R32,
spec/00_scope.md R7), the struct slots, raising a fault (spec/60_exceptions.md R131), ending a decode with a status
(R121, R124) and reset (spec/70_reset_and_hazards.md R140).
-/

namespace Sys2Proof.Machine

open Sys2Proof

/-! ### Cells: sparse data by address -/

/-- What the cell at address `a` holds, if it is listed. -/
def Cells.read {α : Type} : List (Nat × α) → Nat → Option α
  | [], _ => none
  | (k, v) :: rest, a => if a = k then some v else Cells.read rest a

/-- Set the cell at address `a`, keeping the addresses rising. -/
def Cells.write {α : Type} : List (Nat × α) → Nat → α → List (Nat × α)
  | [], a, v => [(a, v)]
  | (k, w) :: rest, a, v =>
    if a < k then (a, v) :: (k, w) :: rest
    else if a = k then (a, v) :: rest
    else (k, w) :: Cells.write rest a v

/-- Unlist the cell at address `a`. -/
def Cells.erase {α : Type} : List (Nat × α) → Nat → List (Nat × α)
  | [], _ => []
  | (k, w) :: rest, a => if a = k then Cells.erase rest a else (k, w) :: Cells.erase rest a

/-- The addresses rise strictly, and each is at least `lo`. -/
def Cells.risingFrom {α : Type} : Nat → List (Nat × α) → Bool
  | _, [] => true
  | lo, (k, _) :: rest => lo ≤ k && Cells.risingFrom (k + 1) rest

/-! ### The buffer -/

/-- The bits of byte `a` of BUF that something has written. -/
def Memory.mask (m : Memory) (a : Nat) : Byte :=
  match Cells.read m.bytes a with
  | none => 0
  | some _ => (Cells.read m.part a).getD 0xFF

/-- Byte `a` of BUF, its unwritten bits as 0. -/
def Memory.value (m : Memory) (a : Nat) : Byte := (Cells.read m.bytes a).getD 0

/-- Byte `a` of BUF becomes `v` in the bits of `k`, and its other bits hold no value. -/
def Memory.setByte (m : Memory) (a : Nat) (k v : Byte) : Memory :=
  if k = 0 then { m with bytes := Cells.erase m.bytes a, part := Cells.erase m.part a }
  else if k = 0xFF then { m with bytes := Cells.write m.bytes a v, part := Cells.erase m.part a }
  else { m with bytes := Cells.write m.bytes a (v &&& k), part := Cells.write m.part a k }

/-- The in-byte bit of the bit address `p` (20 R31). -/
def inByte (p : Nat) : Nat := 7 - p % 8

/-- `BitRead(p)` (00 R7, 20 R31): none when nothing has written that bit (10 R24). -/
def Memory.bit? (m : Memory) (p : Nat) : Option Bool :=
  if (m.mask (p / 8)).getLsbD (inByte p) then some ((m.value (p / 8)).getLsbD (inByte p)) else none

/-- Byte `a` of BUF when all its bits hold a value (`BUF[a]`, 00 R7). -/
def Memory.readByte (m : Memory) (a : Nat) : Option Byte :=
  if m.mask a = 0xFF then some (m.value a) else none

/-- Splice a window of bytes into BUF from byte `a` on (20 R34): the first byte of the window is its top byte, the bits
of `mask` become those of `val`, all other bits are written back as they were. -/
def Memory.splice (m : Memory) : (count a : Nat) → (mask val : BitVec 72) → Memory
  | 0, _, _, _ => m
  | count + 1, a, mask, val =>
    let k := mask.extractLsb' 64 8
    let v := val.extractLsb' 64 8
    (m.setByte a (m.mask a ||| k) (m.value a &&& ~~~ k ||| v &&& k)).splice count (a + 1) (mask <<< 8) (val <<< 8)

/-- How far a field of `n` bits at `pos` stands from the right end of the nine bytes from byte `pos div 8` on. -/
def windowShift (n pos : Nat) : Nat := 72 - pos % 8 - n

/-- Write the low `n` bits of `v`, `1 <= n <= 64`, at bit addresses `pos` to `pos + n - 1`, most significant first
(40 R66), by splicing them into the field's footprint, bytes `pos div 8` to `(pos + n - 1) div 8` (20 R34). Bit by
bit this is `BitWrite(pos + i, v[n-1-i])` for every `i < n`. -/
def Memory.writeField (m : Memory) (v : Slot) (n pos : Nat) : Memory :=
  m.splice ((pos % 8 + n + 7) / 8) (pos / 8)
    (BitVec.ofNat 72 (2 ^ n - 1) <<< windowShift n pos) (v.setWidth 72 <<< windowShift n pos)

/-- Read `n` bits from bit address `pos` on, most significant first, behind the bits of `acc` (40 R68):
`v <- (v << 1) | BitRead(pos + i)`. The error is the first bit address that holds no value. -/
def Memory.readField (m : Memory) : (n pos : Nat) → (acc : Slot) → Except Nat Slot
  | 0, _, acc => .ok acc
  | n + 1, pos, acc =>
    match m.bit? pos with
    | none => .error pos
    | some b => m.readField n (pos + 1) (acc <<< 1 ||| (if b then 1 else 0))

/-! ### The struct memory -/

/-- The slot at address `a`, if something has written it (10 R12, R24). -/
def Memory.slot? (m : Memory) (a : Nat) : Option Slot := Cells.read m.slots a

/-- The slot at address `a` becomes `v`. -/
def Memory.setSlot (m : Memory) (a : Nat) (v : Slot) : Memory := { m with slots := Cells.write m.slots a v }

/-- Every slot of a list of addresses takes its free value of the `n`-th failed decode (60 R124). -/
def Memory.scramble (m : Memory) (n : Nat) : List Nat → Memory
  | [] => m
  | a :: rest => (m.setSlot a (Config.freeSlot n a)).scramble n rest

/-- The canonical form: all three lists rise; a part mask belongs to a listed byte and is neither 0 nor 0xFF; the
unwritten bits of a byte stand as 0; no byte lies where CAP cannot reach. -/
def Memory.wf (m : Memory) : Bool :=
  Cells.risingFrom 0 m.bytes && Cells.risingFrom 0 m.part && Cells.risingFrom 0 m.slots &&
  m.part.all (fun c => c.2 ≠ 0 && c.2 ≠ 0xFF && (m.value c.1 &&& ~~~ c.2 = 0) && (Cells.read m.bytes c.1).isSome) &&
  m.bytes.all (fun c => c.1 < 2 ^ 29 - 1)

/-! ### The machine -/

/-- `8 * x[CAP]`, the capacity in bits (10 R11, R20). -/
def State.capBits (s : State) : Nat := 8 * s.cap.toNat

/-- The words of the descriptor of the command in hand (41 R80). -/
def State.words (s : State) : List EntryWord :=
  match s.mt with
  | .rawx => rawxWords
  | .eph => s.params.ephLayout

/-- The entries of the descriptor of the command in hand; none of a descriptor that does not decode. -/
def State.descriptor (s : State) : Descriptor := (decodeLayout s.words).getD []

/-- EXPC, the class id the message in hand must have (41 R80). -/
def State.expClass (s : State) : BitVec 8 :=
  match s.mt with
  | .rawx => s.params.rawxClass
  | .eph => ephClass

/-- EXPI, the message id the message in hand must have (41 R80). -/
def State.expId (s : State) : BitVec 8 :=
  match s.mt with
  | .rawx => s.params.rawxId
  | .eph => ephId

/-- `raise Fault(F)` (60 R131): the bit of F in FAULT is set and the command ends; nothing else changes. -/
def raise (c : Cause) (s : State) : State := { s with fault := s.fault ||| c.mask, running := false }

/-- `finish(status)` (60 R121): STATUS is set and the DEC command ends. After a status other than OK the slots the
descriptor names are unspecified (R124): each takes a free value. -/
def finish (st : Status) (s : State) : State :=
  match st with
  | .ok => { s with status := .ok, running := false }
  | .typeMismatch | .invalidMessage =>
    { s with
      status := st, running := false, freeCount := s.freeCount + 1,
      mem := s.mem.scramble s.freeCount (namedSlots s.descriptor s.params.maxsat.toNat) }

/-- Reset (70 R140, 10 R24): every block register is 0; BUF, FLD, the parameters and the host's further actions stay.
It is the only way out of the halted state (60 R132). -/
def resetRegisters (s : State) : State :=
  { State.reset with params := s.params, mem := s.mem, freeCount := s.freeCount, pending := s.pending }

end Sys2Proof.Machine
end

