-- ==== Sys2Proof/Machine/Operands.lean ====
section
/-!
DEFINITION. Operands: the checks of a primitive's POS and LEN (spec/40_bit_primitives.md R65), sign extension (R71,
spec/00_scope.md R6), an entry's slot (spec/41_sequencer_ops.md R82) and its `check`, `put` and `get`.
-/

namespace Sys2Proof.Machine

open Sys2Proof

/-- `sext_64` of a `w`-bit value (00 R6, 40 R71): `v` when `v < 2^(w-1)`, else `v + 2^64 - 2^w`. -/
def signExtend (w : Nat) (v : Slot) : Slot :=
  if v.toNat < 2 ^ (w - 1) then v else BitVec.ofNat 64 (v.toNat + (2 ^ 64 - 2 ^ w))

/-- A command's checks made before anything else (40 R65, 41 R80, 60 R132): a halted block ignores it. -/
def unlessHalted (s : State) (k : State → Result) : Result :=
  if s.halted then .next s else k s

/-- The operand checks of the four primitives, in the order of 40 R65: halted, WIDTH, BOUNDS (no wrap-around). -/
def withOperands (pos : BitVec 32) (len : BitVec 8) (s : State) (k : State → Result) : Result :=
  unlessHalted s fun s =>
    if len.toNat < 1 ∨ 64 < len.toNat then .next (raise .width s)
    else if s.capBits < pos.toNat + len.toNat then .next (raise .bounds s)
    else k s

/-- The value of a primitive's read: `len` bits from `pos`, most significant first (40 R68). -/
def readOperand (pos : BitVec 32) (len : BitVec 8) (s : State) (k : Slot → Result) : Result :=
  match s.mem.readField len.toNat pos.toNat 0 with
  | .error p => .fault (.unwrittenBit p)
  | .ok v => k v

/-- `check(W)` (41 R82, R91): BOUNDS unless the field fits the declared capacity. -/
def check (w : Nat) (s : State) (k : State → Result) : Result :=
  if s.capBits < s.cur.toNat + w then .next (raise .bounds s) else k s

/-- `CUR <- CUR + W` (41 R82). -/
def consume (w : Nat) (s : State) : State := { s with cur := s.cur + BitVec.ofNat 32 w }

/-- `DIX <- DIX + 1` (41 R84 to R88). -/
def nextEntry (s : State) : State := { s with dix := s.dix + 1 }

/-- CUR and DIX after an entry with a field of width `w` (10 R16). -/
def advance (w : Nat) (s : State) : State := nextEntry (consume w s)

/-- The writing half of `put(W, v)`, `advance` and the next entry (41 R82): the low `w` bits of `v` at CUR. -/
def putField (w : Nat) (v : Slot) (s : State) : State :=
  advance w { s with mem := s.mem.writeField v w s.cur.toNat }

/-- The reading half of `get(W)` (41 R82): the `w` bits at CUR. -/
def getField (w : Nat) (s : State) (k : Slot → Result) : Result :=
  match s.mem.readField w s.cur.toNat 0 with
  | .error p => .fault (.unwrittenBit p)
  | .ok v => k v

/-- The address on the struct port of the slot an FLD names (41 R82): `S[SLOT]` outside a repeated block,
`R[REC][SLOT]` inside; the error is the address of a slot that does not exist (10 R12). -/
def fieldAddress (slot : BitVec 6) (s : State) : Except Nat Nat :=
  let a := recordAddress s.recIx.toNat slot.toNat
  if s.inrep then
    if slot.toNat < recStride ∧ s.recIx.toNat < s.params.maxsat.toNat then .ok a else .error a
  else .ok slot.toNat

/-- The slot an FLD names, where it exists. -/
def withAddress (slot : BitVec 6) (s : State) (k : Nat → Result) : Result :=
  match fieldAddress slot s with
  | .error a => .fault (.noSuchSlot a)
  | .ok a => k a

/-- The content of the slot at address `a`, where something has written it (10 R24). -/
def readSlot (a : Nat) (s : State) (k : Slot → Result) : Result :=
  match s.mem.slot? a with
  | none => .fault (.unwrittenSlot a)
  | some v => k v

/-- The state with the slot at address `a` holding `v`. -/
def storeSlot (a : Nat) (v : Slot) (s : State) : State := { s with mem := s.mem.setSlot a v }

end Sys2Proof.Machine
end

