-- ==== Sys2Proof/Machine/Entries.lean ====
section
/-!
DEFINITION. The descriptor operations END, FLD, RSV, TAGC, TAGI, CNTF, REPB, REPE, each one micro-step of the sequencer
(spec/41_sequencer_ops.md R83 to R90).
-/

namespace Sys2Proof.Machine

open Sys2Proof

/-- The encode half of the entries with a scalar slot (41 R86 to R88): `put(W, S[SLOT])`; `k` gets the whole slot and
the state after the put. -/
def encodeScalar (w : Nat) (slot : BitVec 6) (s : State) (k : Slot → State → Result) : Result :=
  check w s fun s => readSlot slot.toNat s fun v => k v (putField w v s)

/-- The decode half of the entries with a scalar slot (41 R86 to R88): `v <- get(W)`; `k` gets `zext_64(v)` and the
state after the get, DIX not yet moved (a mismatch does not move it). -/
def decodeField (w : Nat) (s : State) (k : Slot → State → Result) : Result :=
  check w s fun s => getField w s fun v => k v (consume w s)

/-- END (41 R83): encode sets BITS to CUR; decode finishes with OK; the command ends. -/
def execEnd (s : State) : Result :=
  match s.dir with
  | .enc => .next { s with bits := s.cur, running := false }
  | .dec => .next (finish .ok s)

/-- FLD (41 R84): encode puts the low `W` bits of the slot; decode gets `W` bits and extends them into the slot. -/
def execFld (sgn : Bool) (wm1 slot : BitVec 6) (s : State) : Result :=
  let w := wm1.toNat + 1
  match s.dir with
  | .enc => check w s fun s => withAddress slot s fun a => readSlot a s fun v => .next (putField w v s)
  | .dec => check w s fun s => withAddress slot s fun a => getField w s fun v =>
      .next (storeSlot a (if sgn then signExtend w v else v) (advance w s))

/-- RSV (41 R85): encode puts zeros; decode skips the bits unread. -/
def execRsv (wm1 : BitVec 6) (s : State) : Result :=
  let w := wm1.toNat + 1
  match s.dir with
  | .enc => check w s fun s => .next (putField w 0 s)
  | .dec => check w s fun s => .next (advance w s)

/-- TAGC (41 R86): encode puts the slot unchecked; decode compares the field with EXPC. -/
def execTagc (wm1 slot : BitVec 6) (s : State) : Result :=
  let w := wm1.toNat + 1
  match s.dir with
  | .enc => encodeScalar w slot s fun _ s => .next s
  | .dec => decodeField w s fun v s =>
      if v ≠ s.expClass.setWidth 64 then .next (finish .typeMismatch s)
      else .next (storeSlot slot.toNat v (nextEntry s))

/-- TAGI (41 R87): as TAGC with EXPI. -/
def execTagi (wm1 slot : BitVec 6) (s : State) : Result :=
  let w := wm1.toNat + 1
  match s.dir with
  | .enc => encodeScalar w slot s fun _ s => .next s
  | .dec => decodeField w s fun v s =>
      if v ≠ s.expId.setWidth 64 then .next (finish .typeMismatch s)
      else .next (storeSlot slot.toNat v (nextEntry s))

/-- CNTF (41 R88): the repeat-count field; CNT latches the whole slot on encode, the value read on decode. -/
def execCntf (wm1 slot : BitVec 6) (s : State) : Result :=
  let w := wm1.toNat + 1
  match s.dir with
  | .enc => encodeScalar w slot s fun v s => .next { s with cnt := v }
  | .dec => decodeField w s fun v s => .next { storeSlot slot.toNat v (nextEntry s) with cnt := v }

/-- REPB (41 R89): a count above MAXSAT is COUNT on encode and INVALID_MESSAGE on decode; a count of 0 skips the block;
else the block is entered at record 0. -/
def execRepb (s : State) : Result :=
  if s.params.maxsat.toNat < s.cnt.toNat then
    match s.dir with
    | .enc => .next (raise .count s)
    | .dec => .next (finish .invalidMessage s)
  else if s.cnt = 0 then
    match s.words.findIdx? (· == 0xE000) with
    | none => .refused .malformedDescriptor
    | some k => .next { s with recIx := 0, rpt := s.dix + 1, dix := BitVec.ofNat 6 (k + 1) }
  else .next { s with recIx := 0, rpt := s.dix + 1, inrep := true, dix := s.dix + 1 }

/-- REPE (41 R90): the next record from RPT on, or out of the block. -/
def execRepe (s : State) : Result :=
  if s.recIx.toNat + 1 < s.cnt.toNat then .next { s with recIx := s.recIx + 1, dix := s.rpt }
  else .next { s with recIx := 0, inrep := false, dix := s.dix + 1 }

end Sys2Proof.Machine
end

