-- ==== Sys2Proof/Machine/Sequencer.lean ====
section
/-!
DEFINITION. The sequencer (spec/41_sequencer_ops.md R80, R81, R92): the start of a command, the fetch of an entry and
the loop of micro-steps until the command ends.
-/

namespace Sys2Proof.Machine

open Sys2Proof

/-- The registers at the start of an ENC or DEC command, before the first entry is fetched (41 R80). -/
def startCommand (mt : MsgType) (dir : Direction) (s : State) : State :=
  { s with
    mt := mt, dir := dir, dix := 0, cur := 0, recIx := 0, cnt := 0, inrep := false, rpt := 0, running := true }

/-- `e <- D[DIX]` (41 R81): the entry at DIX, none where the descriptor has no well-formed entry there (30 R52). -/
def fetchEntry (s : State) : Option Instr :=
  match s.words[s.dix.toNat]? with
  | some w => (decodeEntry w).toOption
  | none => none

/-- One entry's micro-step (41 R83 to R90); a command is no entry. -/
def entryStep (i : Instr) (s : State) : Result :=
  match i with
  | .endDesc => execEnd s
  | .fld sgn wm1 slot => execFld sgn wm1 slot s
  | .rsv wm1 => execRsv wm1 s
  | .tagc wm1 slot => execTagc wm1 slot s
  | .tagi wm1 slot => execTagi wm1 slot s
  | .cntf wm1 slot => execCntf wm1 slot s
  | .repb => execRepb s
  | .repe => execRepe s
  | .setu _ _ _ | .sets _ _ _ | .getu _ _ | .gets _ _ => .refused .malformedDescriptor
  | .encRawx | .decRawx | .encEph | .decEph => .refused .malformedDescriptor

/-- One micro-step: fetch the entry at DIX and perform it (41 R81). -/
def microStep (s : State) : Result :=
  match fetchEntry s with
  | some i => entryStep i s
  | none => .refused .malformedDescriptor

/-- Micro-steps until the command ends (41 R81), at most the given number of them. -/
def microLoop : Nat → State → Result
  | 0, _ => .refused .beyondMicroBound
  | n + 1, s =>
    match microStep s with
    | .next t => if t.running then microLoop n t else .next t
    | .fault r => .fault r
    | .refused r => .refused r

/-- An ENC or DEC command from its start to its end (41 R80, R81), as one transition (00 R5, 20 R38), with the bound of
41 R92 on its micro-steps. -/
def runCommand (mt : MsgType) (dir : Direction) (s : State) : Result :=
  let s := startCommand mt dir s
  microLoop (microBound s.descriptor s.params.maxsat.toNat) s

end Sys2Proof.Machine
end

