-- ==== Sys2Proof/Machine/Messages.lean ====
section
/-!
DEFINITION. The message commands ENC_RAWX, DEC_RAWX, ENC_EPH, DEC_EPH (spec/42_message_codecs.md R100 to R103).
-/

namespace Sys2Proof.Machine

open Sys2Proof

/-- An EPH command needs an EPH_LAYOUT that 30 R52 and R55 admit; with any other the configuration is refused
(30 R52, 93 U11). -/
def withEphLayout (s : State) (k : State → Result) : Result :=
  if s.params.ok then k s else .refused .malformedDescriptor

/-- ENC_RAWX (42 R100): the sequencer over the RAWX descriptor, struct to buffer. -/
def execEncRawx (s : State) : Result := unlessHalted s (runCommand .rawx .enc)

/-- DEC_RAWX (42 R101): the sequencer over the RAWX descriptor, buffer to struct. -/
def execDecRawx (s : State) : Result := unlessHalted s (runCommand .rawx .dec)

/-- ENC_EPH (42 R102): the sequencer over EPH_LAYOUT, struct to buffer. -/
def execEncEph (s : State) : Result := unlessHalted s fun s => withEphLayout s (runCommand .eph .enc)

/-- DEC_EPH (42 R103): the sequencer over EPH_LAYOUT, buffer to struct. -/
def execDecEph (s : State) : Result := unlessHalted s fun s => withEphLayout s (runCommand .eph .dec)

end Sys2Proof.Machine
end

