-- ==== Sys2Proof/Machine/Primitives.lean ====
section
/-!
DEFINITION. The bit primitives SETU, SETS, GETU, GETS (spec/40_bit_primitives.md R66 to R69).
-/

namespace Sys2Proof.Machine

open Sys2Proof

/-- SETU (40 R66): the `len` buffer bits from `pos` on become `trunc_len(val)`. -/
def execSetu (pos : BitVec 32) (len : BitVec 8) (val : Slot) (s : State) : Result :=
  withOperands pos len s fun s => .next { s with mem := s.mem.writeField val len.toNat pos.toNat }

/-- SETS (40 R67): the same write of the two's-complement pattern `val`. -/
def execSets (pos : BitVec 32) (len : BitVec 8) (val : Slot) (s : State) : Result :=
  withOperands pos len s fun s => .next { s with mem := s.mem.writeField val len.toNat pos.toNat }

/-- GETU (40 R68): RES is the `len` buffer bits from `pos` on, zero-extended. -/
def execGetu (pos : BitVec 32) (len : BitVec 8) (s : State) : Result :=
  withOperands pos len s fun s => readOperand pos len s fun v => .next { s with res := v }

/-- GETS (40 R69): RES is those bits, sign-extended from bit `len - 1`. -/
def execGets (pos : BitVec 32) (len : BitVec 8) (s : State) : Result :=
  withOperands pos len s fun s => readOperand pos len s fun v => .next { s with res := signExtend len.toNat v }

end Sys2Proof.Machine
end

