-- ==== Sys2Proof/Machine/Dispatch.lean ====
section
/-!
DEFINITION. What each instruction does: one arm per constructor of Instr, each one direct call of its meaning.
-/

namespace Sys2Proof.Machine

open Sys2Proof

/-- The meaning of an instruction. -/
def exec (i : Instr) (s : State) : Host.Outcome State Fault Refusal :=
  match i with
  | .setu pos len val => Sys2Proof.Machine.execSetu pos len val s
  | .sets pos len val => Sys2Proof.Machine.execSets pos len val s
  | .getu pos len => Sys2Proof.Machine.execGetu pos len s
  | .gets pos len => Sys2Proof.Machine.execGets pos len s
  | .encRawx => Sys2Proof.Machine.execEncRawx s
  | .decRawx => Sys2Proof.Machine.execDecRawx s
  | .encEph => Sys2Proof.Machine.execEncEph s
  | .decEph => Sys2Proof.Machine.execDecEph s
  | .endDesc => Sys2Proof.Machine.execEnd s
  | .fld sgn wm1 slot => Sys2Proof.Machine.execFld sgn wm1 slot s
  | .rsv wm1 => Sys2Proof.Machine.execRsv wm1 s
  | .tagc wm1 slot => Sys2Proof.Machine.execTagc wm1 slot s
  | .tagi wm1 slot => Sys2Proof.Machine.execTagi wm1 slot s
  | .cntf wm1 slot => Sys2Proof.Machine.execCntf wm1 slot s
  | .repb => Sys2Proof.Machine.execRepb s
  | .repe => Sys2Proof.Machine.execRepe s

end Sys2Proof.Machine
end

