-- ==== Sys2Proof/Machine/HostPorts.lean ====
section
/-!
DEFINITION. The host's ports (spec/10_state.md R22, spec/30_encoding.md R60, spec/70_reset_and_hazards.md R146): what
each host action does, what the host reads, and how the next thing the block does is found.
-/

namespace Sys2Proof.Machine

open Sys2Proof

/-- What a host read of the register at `addr` returns (10 R22). -/
def readReg (s : State) (addr : Nat) : BitVec 64 :=
  match addr with
  | 0x0 => s.cap.setWidth 64
  | 0x1 => s.status.code.setWidth 64
  | 0x2 => s.bits.setWidth 64
  | 0x3 => s.res
  | 0x4 => s.fault.setWidth 64
  | _ => 0

/-- A host write of the register at `addr` (10 R22): CAP takes bits 28..0, every other register ignores it. -/
def writeReg (addr : Nat) (v : BitVec 64) (s : State) : State :=
  if addr = 0x0 then { s with cap := v.extractLsb' 0 29 } else s

/-- A word on the command port: a halted block ignores it (60 R132), a legal word is executed, any other raises
ILLEGAL (30 R57, 60 R128). -/
def issue (w : CommandWord) (s : State) : Result :=
  match decodeCommand w with
  | .ok i => exec i s
  | .error _ => unlessHalted s fun s => .next (raise .illegal s)

/-- What a host action does. A write of the buffer is taken at every byte a value of CAP can reach
(notes/assumptions/10); a write of the struct at every slot of 10 R12. -/
def perform (a : HostAction) (s : State) : Result :=
  match a with
  | .command w => issue w s
  | .writeReg addr v => .next (writeReg addr v s)
  | .writeBuf a b =>
    if a < 2 ^ 29 - 1 then .next { s with mem := s.mem.setByte a 0xFF b } else .fault (.noSuchByte a)
  | .writeFld a v =>
    if a < recordAddress s.params.maxsat.toNat 0 then .next (storeSlot a v s) else .fault (.noSuchSlot a)
  | .reset => .next (resetRegisters s)

/-- The micro-step of a command in progress, as the instruction at DIX (41 R81). -/
def stepEntry (s : State) : Result :=
  match fetchEntry s with
  | some i => exec i s
  | none => .refused .malformedDescriptor

/-- The host's next action; the block waits where there is none (70 R141). -/
def stepHost (s : State) : Result :=
  match s.pending with
  | [] => .next s
  | a :: rest => perform a { s with pending := rest }

/-- What the block does next: a micro-step while a command is in progress, else the host's next action. A halted block
performs no micro-step (60 R131). -/
def stepNext (s : State) : Result :=
  if s.running ∧ ¬ s.halted then stepEntry s else stepHost s

/-- The list of words with `w` at index `n`, and after it the end of a smallest descriptor, REPE and END. -/
def placeEntry : Nat → List EntryWord → EntryWord → List EntryWord
  | 0, _, w => [w, 0xE000, 0x0000]
  | n + 1, [], w => 0x0000 :: placeEntry n [] w
  | n + 1, x :: rest, w => x :: placeEntry n rest w

/-- The state in which the next step runs the given word (notes/assumptions/15): a command word is the host's next
action, with the reference EPH_LAYOUT for the sequencer to walk; an entry word stands at DIX of the EPH descriptor
of a command in progress. -/
def placeCode (s : State) : Code → State
  | .command w =>
    { s with running := false, pending := .command w :: s.pending, params := { s.params with ephLayout := ephReference } }
  | .entry w =>
    { s with
      running := true, mt := .eph,
      params := { s.params with ephLayout := placeEntry s.dix.toNat s.params.ephLayout w } }

end Sys2Proof.Machine
end

