-- ==== Sys2Proof/Machine/Step.lean ====
section
/-!
DEFINITION. One step of the machine: a micro-step of a command in progress, else the host's next action.
-/

namespace Sys2Proof.Machine

open Sys2Proof

/-- One step. -/
def step : State → Host.Outcome State Fault Refusal := stepNext

/-- `s` with the instruction of `nbits` bits `w`, numbered as spec/opcode_table.json numbers them, where `step` finds
its next instruction. -/
def State.withFetchWord (s : State) (nbits w : Nat) : State := placeCode s (codeOfTable nbits w)

end Sys2Proof.Machine
end

