-- ==== Sys2Proof/Safety.lean ====
section
/-!
DEFINITION. What counts as a safe run, and the words the statements are written in: a result that answers a next state,
a field of the buffer that holds a value, the wire layouts of spec/42_message_codecs.md R104 and R107 as tables of
their own, and the invariant of the machine.
-/

namespace Sys2Proof.Machine

open Sys2Proof

/-- The result is a next state of which `P` holds. -/
def Answers (r : Result) (P : State → Prop) : Prop := ∃ t, r = .next t ∧ P t

/-- A run ended well when FAULT is 0 (70 R145). -/
def State.endedWell (s : State) : Prop := s.fault = 0

/-- The `w` buffer bits from `pos` on hold the low `w` bits of `v`, most significant first (20 R32). -/
def FieldHolds (m : Memory) (pos w : Nat) (v : Slot) : Prop :=
  ∀ i < w, m.bit? (pos + i) = some (v.getLsbD (w - 1 - i))

/-- Every bit from `lo` up to, but not including, `hi` holds a value. -/
def BitsWritten (m : Memory) (lo hi : Nat) : Prop := ∀ q, lo ≤ q → q < hi → (m.bit? q).isSome

/-- Every buffer bit outside `lo .. hi-1` is the same in both memories (20 R35). -/
def SameOutside (m m' : Memory) (lo hi : Nat) : Prop := ∀ q, q < lo ∨ hi ≤ q → m'.bit? q = m.bit? q

/-- The buffer is the same, bit for bit and in what is written. -/
def SameBuffer (m m' : Memory) : Prop := m'.bytes = m.bytes ∧ m'.part = m.part

/-- The slot at `a` holds the extension of the `w` buffer bits at `pos` (10 R13): sign-extended or zero-extended. -/
def SlotDecodes (m : Memory) (slots : Memory) (pos w : Nat) (signed : Bool) (a : Nat) : Prop :=
  ∃ v : Slot, v.toNat < 2 ^ w ∧ FieldHolds m pos w v ∧
    slots.slot? a = some (if signed then signExtend w v else v)

/-- An FLD entry with this SLOT names the slot at address `a` (41 R82): `R[REC][SLOT]` inside a repeated block, where
that record and slot exist (10 R12), `S[SLOT]` outside. -/
def NamesSlot (s : State) (slot : BitVec 6) (a : Nat) : Prop :=
  (s.inrep = false ∧ a = slot.toNat) ∨
  (s.inrep = true ∧ slot.toNat < 16 ∧ s.recIx.toNat < s.params.maxsat.toNat ∧
    a = 64 + 16 * s.recIx.toNat + slot.toNat)

/-- The register CAP, every other host register, the parameters and the host's further actions are the same. -/
def SameHostSide (s t : State) : Prop :=
  t.params = s.params ∧ t.cap = s.cap ∧ t.pending = s.pending

/-- `s` with the sequencer registers of `t`, which the host does not see (10 R16). -/
def State.sequencedAs (s t : State) : State :=
  { s with
    mt := t.mt, dir := t.dir, dix := t.dix, cur := t.cur, recIx := t.recIx, cnt := t.cnt, inrep := t.inrep,
    rpt := t.rpt, running := t.running }

/-- The operand checks of the primitive `i` on `pos` and `len`, in the order of 40 R65: a halted block ignores it, a `len`
outside 1..64 raises WIDTH, a field past the capacity raises BOUNDS; nothing but FAULT changes. -/
def ChecksOperands (i : Instr) (pos : BitVec 32) (len : BitVec 8) (s : State) : Prop :=
  (s.fault ≠ 0 → exec i s = .next s) ∧
  (s.fault = 0 → (len.toNat < 1 ∨ 64 < len.toNat) → exec i s = .next { s with fault := 0x1, running := false }) ∧
  (s.fault = 0 → 1 ≤ len.toNat → len.toNat ≤ 64 → 8 * s.cap.toNat < pos.toNat + len.toNat →
    exec i s = .next { s with fault := 0x2, running := false })

/-- The check of the entry `i`, whose field has `w` bits, against the capacity (41 R82): BOUNDS, and nothing else
changes. -/
def ChecksCapacity (i : Instr) (w : Nat) (s : State) : Prop :=
  8 * s.cap.toNat < s.cur.toNat + w → exec i s = .next { s with fault := s.fault ||| 0x2, running := false }

/-- What a message command that BOUNDS has stopped leaves (60 R127, R131): FAULT is BOUNDS and every other register the
host sees is as before the command, no bit at or past the capacity is written, and the command has ended. -/
def StoppedByBounds (s t : State) : Prop :=
  t.fault = 0x2 ∧ SameOutside s.mem t.mem 0 s.capBits ∧
  t = { s.sequencedAs t with mem := t.mem, fault := t.fault } ∧ t.running = false

/-- The message command `i` runs the sequencer over this message type in this direction (30 R47). -/
def Runs (i : Instr) (mt : MsgType) (dir : Direction) : Prop :=
  (i, mt, dir) ∈ [(.encRawx, .rawx, .enc), (.decRawx, .rawx, .dec), (.encEph, .eph, .enc), (.decEph, .eph, .dec)]

/-! ### The wire layouts -/

/-- A field of a wire layout: its bit address, width, sign and slot number. -/
structure WireField where
  bit : Nat
  width : Nat
  signed : Bool
  slot : Nat
  deriving DecidableEq, Repr

/-- The RAWX header of 42 R104, without its reserved bits 136..139. -/
def rawxHeader : List WireField :=
  [⟨0, 8, false, 0⟩, ⟨8, 8, false, 1⟩, ⟨16, 64, false, 2⟩, ⟨80, 16, false, 3⟩, ⟨96, 16, true, 4⟩,
   ⟨112, 8, false, 5⟩, ⟨120, 8, false, 6⟩, ⟨128, 8, false, 7⟩]

/-- A RAWX record of 42 R104 relative to its first bit, without its reserved bits 248..255. -/
def rawxRecord : List WireField :=
  [⟨0, 64, false, 0⟩, ⟨64, 64, false, 1⟩, ⟨128, 32, false, 2⟩, ⟨160, 8, false, 3⟩, ⟨168, 8, false, 4⟩,
   ⟨176, 8, false, 5⟩, ⟨184, 8, true, 6⟩, ⟨192, 8, false, 7⟩, ⟨200, 16, false, 8⟩, ⟨216, 8, false, 9⟩,
   ⟨224, 8, false, 10⟩, ⟨232, 8, false, 11⟩, ⟨240, 8, false, 12⟩]

/-- The first bit of record `i` (42 R104). -/
def recordBit (i : Nat) : Nat := 140 + 256 * i

/-- The entries of a descriptor without a repeated block, each with the bit address of its field: the sum of the
widths before it (30 R53, 42 R107). -/
def placed : Nat → Descriptor → List (Nat × Instr)
  | _, [] => []
  | p, i :: rest => (p, i) :: placed (p + i.width) rest

/-- The slots ENC_RAWX reads for `n` records hold values (42 R100). -/
def RawxStructWritten (m : Memory) (n : Nat) : Prop :=
  (∀ k < 8, (m.slot? k).isSome) ∧ ∀ i < n, ∀ j < 13, (m.slot? (recordAddress i j)).isSome

/-- The slot content `v` is canonical for a field of width `w` (10 R13). -/
def Canonical (w : Nat) (signed : Bool) (v : Slot) : Prop :=
  if signed then v = signExtend w (BitVec.ofNat 64 (v.toNat % 2 ^ w)) else v.toNat < 2 ^ w

/-! ### The opcode table -/

/-- The instruction's mnemonic in spec/opcode_table.json. -/
def mnemonicOf : Instr → String
  | .setu _ _ _ => "SETU"
  | .sets _ _ _ => "SETS"
  | .getu _ _ => "GETU"
  | .gets _ _ => "GETS"
  | .encRawx => "ENC_RAWX"
  | .decRawx => "DEC_RAWX"
  | .encEph => "ENC_EPH"
  | .decEph => "DEC_EPH"
  | .endDesc => "END"
  | .fld _ _ _ => "FLD"
  | .rsv _ => "RSV"
  | .tagc _ _ => "TAGC"
  | .tagi _ _ => "TAGI"
  | .cntf _ _ => "CNTF"
  | .repb => "REPB"
  | .repe => "REPE"

/-- A row of the tables of 30 R48 and R51: a word `w` selects it when `w AND mask = pattern`. -/
structure OpcodeRow (n : Nat) where
  mnemonic : String
  pattern : BitVec n
  mask : BitVec n
  deriving DecidableEq, Repr

/-- The command rows of 30 R48. -/
def commandRows : List (OpcodeRow 128) :=
  [⟨"SETU", 0x10000000_00000000_00000000_00000000, 0xFFFFFF00_00000000_00000000_00000000⟩,
   ⟨"SETS", 0x20000000_00000000_00000000_00000000, 0xFFFFFF00_00000000_00000000_00000000⟩,
   ⟨"GETU", 0x30000000_00000000_00000000_00000000, 0xFFFFFF00_00000000_FFFFFFFF_FFFFFFFF⟩,
   ⟨"GETS", 0x40000000_00000000_00000000_00000000, 0xFFFFFF00_00000000_FFFFFFFF_FFFFFFFF⟩,
   ⟨"ENC_RAWX", 0x80000000_00000000_00000000_00000000, 0xFFFFFFFF_FFFFFFFF_FFFFFFFF_FFFFFFFF⟩,
   ⟨"DEC_RAWX", 0x90000000_00000000_00000000_00000000, 0xFFFFFFFF_FFFFFFFF_FFFFFFFF_FFFFFFFF⟩,
   ⟨"ENC_EPH", 0xA0000000_00000000_00000000_00000000, 0xFFFFFFFF_FFFFFFFF_FFFFFFFF_FFFFFFFF⟩,
   ⟨"DEC_EPH", 0xB0000000_00000000_00000000_00000000, 0xFFFFFFFF_FFFFFFFF_FFFFFFFF_FFFFFFFF⟩]

/-- The entry rows of 30 R51. -/
def entryRows : List (OpcodeRow 16) :=
  [⟨"END", 0x0000, 0xFFFF⟩, ⟨"FLD", 0x2000, 0xE000⟩, ⟨"RSV", 0x4000, 0xF03F⟩, ⟨"TAGC", 0x6000, 0xF000⟩,
   ⟨"TAGI", 0x8000, 0xF000⟩, ⟨"CNTF", 0xA000, 0xF000⟩, ⟨"REPB", 0xC000, 0xFFFF⟩, ⟨"REPE", 0xE000, 0xFFFF⟩]

/-! ### The invariant -/

/-- FAULT holds no bit or one (60 R130, R132). -/
def State.faultSingle (s : State) : Bool :=
  s.fault == 0 || s.fault == 0x1 || s.fault == 0x2 || s.fault == 0x4 || s.fault == 0x8

/-- What every step keeps: the memory in canonical form, no slot listed that does not exist (10 R12), at most one bit
of FAULT set (60 R132), and while a command is in progress FAULT is 0 and CUR is within the capacity (41 R91). -/
def State.Inv (s : State) : Prop :=
  s.mem.wf = true ∧ (∀ a v, s.mem.slot? a = some v → a < recordAddress s.params.maxsat.toNat 0) ∧
  s.faultSingle = true ∧ (s.running = true → s.fault = 0 ∧ s.cur.toNat ≤ s.capBits)

end Sys2Proof.Machine
end

