-- ==== Sys2Proof/Certificates/Slice0/Obligations.lean ====
section
/-!
DEFINITION. The statements for the provers, each a Prop named for what it states. The docstrings name the rules of spec/
they formalise; OBLIGATIONS.json lists them.
-/

open Sys2Proof Sys2Proof.Machine

/-! ### Encodings (spec/30_encoding.md) -/

/-- Decoding the word of an instruction gives it back, every operand at every value (30 R46 to R51). -/
def Obligations.DecodeOfEncodeIsTheInstruction : Prop :=
  ∀ i : Instr, decode (encode i) = .ok i

/-- A word that decodes is the word of the instruction it decodes to: one instruction has one word (30 R48, R51). -/
def Obligations.EncodeOfDecodeIsTheWord : Prop :=
  ∀ (c : Code) (i : Instr), decode c = .ok i → encode i = c

/-- 30 R48: a command word is an instruction exactly when it selects a row of the match and mask table, and then it is
that row's instruction; the rows exclude each other. -/
def Obligations.CommandWordsSelectRows : Prop :=
  (∀ (w : CommandWord) (i : Instr), decodeCommand w = .ok i →
    ∃ r ∈ commandRows, r.mnemonic = mnemonicOf i ∧ w &&& r.mask = r.pattern) ∧
  (∀ w : CommandWord, (∃ r ∈ commandRows, w &&& r.mask = r.pattern) → ∃ i, decodeCommand w = .ok i) ∧
  (∀ (w : CommandWord), ∀ r ∈ commandRows, ∀ r' ∈ commandRows,
    w &&& r.mask = r.pattern → w &&& r'.mask = r'.pattern → r = r')

/-- 30 R51: an entry word is an instruction exactly when it selects a row of the table of entry kinds, and then it is
that row's instruction; the rows exclude each other. -/
def Obligations.EntryWordsSelectRows : Prop :=
  (∀ (w : EntryWord) (i : Instr), decodeEntry w = .ok i →
    ∃ r ∈ entryRows, r.mnemonic = mnemonicOf i ∧ w &&& r.mask = r.pattern) ∧
  (∀ w : EntryWord, (∃ r ∈ entryRows, w &&& r.mask = r.pattern) → ∃ i, decodeEntry w = .ok i) ∧
  (∀ (w : EntryWord), ∀ r ∈ entryRows, ∀ r' ∈ entryRows,
    w &&& r.mask = r.pattern → w &&& r'.mask = r'.pattern → r = r')

/-- 30 R46, R49: the operands of a decoded primitive are the fields POS, LEN and VAL of its word. -/
def Obligations.OperandsAreTheWordsFields : Prop :=
  ∀ (w : CommandWord) (pos : BitVec 32) (len : BitVec 8) (val : Slot),
    (decodeCommand w = .ok (.setu pos len val) ∨ decodeCommand w = .ok (.sets pos len val) →
      pos = w.extractLsb' 64 32 ∧ len = w.extractLsb' 96 8 ∧ val = w.extractLsb' 0 64) ∧
    (decodeCommand w = .ok (.getu pos len) ∨ decodeCommand w = .ok (.gets pos len) →
      pos = w.extractLsb' 64 32 ∧ len = w.extractLsb' 96 8 ∧ w.extractLsb' 0 64 = 0)

/-- The words that 95 section 2 writes out: its table of command words and the descriptor words of 2.2 decode to the
instructions they stand for, and its illegal command words and malformed entry words to none. -/
def Obligations.WrittenOutWordsDecode : Prop :=
  (decodeCommand 0x10000008_00000004_00000000_000000A5 = .ok (.setu 4 8 0xA5) ∧
    decodeCommand 0x20000010_00000000_FFFFFFFF_FFFFFFFB = .ok (.sets 0 16 0xFFFFFFFFFFFFFFFB) ∧
    decodeCommand 0x30000010_00000004_00000000_00000000 = .ok (.getu 4 16) ∧
    decodeCommand 0x40000010_00000000_00000000_00000000 = .ok (.gets 0 16) ∧
    decodeCommand 0x10000000_00000000_00000000_00000001 = .ok (.setu 0 0 1) ∧
    decodeCommand 0x10000041_00000000_00000000_00000001 = .ok (.setu 0 65 1) ∧
    decodeCommand 0x30000040_00000000_00000000_00000000 = .ok (.getu 0 64) ∧
    decodeCommand 0x80000000_00000000_00000000_00000000 = .ok .encRawx ∧
    decodeCommand 0x90000000_00000000_00000000_00000000 = .ok .decRawx ∧
    decodeCommand 0xA0000000_00000000_00000000_00000000 = .ok .encEph ∧
    decodeCommand 0xB0000000_00000000_00000000_00000000 = .ok .decEph) ∧
  (decodeCommand 0x00000000_00000000_00000000_00000000 = .error (.illegalOp 0x0) ∧
    decodeCommand 0x50000000_00000000_00000000_00000000 = .error (.illegalOp 0x5) ∧
    decodeCommand 0xF0000000_00000000_00000000_00000000 = .error (.illegalOp 0xF) ∧
    decodeCommand 0x10100008_00000004_00000000_000000A5 = .error .nonzeroZero ∧
    decodeCommand 0x30000010_00000004_00000000_00000001 = .error .nonzeroUnused ∧
    decodeCommand 0x80000000_00000001_00000000_00000000 = .error .nonzeroUnused) ∧
  (decodeEntry 0x21C6 = .ok (.fld false 7 6) ∧ decodeEntry 0x33C4 = .ok (.fld true 15 4) ∧
    decodeEntry 0x2FC2 = .ok (.fld false 63 2) ∧ decodeEntry 0x27C2 = .ok (.fld false 31 2) ∧
    decodeEntry 0x40C0 = .ok (.rsv 3) ∧ decodeEntry 0x41C0 = .ok (.rsv 7) ∧ decodeEntry 0x61C0 = .ok (.tagc 7 0) ∧
    decodeEntry 0x81C1 = .ok (.tagi 7 1) ∧ decodeEntry 0xA1C5 = .ok (.cntf 7 5) ∧ decodeEntry 0xC000 = .ok .repb ∧
    decodeEntry 0xE000 = .ok .repe ∧ decodeEntry 0x0000 = .ok .endDesc ∧ decodeEntry 0x32C2 = .ok (.fld true 11 2) ∧
    decodeEntry 0x24C3 = .ok (.fld false 19 3)) ∧
  (decodeEntry 0x0001 = .error (.malformedEntry 0x0001) ∧ decodeEntry 0x4001 = .error (.malformedEntry 0x4001) ∧
    decodeEntry 0x7000 = .error (.malformedEntry 0x7000) ∧ decodeEntry 0xC040 = .error (.malformedEntry 0xC040) ∧
    decodeEntry 0xE001 = .error (.malformedEntry 0xE001))

/-- 30 R54: the RAWX descriptor is the 26 entries of the table of R54, well-formed for every MAXSAT, with `H = 140` and
`B = 256`. -/
def Obligations.RawxDescriptorIsWellFormed : Prop :=
  ∃ d : Descriptor, decodeLayout rawxWords = some d ∧
    d =
      [.tagc 7 0, .tagi 7 1, .fld false 63 2, .fld false 15 3, .fld true 15 4, .cntf 7 5, .fld false 7 6, .fld false 7 7,
       .rsv 3, .repb, .fld false 63 0, .fld false 63 1, .fld false 31 2, .fld false 7 3, .fld false 7 4,
       .fld false 7 5, .fld true 7 6, .fld false 7 7, .fld false 15 8, .fld false 7 9, .fld false 7 10,
       .fld false 7 11, .fld false 7 12, .rsv 7, .repe, .endDesc] ∧
    Descriptor.totalWidth d.outside = 140 ∧ Descriptor.totalWidth d.inside = 256 ∧ ∀ maxsat ≤ 255, d.wf maxsat = true

/-! ### The primitives (spec/40_bit_primitives.md) -/

/-- 40 R66: SETU makes the checks of R65; within its contract it writes the low `len` bits of `val` at `pos`, most
significant first, and changes nothing else. -/
def Obligations.SetuWritesItsField : Prop :=
  ∀ (pos : BitVec 32) (len : BitVec 8) (val : Slot) (s : State),
    ChecksOperands (.setu pos len val) pos len s ∧
    (s.fault = 0 → 1 ≤ len.toNat → len.toNat ≤ 64 → pos.toNat + len.toNat ≤ s.capBits →
      Answers (exec (.setu pos len val) s) fun t =>
        FieldHolds t.mem pos.toNat len.toNat val ∧
        SameOutside s.mem t.mem pos.toNat (pos.toNat + len.toNat) ∧
        t.mem.slots = s.mem.slots ∧ t = { s with mem := t.mem })

/-- 40 R67: SETS does the same with the two's-complement pattern of a signed integer `n`: the field receives
`n mod 2^len`, and for `n` representable in `len` bits its first bit is the sign. It is SETU on the same pattern. -/
def Obligations.SetsWritesTwosComplement : Prop :=
  ∀ (pos : BitVec 32) (len : BitVec 8) (n : Int) (s : State),
    ChecksOperands (.sets pos len (BitVec.ofInt 64 n)) pos len s ∧
    exec (.sets pos len (BitVec.ofInt 64 n)) s = exec (.setu pos len (BitVec.ofInt 64 n)) s ∧
    (s.fault = 0 → 1 ≤ len.toNat → len.toNat ≤ 64 → pos.toNat + len.toNat ≤ s.capBits →
      Answers (exec (.sets pos len (BitVec.ofInt 64 n)) s) fun t =>
        FieldHolds t.mem pos.toNat len.toNat (BitVec.ofInt 64 (n % 2 ^ len.toNat)) ∧
        (-(2 ^ (len.toNat - 1)) ≤ n → n < 2 ^ (len.toNat - 1) → t.mem.bit? pos.toNat = some (decide (n < 0))) ∧
        SameOutside s.mem t.mem pos.toNat (pos.toNat + len.toNat) ∧
        t.mem.slots = s.mem.slots ∧ t = { s with mem := t.mem })

/-- 40 R68: GETU makes the checks of R65; within its contract, over bits that hold values, it sets RES to those bits,
zero-extended, and changes nothing else. -/
def Obligations.GetuReadsItsField : Prop :=
  ∀ (pos : BitVec 32) (len : BitVec 8) (s : State),
    ChecksOperands (.getu pos len) pos len s ∧
    (s.fault = 0 → 1 ≤ len.toNat → len.toNat ≤ 64 → pos.toNat + len.toNat ≤ s.capBits →
      BitsWritten s.mem pos.toNat (pos.toNat + len.toNat) →
      Answers (exec (.getu pos len) s) fun t =>
        FieldHolds s.mem pos.toNat len.toNat t.res ∧ t.res.toNat < 2 ^ len.toNat ∧ t = { s with res := t.res })

/-- 40 R69: GETS sets RES to the 64-bit pattern of the field's two's-complement reading: its low `len` bits are the
field's and every higher bit is the buffer bit at `pos`. -/
def Obligations.GetsReadsSigned : Prop :=
  ∀ (pos : BitVec 32) (len : BitVec 8) (s : State),
    ChecksOperands (.gets pos len) pos len s ∧
    (s.fault = 0 → 1 ≤ len.toNat → len.toNat ≤ 64 → pos.toNat + len.toNat ≤ s.capBits →
      BitsWritten s.mem pos.toNat (pos.toNat + len.toNat) →
      Answers (exec (.gets pos len) s) fun t =>
        FieldHolds s.mem pos.toNat len.toNat t.res ∧
        (∀ j, len.toNat ≤ j → j < 64 → s.mem.bit? pos.toNat = some (t.res.getLsbD j)) ∧
        t = { s with res := t.res })

/-- 40 R65: the checks of the four primitives, in order: a halted block ignores the command, a LEN outside 1..64 raises
WIDTH, a field past the capacity raises BOUNDS; each changes FAULT alone. -/
def Obligations.PrimitivesCheckTheirOperands : Prop :=
  ∀ (pos : BitVec 32) (len : BitVec 8) (val : Slot) (s : State),
  ∀ i ∈ [Instr.setu pos len val, .sets pos len val, .getu pos len, .gets pos len], ChecksOperands i pos len s

/-- 20 R31, R32: bit address `8*a + j` names bit `7 - j` of byte `a`; a field's most significant bit is at its first
address and its least significant one at its last; so a byte-aligned field of `n` bytes that SETU writes appears most
significant byte first. -/
def Obligations.FieldsAreBigEndian : Prop :=
  (∀ (m : Memory) (a : Nat) (b : Byte),
    m.readByte a = some b ↔ ∀ j < 8, m.bit? (8 * a + j) = some (b.getLsbD (7 - j))) ∧
  (∀ (pos : BitVec 32) (len : BitVec 8) (v : Slot) (s : State),
    s.fault = 0 → 1 ≤ len.toNat → len.toNat ≤ 64 → pos.toNat + len.toNat ≤ s.capBits →
    Answers (exec (.setu pos len v) s) fun t =>
      t.mem.bit? pos.toNat = some (v.getLsbD (len.toNat - 1)) ∧
      t.mem.bit? (pos.toNat + len.toNat - 1) = some (v.getLsbD 0) ∧
      ∀ a n, pos.toNat = 8 * a → len.toNat = 8 * n → ∀ k < n,
        t.mem.readByte (a + k) = some (v.extractLsb' (8 * (n - 1 - k)) 8))

/-- 40 R72: a signed integer representable in `len` bits, written by SETS and read by GETS at the same place, comes back
unchanged, and no bit outside the field is disturbed. -/
def Obligations.SignedRoundTrip : Prop :=
  ∀ (pos : BitVec 32) (len : BitVec 8) (n : Int) (s : State),
    s.fault = 0 → 1 ≤ len.toNat → len.toNat ≤ 64 → pos.toNat + len.toNat ≤ s.capBits →
    -(2 ^ (len.toNat - 1)) ≤ n → n < 2 ^ (len.toNat - 1) →
    Answers (exec (.sets pos len (BitVec.ofInt 64 n)) s) fun t =>
      SameOutside s.mem t.mem pos.toNat (pos.toNat + len.toNat) ∧
      Answers (exec (.gets pos len) t) fun u => u.res = BitVec.ofInt 64 n ∧ u.mem = t.mem

/-- 40 R73: the unsigned round trip and the mixed pairs. -/
def Obligations.UnsignedAndMixedRoundTrips : Prop :=
  ∀ (pos : BitVec 32) (len : BitVec 8) (v : Slot) (s : State),
    s.fault = 0 → 1 ≤ len.toNat → len.toNat ≤ 64 → pos.toNat + len.toNat ≤ s.capBits →
    ∀ i ∈ [Instr.setu pos len v, .sets pos len v], Answers (exec i s) fun t =>
      (Answers (exec (.getu pos len) t) fun u => u.res.toNat = v.toNat % 2 ^ len.toNat) ∧
      (Answers (exec (.gets pos len) t) fun u =>
        u.res = signExtend len.toNat (BitVec.ofNat 64 (v.toNat % 2 ^ len.toNat)))

/-- 40 R71: `sext_64` of a `len`-bit value, and it undoes truncation on the integers representable in `len` bits. -/
def Obligations.SignExtensionUndoesTruncation : Prop :=
  ∀ len : Nat, 1 ≤ len → len ≤ 64 →
    (∀ v : Slot, v.toNat < 2 ^ len →
      (signExtend len v).toNat = if v.toNat < 2 ^ (len - 1) then v.toNat else v.toNat + 2 ^ 64 - 2 ^ len) ∧
    (∀ n : Int, -(2 ^ (len - 1)) ≤ n → n < 2 ^ (len - 1) →
      signExtend len (BitVec.ofNat 64 ((BitVec.ofInt 64 n).toNat % 2 ^ len)) = BitVec.ofInt 64 n)

/-- 40 R74: two SETUs of the two parts of a field leave the same buffer as one SETU of the whole, and what GETU reads is
the concatenation of what two GETUs of its parts read. -/
def Obligations.FieldsSplit : Prop :=
  ∀ (pos : BitVec 32) (k len : BitVec 8) (v : Slot) (s : State),
    s.fault = 0 → 1 ≤ k.toNat → k.toNat < len.toNat → len.toNat ≤ 64 → pos.toNat + len.toNat ≤ s.capBits →
    (Answers (exec (.setu pos len v) s) fun w =>
      Answers (exec (.setu pos k (v >>> (len.toNat - k.toNat))) s) fun t =>
        Answers (exec (.setu (pos + k.setWidth 32) (len - k) v) t) fun u => ∀ q, u.mem.bit? q = w.mem.bit? q) ∧
    (BitsWritten s.mem pos.toNat (pos.toNat + len.toNat) →
      Answers (exec (.getu pos len) s) fun w =>
        Answers (exec (.getu pos k) s) fun t =>
          Answers (exec (.getu (pos + k.setWidth 32) (len - k)) s) fun u =>
            w.res = t.res <<< (len.toNat - k.toNat) ||| u.res)

/-- 10 R24, 93 U7 (the model's reading at bit granularity, notes/assumptions/6 and 7): a GETU or GETS whose field has a
bit nothing has written stops at the first such bit. -/
def Obligations.ReadOfUnwrittenBitStops : Prop :=
  ∀ (pos : BitVec 32) (len : BitVec 8) (k : Nat) (s : State),
    s.fault = 0 → len.toNat ≤ 64 → pos.toNat + len.toNat ≤ s.capBits → k < len.toNat →
    BitsWritten s.mem pos.toNat (pos.toNat + k) → s.mem.bit? (pos.toNat + k) = none →
    exec (.getu pos len) s = .fault (.unwrittenBit (pos.toNat + k)) ∧
    exec (.gets pos len) s = .fault (.unwrittenBit (pos.toNat + k))

/-! ### The descriptor operations (spec/41_sequencer_ops.md) -/

/-- 20 R36: a field that does not fit the declared capacity is not accessed: every primitive of legal width and every
entry with a field, in both directions, raises BOUNDS and changes nothing else. -/
def Obligations.AccessesCheckTheCapacity : Prop :=
  (∀ (pos : BitVec 32) (len : BitVec 8) (val : Slot) (s : State),
    s.fault = 0 → 1 ≤ len.toNat → len.toNat ≤ 64 → 8 * s.cap.toNat < pos.toNat + len.toNat →
    ∀ i ∈ [Instr.setu pos len val, .sets pos len val, .getu pos len, .gets pos len],
      exec i s = .next { s with fault := 0x2, running := false }) ∧
  (∀ (sgn : Bool) (wm1 slot : BitVec 6) (s : State),
    ∀ i ∈ [Instr.fld sgn wm1 slot, .rsv wm1, .tagc wm1 slot, .tagi wm1 slot, .cntf wm1 slot],
      ChecksCapacity i (wm1.toNat + 1) s)

/-- 41 R83: END on encode sets BITS to CUR, on decode STATUS to OK, and ends the command. -/
def Obligations.EndCompletesTheCommand : Prop :=
  ∀ s : State,
    (s.dir = .enc → exec .endDesc s = .next { s with bits := s.cur, running := false }) ∧
    (s.dir = .dec → exec .endDesc s = .next { s with status := .ok, running := false })

/-- 41 R84: FLD checks the capacity. On encode it puts the low `W` bits of its slot at CUR, whatever SGN is. On decode it
sets its slot to the `W` bits at CUR, sign-extended when SGN is 1 and zero-extended when it is 0. It moves on and changes
nothing else. -/
def Obligations.FldMovesItsField : Prop :=
  ∀ (sgn : Bool) (wm1 slot : BitVec 6) (s : State),
    ChecksCapacity (.fld sgn wm1 slot) (wm1.toNat + 1) s ∧
    (s.cur.toNat + (wm1.toNat + 1) ≤ s.capBits → ∀ a, NamesSlot s slot a →
      (∀ v, s.dir = .enc → s.mem.slot? a = some v → Answers (exec (.fld sgn wm1 slot) s) fun t =>
        FieldHolds t.mem s.cur.toNat (wm1.toNat + 1) v ∧
        SameOutside s.mem t.mem s.cur.toNat (s.cur.toNat + (wm1.toNat + 1)) ∧ t.mem.slots = s.mem.slots ∧
        t.cur.toNat = s.cur.toNat + (wm1.toNat + 1) ∧
        t = { s with mem := t.mem, cur := t.cur, dix := s.dix + 1 }) ∧
      (s.dir = .dec → BitsWritten s.mem s.cur.toNat (s.cur.toNat + (wm1.toNat + 1)) →
        Answers (exec (.fld sgn wm1 slot) s) fun t =>
          SlotDecodes s.mem t.mem s.cur.toNat (wm1.toNat + 1) sgn a ∧ (∀ b ≠ a, t.mem.slot? b = s.mem.slot? b) ∧
          SameBuffer s.mem t.mem ∧ t.cur.toNat = s.cur.toNat + (wm1.toNat + 1) ∧
          t = { s with mem := t.mem, cur := t.cur, dix := s.dix + 1 }))

/-- 41 R85: RSV checks the capacity; on encode it puts zeros and on decode it skips its bits unread, so that no value of
them matters; both move on and change nothing else. -/
def Obligations.RsvWritesZerosAndSkips : Prop :=
  ∀ (wm1 : BitVec 6) (s : State), ChecksCapacity (.rsv wm1) (wm1.toNat + 1) s ∧
    (s.cur.toNat + (wm1.toNat + 1) ≤ s.capBits →
      Answers (exec (.rsv wm1) s) fun t =>
        (s.dir = .enc → FieldHolds t.mem s.cur.toNat (wm1.toNat + 1) 0 ∧
          SameOutside s.mem t.mem s.cur.toNat (s.cur.toNat + (wm1.toNat + 1)) ∧ t.mem.slots = s.mem.slots) ∧
        (s.dir = .dec → t.mem = s.mem) ∧
        t.cur.toNat = s.cur.toNat + (wm1.toNat + 1) ∧
        t = { s with mem := t.mem, cur := t.cur, dix := s.dix + 1 })

/-- 41 R86, R87: TAGC and TAGI check the capacity. On encode they put the low `W` bits of `S[SLOT]`, unchecked. On decode
they compare their field with EXPC and EXPI: when equal the value goes to `S[SLOT]` and the sequencer moves on; when not
the decode ends with TYPE_MISMATCH at this entry, BUF and every register but STATUS and CUR stay, and of the struct the
slots the descriptor does not name (60 R124; what the named slots then hold is free, notes/assumptions/8). -/
def Obligations.TagsAreCheckedOnDecodeAlone : Prop :=
  ∀ (wm1 slot : BitVec 6) (v : Slot) (i : Instr) (expected : Byte) (s : State),
    (i = .tagc wm1 slot ∧ expected = s.expClass) ∨ (i = .tagi wm1 slot ∧ expected = s.expId) →
    ChecksCapacity i (wm1.toNat + 1) s ∧
    (s.cur.toNat + (wm1.toNat + 1) ≤ s.capBits →
      (s.dir = .enc → s.mem.slot? slot.toNat = some v → Answers (exec i s) fun t =>
        FieldHolds t.mem s.cur.toNat (wm1.toNat + 1) v ∧
        SameOutside s.mem t.mem s.cur.toNat (s.cur.toNat + (wm1.toNat + 1)) ∧ t.mem.slots = s.mem.slots ∧
        t.cur.toNat = s.cur.toNat + (wm1.toNat + 1) ∧
        t = { s with mem := t.mem, cur := t.cur, dix := s.dix + 1 }) ∧
      (s.dir = .dec → v.toNat < 2 ^ (wm1.toNat + 1) → FieldHolds s.mem s.cur.toNat (wm1.toNat + 1) v →
        v.toNat = expected.toNat → Answers (exec i s) fun t =>
          t.mem.slot? slot.toNat = some v ∧ (∀ b ≠ slot.toNat, t.mem.slot? b = s.mem.slot? b) ∧
          SameBuffer s.mem t.mem ∧ t.cur.toNat = s.cur.toNat + (wm1.toNat + 1) ∧
          t = { s with mem := t.mem, cur := t.cur, dix := s.dix + 1 }) ∧
      (s.dir = .dec → v.toNat < 2 ^ (wm1.toNat + 1) → FieldHolds s.mem s.cur.toNat (wm1.toNat + 1) v →
        v.toNat ≠ expected.toNat → Answers (exec i s) fun t =>
          t.status = .typeMismatch ∧ t.running = false ∧ SameBuffer s.mem t.mem ∧
          (∀ b, b ∉ namedSlots s.descriptor s.params.maxsat.toNat → t.mem.slot? b = s.mem.slot? b) ∧
          t = { s with
            mem := t.mem, status := t.status, running := t.running, cur := t.cur, freeCount := t.freeCount }))

/-- 41 R88: CNTF checks the capacity. On encode it puts the low `W` bits of `S[SLOT]` and latches the whole slot in CNT;
on decode it sets `S[SLOT]` and CNT to its field, zero-extended. It moves on and changes nothing else. -/
def Obligations.CntfLatchesTheCount : Prop :=
  ∀ (wm1 slot : BitVec 6) (v : Slot) (s : State),
    ChecksCapacity (.cntf wm1 slot) (wm1.toNat + 1) s ∧
    (s.cur.toNat + (wm1.toNat + 1) ≤ s.capBits →
      (s.dir = .enc → s.mem.slot? slot.toNat = some v → Answers (exec (.cntf wm1 slot) s) fun t =>
        FieldHolds t.mem s.cur.toNat (wm1.toNat + 1) v ∧
        SameOutside s.mem t.mem s.cur.toNat (s.cur.toNat + (wm1.toNat + 1)) ∧ t.mem.slots = s.mem.slots ∧
        t.cur.toNat = s.cur.toNat + (wm1.toNat + 1) ∧
        t = { s with mem := t.mem, cur := t.cur, dix := s.dix + 1, cnt := v }) ∧
      (s.dir = .dec → v.toNat < 2 ^ (wm1.toNat + 1) → FieldHolds s.mem s.cur.toNat (wm1.toNat + 1) v →
        Answers (exec (.cntf wm1 slot) s) fun t =>
          t.mem.slot? slot.toNat = some v ∧ (∀ b ≠ slot.toNat, t.mem.slot? b = s.mem.slot? b) ∧
          SameBuffer s.mem t.mem ∧ t.cur.toNat = s.cur.toNat + (wm1.toNat + 1) ∧
          t = { s with mem := t.mem, cur := t.cur, dix := s.dix + 1, cnt := v }))

/-- 41 R89: REPB with a count above MAXSAT raises COUNT on encode and ends a decode with INVALID_MESSAGE; with a count of
0 it goes to the entry after REPE; else it enters the block at record 0. -/
def Obligations.RepbTestsTheCount : Prop :=
  ∀ s : State,
    (s.params.maxsat.toNat < s.cnt.toNat → s.dir = .enc →
      exec .repb s = .next { s with fault := s.fault ||| 0x8, running := false }) ∧
    (s.params.maxsat.toNat < s.cnt.toNat → s.dir = .dec → Answers (exec .repb s) fun t =>
      t.status = .invalidMessage ∧ t.running = false ∧ SameBuffer s.mem t.mem ∧
      (∀ b, b ∉ namedSlots s.descriptor s.params.maxsat.toNat → t.mem.slot? b = s.mem.slot? b) ∧
      t = { s with mem := t.mem, status := t.status, running := t.running, freeCount := t.freeCount }) ∧
    (s.cnt = 0 → ∀ k, s.words[k]? = some 0xE000 → (∀ j < k, s.words[j]? ≠ some 0xE000) →
      exec .repb s = .next { s with recIx := 0, rpt := s.dix + 1, dix := BitVec.ofNat 6 (k + 1) }) ∧
    (s.cnt ≠ 0 → s.cnt.toNat ≤ s.params.maxsat.toNat →
      exec .repb s = .next { s with recIx := 0, rpt := s.dix + 1, inrep := true, dix := s.dix + 1 })

/-- 41 R90: REPE goes on with the next record at RPT while REC + 1 < CNT, and else leaves the block. -/
def Obligations.RepeLoopsOrLeaves : Prop :=
  ∀ s : State,
    (s.recIx.toNat + 1 < s.cnt.toNat →
      exec .repe s = .next { s with recIx := s.recIx + 1, dix := s.rpt }) ∧
    (s.cnt.toNat ≤ s.recIx.toNat + 1 →
      exec .repe s = .next { s with recIx := 0, inrep := false, dix := s.dix + 1 })

/-- 41 R93: the only changes of DIX other than `+1` are REPB with a count of 0, to after REPE, REPE with a record left, to
RPT, and the exits, which leave it; and the host cannot set it but by starting a command or by reset. -/
def Obligations.DixMovesByOne : Prop :=
  (∀ (s t : State) (i : Instr), i.isCommand = false → exec i s = .next t →
    t.dix = s.dix + 1 ∨
    (i = .repb ∧ s.cnt = 0 ∧ ∃ k, s.words[k]? = some 0xE000 ∧ t.dix = BitVec.ofNat 6 (k + 1)) ∨
    (i = .repe ∧ s.recIx.toNat + 1 < s.cnt.toNat ∧ t.dix = s.rpt) ∨
    (t.running = false ∧ t.dix = s.dix)) ∧
  (∀ (s t : State) (a : HostAction) (rest : List HostAction), s.running = false → s.pending = a :: rest →
    step s = .next t → a ≠ .reset →
    (∀ w i, a = .command w → i ∈ [Instr.encRawx, .decRawx, .encEph, .decEph] → decodeCommand w ≠ .ok i) →
    t.dix = s.dix)

/-- The stops of the entries (10 R12, R24): an encode of a slot nothing has written, a decode of a field with an
unwritten bit, an FLD whose slot does not exist (notes/assumptions/7, 9). -/
def Obligations.EntriesStopWhereNoValueIs : Prop :=
  ∀ (sgn : Bool) (wm1 slot : BitVec 6) (s : State), s.cur.toNat + (wm1.toNat + 1) ≤ s.capBits →
    (s.dir = .enc → ∀ a, NamesSlot s slot a → s.mem.slot? a = none →
      exec (.fld sgn wm1 slot) s = .fault (.unwrittenSlot a)) ∧
    (s.dir = .enc → s.mem.slot? slot.toNat = none →
      ∀ i ∈ [Instr.tagc wm1 slot, .tagi wm1 slot, .cntf wm1 slot],
        exec i s = .fault (.unwrittenSlot slot.toNat)) ∧
    (s.dir = .dec → ∀ k < wm1.toNat + 1, BitsWritten s.mem s.cur.toNat (s.cur.toNat + k) →
      s.mem.bit? (s.cur.toNat + k) = none →
      (∀ i ∈ [Instr.tagc wm1 slot, .tagi wm1 slot, .cntf wm1 slot],
        exec i s = .fault (.unwrittenBit (s.cur.toNat + k))) ∧
      ((∃ a, NamesSlot s slot a) → exec (.fld sgn wm1 slot) s = .fault (.unwrittenBit (s.cur.toNat + k)))) ∧
    (s.inrep = true → (16 ≤ slot.toNat ∨ s.params.maxsat.toNat ≤ s.recIx.toNat) →
      exec (.fld sgn wm1 slot) s = .fault (.noSuchSlot (64 + 16 * s.recIx.toNat + slot.toNat)))

/-! ### The message commands (spec/42_message_codecs.md) -/

/-- 42 R100, R104: ENC_RAWX of `n = S[5] <= MAXSAT` records writes the wire layout of R104, every field the low bits of
its slot and every reserved bit 0, sets BITS to `140 + 256*n`, and changes no other bit of BUF, no slot and no other
register the host sees. -/
def Obligations.EncRawxWritesTheMessage : Prop :=
  ∀ (s : State) (n : Slot),
    s.fault = 0 → s.mem.slot? 5 = some n → n.toNat ≤ s.params.maxsat.toNat →
    RawxStructWritten s.mem n.toNat → 140 + 256 * n.toNat ≤ s.capBits →
    Answers (exec .encRawx s) fun t =>
      t.bits.toNat = 140 + 256 * n.toNat ∧
      (∀ f ∈ rawxHeader, ∀ v, s.mem.slot? f.slot = some v → FieldHolds t.mem f.bit f.width v) ∧
      FieldHolds t.mem 136 4 0 ∧
      (∀ i < n.toNat,
        (∀ f ∈ rawxRecord, ∀ v, s.mem.slot? (recordAddress i f.slot) = some v →
          FieldHolds t.mem (recordBit i + f.bit) f.width v) ∧
        FieldHolds t.mem (recordBit i + 248) 8 0) ∧
      SameOutside s.mem t.mem 0 (140 + 256 * n.toNat) ∧ t.mem.slots = s.mem.slots ∧
      t = { s.sequencedAs t with mem := t.mem, bits := t.bits } ∧ t.running = false

/-- 42 R101, R104: DEC_RAWX of a message whose class and id match, whose count byte `n` is at most MAXSAT, that fits the
capacity and whose fields hold values (its reserved bits need not) ends with OK: every named slot holds the extension of
its field, every other slot, BUF and every other register the host sees stay. -/
def Obligations.DecRawxReadsTheMessage : Prop :=
  ∀ (s : State) (n : Nat),
    s.fault = 0 → FieldHolds s.mem 0 8 (s.params.rawxClass.setWidth 64) →
    FieldHolds s.mem 8 8 (s.params.rawxId.setWidth 64) → FieldHolds s.mem 112 8 (BitVec.ofNat 64 n) →
    n ≤ s.params.maxsat.toNat → 140 + 256 * n ≤ s.capBits →
    (∀ f ∈ rawxHeader, BitsWritten s.mem f.bit (f.bit + f.width)) →
    (∀ i < n, ∀ f ∈ rawxRecord, BitsWritten s.mem (recordBit i + f.bit) (recordBit i + f.bit + f.width)) →
    Answers (exec .decRawx s) fun t =>
      t.status = .ok ∧
      (∀ f ∈ rawxHeader, SlotDecodes s.mem t.mem f.bit f.width f.signed f.slot) ∧
      (∀ i < n, ∀ f ∈ rawxRecord,
        SlotDecodes s.mem t.mem (recordBit i + f.bit) f.width f.signed (recordAddress i f.slot)) ∧
      (∀ a, 8 ≤ a → (∀ i < n, ∀ j < 13, a ≠ recordAddress i j) → t.mem.slot? a = s.mem.slot? a) ∧
      SameBuffer s.mem t.mem ∧ t = { s.sequencedAs t with mem := t.mem, status := t.status } ∧ t.running = false

/-- 42 R102, R107: ENC_EPH over any EPH_LAYOUT that 30 R55 admits writes every field, the low bits of its slot or zeros
for the reserved one, at the sum of the widths before it, sets BITS to the total width, and changes nothing else the
host sees. -/
def Obligations.EncEphWritesTheMessage : Prop :=
  ∀ (s : State) (d : Descriptor),
    s.fault = 0 → s.params.ok = true → decodeLayout s.params.ephLayout = some d →
    (∀ i ∈ d, ∀ a, i.slot? = some a → (s.mem.slot? a).isSome) → Descriptor.totalWidth d ≤ s.capBits →
    Answers (exec .encEph s) fun t =>
      t.bits.toNat = Descriptor.totalWidth d ∧
      (∀ p ∈ placed 0 d,
        (∀ a v, p.2.slot? = some a → s.mem.slot? a = some v → FieldHolds t.mem p.1 p.2.width v) ∧
        (p.2.slot? = none → FieldHolds t.mem p.1 p.2.width 0)) ∧
      SameOutside s.mem t.mem 0 (Descriptor.totalWidth d) ∧ t.mem.slots = s.mem.slots ∧
      t = { s.sequencedAs t with mem := t.mem, bits := t.bits } ∧ t.running = false

/-- 42 R103, R107: DEC_EPH over any EPH_LAYOUT that 30 R55 admits, of a message that begins 13 00, fits the capacity and
whose fields hold values (its reserved bits need not), ends with OK: every slot the layout names holds the extension of
its field and nothing else the host sees changes but STATUS. -/
def Obligations.DecEphReadsTheMessage : Prop :=
  ∀ (s : State) (d : Descriptor),
    s.fault = 0 → s.params.ok = true → decodeLayout s.params.ephLayout = some d →
    FieldHolds s.mem 0 8 0x13 → FieldHolds s.mem 8 8 0x00 → Descriptor.totalWidth d ≤ s.capBits →
    (∀ p ∈ placed 0 d, p.2.slot?.isSome → BitsWritten s.mem p.1 (p.1 + p.2.width)) →
    Answers (exec .decEph s) fun t =>
      t.status = .ok ∧
      (∀ p ∈ placed 0 d, ∀ a, p.2.slot? = some a → SlotDecodes s.mem t.mem p.1 p.2.width p.2.isSigned a) ∧
      (∀ a, (∀ i ∈ d, i.slot? ≠ some a) → t.mem.slot? a = s.mem.slot? a) ∧
      SameBuffer s.mem t.mem ∧ t = { s.sequencedAs t with mem := t.mem, status := t.status } ∧ t.running = false

/-- 60 R129: ENC_RAWX with `S[5] > MAXSAT`, the 140 header bits fitting, raises COUNT with the header written and no bit
behind it, BITS unchanged. -/
def Obligations.EncRawxCountFault : Prop :=
  ∀ (s : State) (n : Slot),
    s.fault = 0 → s.mem.slot? 5 = some n → s.params.maxsat.toNat < n.toNat →
    (∀ k < 8, (s.mem.slot? k).isSome) → 140 ≤ s.capBits →
    Answers (exec .encRawx s) fun t =>
      t.fault = 0x8 ∧
      (∀ f ∈ rawxHeader, ∀ v, s.mem.slot? f.slot = some v → FieldHolds t.mem f.bit f.width v) ∧
      FieldHolds t.mem 136 4 0 ∧ SameOutside s.mem t.mem 0 140 ∧ t.mem.slots = s.mem.slots ∧
      t = { s.sequencedAs t with mem := t.mem, fault := t.fault } ∧ t.running = false

/-- 41 R91, 60 R127, R130: a message command whose message is longer than the declared capacity raises BOUNDS, and FAULT is
then the only register the host sees that has changed and no bit at or past the capacity is written. ENC_RAWX: fewer than
140 bits, whatever the count, or a count of at most MAXSAT whose records do not fit; the struct stays. DEC_RAWX: the same,
with the tags that fit matching; BUF and the slots the descriptor does not name stay. ENC_EPH and DEC_EPH: the layout does
not fit. Only what fits the capacity is read, so only that need hold values in the buffer. -/
def Obligations.LongMessagesRaiseBounds : Prop :=
  ∀ s : State, s.fault = 0 →
    ((∀ k < 8, (s.mem.slot? k).isSome) →
      (s.capBits < 140 ∨ ∃ n : Slot, s.mem.slot? 5 = some n ∧ n.toNat ≤ s.params.maxsat.toNat ∧
        RawxStructWritten s.mem n.toNat ∧ s.capBits < 140 + 256 * n.toNat) →
      Answers (exec .encRawx s) fun t => StoppedByBounds s t ∧ t.mem.slots = s.mem.slots) ∧
    ((8 ≤ s.capBits → FieldHolds s.mem 0 8 (s.params.rawxClass.setWidth 64)) →
      (16 ≤ s.capBits → FieldHolds s.mem 8 8 (s.params.rawxId.setWidth 64)) →
      (∀ f ∈ rawxHeader, f.bit + f.width ≤ s.capBits → BitsWritten s.mem f.bit (f.bit + f.width)) →
      (s.capBits < 140 ∨ ∃ n ≤ s.params.maxsat.toNat, FieldHolds s.mem 112 8 (BitVec.ofNat 64 n) ∧
        s.capBits < 140 + 256 * n ∧
        ∀ i < n, ∀ f ∈ rawxRecord, recordBit i + f.bit + f.width ≤ s.capBits →
          BitsWritten s.mem (recordBit i + f.bit) (recordBit i + f.bit + f.width)) →
      Answers (exec .decRawx s) fun t => StoppedByBounds s t ∧ SameBuffer s.mem t.mem ∧
        ∀ a, 8 ≤ a → (∀ i < s.params.maxsat.toNat, ∀ j < 13, a ≠ recordAddress i j) → t.mem.slot? a = s.mem.slot? a) ∧
    (s.params.ok = true → ∀ d, decodeLayout s.params.ephLayout = some d → s.capBits < Descriptor.totalWidth d →
      ((∀ i ∈ d, ∀ a, i.slot? = some a → (s.mem.slot? a).isSome) →
        Answers (exec .encEph s) fun t => StoppedByBounds s t ∧ t.mem.slots = s.mem.slots) ∧
      ((8 ≤ s.capBits → FieldHolds s.mem 0 8 0x13) → (16 ≤ s.capBits → FieldHolds s.mem 8 8 0x00) →
        (∀ p ∈ placed 0 d, p.2.slot?.isSome → p.1 + p.2.width ≤ s.capBits →
          BitsWritten s.mem p.1 (p.1 + p.2.width)) →
        Answers (exec .decEph s) fun t => StoppedByBounds s t ∧ SameBuffer s.mem t.mem ∧
          ∀ a, (∀ i ∈ d, i.slot? ≠ some a) → t.mem.slot? a = s.mem.slot? a))

/-- 42 R109: when `CAP >= 2` and the first two bytes are not the expected class and id, a decode ends with TYPE_MISMATCH
and no fault, whatever the rest of the buffer holds. With `CAP = 1` a wrong class byte does the same and a right one
faults with BOUNDS; with `CAP = 0` every decode faults with BOUNDS. -/
def Obligations.WrongFirstBytesGiveTypeMismatch : Prop :=
  ∀ (s : State) (i : Instr) (cls idn : Byte),
    (i = .decRawx ∧ cls = s.params.rawxClass ∧ idn = s.params.rawxId) ∨
      (i = .decEph ∧ s.params.ok = true ∧ cls = 0x13 ∧ idn = 0x00) →
    s.fault = 0 →
    (∀ c d, 2 ≤ s.cap.toNat → s.mem.readByte 0 = some c → s.mem.readByte 1 = some d → (c ≠ cls ∨ d ≠ idn) →
      Answers (exec i s) fun t => t.status = .typeMismatch ∧ t.fault = 0) ∧
    (∀ c, s.cap = 1 → s.mem.readByte 0 = some c →
      (c ≠ cls → Answers (exec i s) fun t => t.status = .typeMismatch ∧ t.fault = 0) ∧
      (c = cls → Answers (exec i s) fun t => t.fault = 0x2 ∧ t.status = s.status)) ∧
    (s.cap = 0 → Answers (exec i s) fun t => t.fault = 0x2 ∧ t.status = s.status)

/-- 60 R122: a decode ends with TYPE_MISMATCH only where the class byte differs from the expected one, or it does not and
the id byte does; no command but DEC_RAWX and DEC_EPH changes STATUS. (That it then always does is
WrongFirstBytesGiveTypeMismatch.) -/
def Obligations.TypeMismatchIsDecidedByTheTags : Prop :=
  (∀ (s t : State) (i : Instr) (cls idn : Byte),
    (i = .decRawx ∧ cls = s.params.rawxClass ∧ idn = s.params.rawxId) ∨ (i = .decEph ∧ cls = 0x13 ∧ idn = 0x00) →
    s.fault = 0 → exec i s = .next t → t.fault = 0 → t.status = .typeMismatch →
    ∃ c : Byte, s.mem.readByte 0 = some c ∧ (c ≠ cls ∨ ∃ d : Byte, s.mem.readByte 1 = some d ∧ d ≠ idn)) ∧
  (∀ (s t : State) (i : Instr), i.isCommand = true → i ≠ .decRawx → i ≠ .decEph → exec i s = .next t →
    t.status = s.status)

/-- 42 R110: with matching first bytes and room for MAXSAT records, a count byte of MAXSAT gives OK and one of MAXSAT + 1,
where a byte can hold it, INVALID_MESSAGE. -/
def Obligations.CountBoundaryIsMaxsat : Prop :=
  ∀ s : State, s.fault = 0 → FieldHolds s.mem 0 8 (s.params.rawxClass.setWidth 64) →
    FieldHolds s.mem 8 8 (s.params.rawxId.setWidth 64) → 140 + 256 * s.params.maxsat.toNat ≤ s.capBits →
    BitsWritten s.mem 0 (140 + 256 * s.params.maxsat.toNat) →
    (FieldHolds s.mem 112 8 (s.params.maxsat.setWidth 64) → Answers (exec .decRawx s) fun t => t.status = .ok) ∧
    (s.params.maxsat.toNat < 255 → FieldHolds s.mem 112 8 (BitVec.ofNat 64 (s.params.maxsat.toNat + 1)) →
      Answers (exec .decRawx s) fun t => t.status = .invalidMessage)

/-- 60 R123: DEC_RAWX whose first two bytes match ends with INVALID_MESSAGE and no fault when the 140 header bits fit and
the count byte is above MAXSAT; when they do not fit BOUNDS is raised first. Conversely a DEC_RAWX that ends with
INVALID_MESSAGE and no fault had matching first bytes, 140 bits that fit and a count byte above MAXSAT, and no other
command ends with it: DEC_EPH answers a state with that status only where it leaves the old one. -/
def Obligations.CountAboveCapacityIsInvalid : Prop :=
  (∀ (s : State) (n : Nat),
    s.fault = 0 → FieldHolds s.mem 0 8 (s.params.rawxClass.setWidth 64) →
    FieldHolds s.mem 8 8 (s.params.rawxId.setWidth 64) → FieldHolds s.mem 112 8 (BitVec.ofNat 64 n) →
    n < 256 → s.params.maxsat.toNat < n →
    (∀ f ∈ rawxHeader, BitsWritten s.mem f.bit (f.bit + f.width)) →
    (140 ≤ s.capBits → Answers (exec .decRawx s) fun t => t.status = .invalidMessage ∧ t.fault = 0) ∧
    (s.capBits < 140 → Answers (exec .decRawx s) fun t => t.status = s.status ∧ t.fault = 0x2)) ∧
  (∀ s t : State, s.fault = 0 → exec .decRawx s = .next t → t.fault = 0 → t.status = .invalidMessage →
    s.mem.readByte 0 = some s.params.rawxClass ∧ s.mem.readByte 1 = some s.params.rawxId ∧ 140 ≤ s.capBits ∧
    ∃ c : Byte, s.mem.readByte 14 = some c ∧ s.params.maxsat.toNat < c.toNat) ∧
  (∀ s t : State, exec .decEph s = .next t → t.status = .invalidMessage → s.status = .invalidMessage ∧ t.fault ≠ 0) ∧
  (∀ (s t : State) (i : Instr), i.isCommand = true → i ≠ .decRawx → i ≠ .decEph → exec i s = .next t →
    t.status = s.status)

/-- 60 R124: after a decode that ended with a status other than OK, BUF, BITS, RES, CAP and FAULT are unchanged and so is
every slot the descriptor does not name. What the named slots hold is free: nothing is said of it. -/
def Obligations.FailedDecodeKeepsTheRest : Prop :=
  ∀ (s t : State),
    (exec .decRawx s = .next t → s.fault = 0 → t.fault = 0 → t.status ≠ .ok →
      SameBuffer s.mem t.mem ∧
      (∀ a, 8 ≤ a → (∀ i < s.params.maxsat.toNat, ∀ j < 13, a ≠ recordAddress i j) → t.mem.slot? a = s.mem.slot? a) ∧
      t = { s.sequencedAs t with mem := t.mem, status := t.status, freeCount := t.freeCount }) ∧
    (∀ d, exec .decEph s = .next t → s.fault = 0 → t.fault = 0 → t.status ≠ .ok →
      decodeLayout s.params.ephLayout = some d →
      SameBuffer s.mem t.mem ∧ (∀ a, (∀ i ∈ d, i.slot? ≠ some a) → t.mem.slot? a = s.mem.slot? a) ∧
      t = { s.sequencedAs t with mem := t.mem, status := t.status, freeCount := t.freeCount })

/-- 42 R108: a RAWX struct in canonical form, encoded without fault and decoded from the same buffer, comes back slot for
slot with status OK. -/
def Obligations.RawxRoundTrip : Prop :=
  ∀ (s t : State) (n : Slot),
    s.fault = 0 → s.mem.slot? 5 = some n → n.toNat ≤ s.params.maxsat.toNat →
    s.mem.slot? 0 = some (s.params.rawxClass.setWidth 64) → s.mem.slot? 1 = some (s.params.rawxId.setWidth 64) →
    (∀ f ∈ rawxHeader, ∃ v, s.mem.slot? f.slot = some v ∧ Canonical f.width f.signed v) →
    (∀ i < n.toNat, ∀ f ∈ rawxRecord,
      ∃ v, s.mem.slot? (recordAddress i f.slot) = some v ∧ Canonical f.width f.signed v) →
    exec .encRawx s = .next t → t.fault = 0 →
    Answers (exec .decRawx t) fun u =>
      u.status = .ok ∧ u.fault = 0 ∧ u.bits = t.bits ∧ (∀ a, u.mem.slot? a = s.mem.slot? a)

/-- 42 R108: the same of an ephemeris struct, over any EPH_LAYOUT that 30 R55 admits. -/
def Obligations.EphRoundTrip : Prop :=
  ∀ (s t : State) (d : Descriptor),
    s.fault = 0 → s.params.ok = true → decodeLayout s.params.ephLayout = some d →
    (∀ i ∈ d, ∀ a, i.slot? = some a → ∃ v, s.mem.slot? a = some v ∧ Canonical i.width i.isSigned v) →
    (∀ w a, Instr.tagc w a ∈ d → s.mem.slot? a.toNat = some 0x13) →
    (∀ w a, Instr.tagi w a ∈ d → s.mem.slot? a.toNat = some 0x00) →
    exec .encEph s = .next t → t.fault = 0 →
    Answers (exec .decEph t) fun u =>
      u.status = .ok ∧ u.fault = 0 ∧ u.bits = t.bits ∧ (∀ a, u.mem.slot? a = s.mem.slot? a)

/-- 41 R92, 30 R52: no command of a block with an admissible EPH_LAYOUT is refused: ENC and DEC end within the bound of
R92 and never meet a malformed entry. -/
def Obligations.CommandsAreNeverRefused : Prop :=
  ∀ (s : State) (i : Instr) (r : Refusal), s.params.ok = true → i.isCommand = true → exec i s ≠ .refused r

/-- 30 R52, 93 U11: an EPH command of a block whose EPH_LAYOUT 30 R55 does not admit is refused, unless the block is
halted, and neither RAWX command is. -/
def Obligations.InadmissibleLayoutIsRefused : Prop :=
  ∀ s : State, s.params.ok = false → s.fault = 0 →
    exec .encEph s = .refused .malformedDescriptor ∧ exec .decEph s = .refused .malformedDescriptor ∧
    (∀ r, exec .encRawx s ≠ .refused r) ∧ (∀ r, exec .decRawx s ≠ .refused r)

/-- 41 R81, R92, 00 R5: a message command answers what its micro-steps answer one after the other from the command's
start, each of them one step of the machine (notes/assumptions/3 and 5: the model's choice); there are at most as many of
them as R92 allows, in the reading of notes/assumptions/12, and they end the command. -/
def Obligations.CommandIsItsMicroSteps : Prop :=
  ∀ (s : State) (mt : MsgType) (dir : Direction) (i : Instr), Runs i mt dir → s.fault = 0 → s.params.ok = true →
    (∃ k ≤ microBound (startCommand mt dir s).descriptor s.params.maxsat.toNat,
      core.run k (startCommand mt dir s) = exec i s) ∧
    (∀ t, exec i s = .next t → t.running = false) ∧ ∀ r, exec i s ≠ .refused r

/-- 10 R23: no message command's result depends on the sequencer registers the command before it left. -/
def Obligations.ResultIgnoresOldSequencer : Prop :=
  ∀ (s u : State), ∀ i ∈ [Instr.encRawx, .decRawx, .encEph, .decEph],
    s.fault = 0 → exec i (s.sequencedAs u) = exec i s

/-! ### Faults, status and the halted state (spec/60_exceptions.md) -/

/-- 30 R57, 60 R128: an illegal command word, one whose OP is unassigned, whose ZERO field is not 0 or which has a
non-zero unused field, raises ILLEGAL and changes nothing else. -/
def Obligations.IllegalWordRaisesIllegal : Prop :=
  ∀ (s : State) (w : CommandWord) (rest : List HostAction),
    s.pending = .command w :: rest → s.running = false → s.fault = 0 →
    ((w.extractLsb' 124 4).toNat ∈ [0x0, 0x5, 0x6, 0x7, 0xC, 0xD, 0xE, 0xF] ∨ w.extractLsb' 104 20 ≠ 0 ∨
      ((w.extractLsb' 124 4).toNat ∈ [0x3, 0x4] ∧ w.extractLsb' 0 64 ≠ 0) ∨
      ((w.extractLsb' 124 4).toNat ∈ [0x8, 0x9, 0xA, 0xB] ∧ w.extractLsb' 0 104 ≠ 0)) →
    step s = .next { s with pending := rest, fault := 0x4 }

/-- 60 R132: while FAULT is not 0 every command word, legal or not, is ignored, the host's writes of CAP, BUF and FLD land
as ever, and nothing but a reset changes FAULT; a reset clears it. -/
def Obligations.HaltedBlockIgnoresCommands : Prop :=
  ∀ (s : State), s.fault ≠ 0 →
    (∀ i : Instr, i.isCommand = true → exec i s = .next s) ∧
    (∀ w rest, s.pending = .command w :: rest → step s = .next { s with pending := rest }) ∧
    (∀ v rest, s.pending = .writeReg 0 v :: rest →
      step s = .next { s with pending := rest, cap := v.extractLsb' 0 29 }) ∧
    (∀ a b rest, s.pending = .writeBuf a b :: rest → a < s.cap.toNat → Answers (step s) fun t =>
      t.mem.readByte a = some b ∧ t = { s with pending := rest, mem := t.mem }) ∧
    (∀ a v rest, s.pending = .writeFld a v :: rest → a < 64 + 16 * s.params.maxsat.toNat → Answers (step s) fun t =>
      t.mem.slot? a = some v ∧ t = { s with pending := rest, mem := t.mem }) ∧
    (∀ t, step s = .next t → (∀ rest, s.pending ≠ .reset :: rest) → t.fault = s.fault) ∧
    (∀ rest, s.pending = .reset :: rest → Answers (step s) fun t => t.fault = 0)

/-- 60 R131: raising a fault sets one bit of FAULT and ends the command; the micro-step that raises it has no other
effect, and every micro-step before it has had its full effect; STATUS, BITS and RES keep the values they had before the
command. -/
def Obligations.FaultEntryIsPrecise : Prop :=
  (∀ (s t : State) (i : Instr), i ∉ [Instr.encRawx, .decRawx, .encEph, .decEph] → exec i s = .next t →
    t.fault ≠ s.fault → ∃ c : Cause, t = { s with fault := s.fault ||| c.mask, running := false }) ∧
  (∀ (s t : State) (mt : MsgType) (dir : Direction) (i : Instr), Runs i mt dir → s.fault = 0 →
    exec i s = .next t → t.fault ≠ 0 →
    ∃ k u, core.run k (startCommand mt dir s) = .next u ∧ u.running = true ∧ u.fault = 0 ∧
      ∃ c : Cause, t = { u with fault := c.mask, running := false }) ∧
  (∀ (s t : State) (i : Instr), i.isCommand = true → exec i s = .next t → t.fault ≠ 0 →
    t.status = s.status ∧ t.bits = s.bits ∧ t.res = s.res)

/-- 60 R126: a primitive whose LEN is 0 or 65..255 raises WIDTH before any access and changes nothing else; a message
command never raises WIDTH. -/
def Obligations.WidthIsRaisedByPrimitivesAlone : Prop :=
  (∀ (pos : BitVec 32) (len : BitVec 8) (val : Slot) (s : State), s.fault = 0 → (len = 0 ∨ 65 ≤ len.toNat) →
    ∀ i ∈ [Instr.setu pos len val, .sets pos len val, .getu pos len, .gets pos len],
      exec i s = .next { s with fault := 0x1, running := false }) ∧
  (∀ (s t : State), ∀ i ∈ [Instr.encRawx, .decRawx, .encEph, .decEph],
    exec i s = .next t → t.fault.getLsbD 0 = s.fault.getLsbD 0)

/-- 10 R15, R17, R18, R20, R21: no instruction writes CAP or the parameters; RES is written only by GETU and GETS, STATUS
only by DEC_RAWX, DEC_EPH and by END, TAGC, TAGI and REPB on decode, BITS only by ENC_RAWX, ENC_EPH and by END on
encode. -/
def Obligations.ResultRegistersHaveTheirWriters : Prop :=
  ∀ (s t : State) (i : Instr), exec i s = .next t →
    SameHostSide s t ∧
    (t.res ≠ s.res → ∃ pos len, i = .getu pos len ∨ i = .gets pos len) ∧
    (t.status ≠ s.status → i = .decRawx ∨ i = .decEph ∨
      (s.dir = .dec ∧ (i = .endDesc ∨ i = .repb ∨ ∃ w a, i = .tagc w a ∨ i = .tagi w a))) ∧
    (t.bits ≠ s.bits → i = .encRawx ∨ i = .encEph ∨ (s.dir = .enc ∧ i = .endDesc))

/-- 20 R37: a command that reads leaves BUF as it is, a command that writes BUF leaves FLD as it is, and repeating a
writing command leaves the same BUF. -/
def Obligations.ReadersKeepBufferWritersKeepStruct : Prop :=
  ∀ (s t : State) (i : Instr), exec i s = .next t →
    ((∃ pos len, i = .getu pos len ∨ i = .gets pos len) ∨ i = .decRawx ∨ i = .decEph → SameBuffer s.mem t.mem) ∧
    ((∃ pos len v, i = .setu pos len v ∨ i = .sets pos len v) ∨ i = .encRawx ∨ i = .encEph →
      t.mem.slots = s.mem.slots ∧ Answers (exec i t) fun u => ∀ q, u.mem.bit? q = t.mem.bit? q)

/-- 20 R36, 10 R11: no instruction changes a bit at or past the declared capacity. -/
def Obligations.NothingPastTheCapacityChanges : Prop :=
  ∀ (s t : State) (i : Instr), exec i s = .next t → SameOutside s.mem t.mem 0 s.capBits

/-! ### The machine (spec/70_reset_and_hazards.md, spec/10_state.md) -/

/-- 70 R140: reset sets every block register to 0, leaves BUF and FLD and is the only way to clear FAULT. -/
def Obligations.ResetClearsTheRegisters : Prop :=
  (∀ (s : State) (rest : List HostAction), s.pending = .reset :: rest → s.running = false →
    Answers (step s) fun t =>
      (∀ addr, readReg t addr = 0) ∧ t.mem = s.mem ∧ t.params = s.params ∧ t.pending = rest ∧
      t.mt = .rawx ∧ t.dir = .enc ∧ t.dix = 0 ∧ t.cur = 0 ∧ t.recIx = 0 ∧ t.cnt = 0 ∧ t.inrep = false ∧ t.rpt = 0 ∧
      t.running = false) ∧
  (∀ s t : State, step s = .next t → (∀ rest, s.pending ≠ .reset :: rest) → s.fault &&& t.fault = s.fault)

/-- 70 R141: with nothing to do the block waits; with `CAP = 0`, as after reset, every primitive of legal width and every
message command faults with BOUNDS and touches neither memory. -/
def Obligations.ZeroCapacityFaults : Prop :=
  (∀ s : State, s.running = false → s.pending = [] → step s = .next s) ∧
  State.reset.cap = 0 ∧ State.reset.fault = 0 ∧
  (∀ s : State, s.fault = 0 → s.cap = 0 →
    (∀ (pos : BitVec 32) (len : BitVec 8) (val : Slot), 1 ≤ len.toNat → len.toNat ≤ 64 →
      ∀ i ∈ [Instr.setu pos len val, .sets pos len val, .getu pos len, .gets pos len],
        exec i s = .next { s with fault := 0x2, running := false }) ∧
    (s.params.ok = true → ∀ i ∈ [Instr.encRawx, .decRawx, .encEph, .decEph], Answers (exec i s) fun t =>
      t.fault = 0x2 ∧ t = { s.sequencedAs t with fault := t.fault } ∧ t.running = false))

/-- 10 R22: what each address of the register port reads; a host write reaches CAP alone, its low 29 bits; every other
register ignores it; addresses 5 and above read 0; all of them read 0 after reset. -/
def Obligations.RegisterPortReachesCapAlone : Prop :=
  (∀ s : State,
    readReg s 0 = BitVec.ofNat 64 s.cap.toNat ∧
    readReg s 1 = (match s.status with | .ok => 0 | .typeMismatch => 1 | .invalidMessage => 2) ∧
    readReg s 2 = BitVec.ofNat 64 s.bits.toNat ∧ readReg s 3 = s.res ∧ readReg s 4 = BitVec.ofNat 64 s.fault.toNat ∧
    ∀ a, 5 ≤ a → readReg s a = 0) ∧
  (∀ (s : State) (addr : Nat) (v : BitVec 64) (rest : List HostAction),
    s.pending = .writeReg addr v :: rest → s.running = false →
    Answers (step s) fun t =>
      (addr = 0 → readReg t 0 = BitVec.ofNat 64 (v.toNat % 2 ^ 29) ∧ t = { s with pending := rest, cap := t.cap }) ∧
      (addr ≠ 0 → t = { s with pending := rest })) ∧
  ∀ addr, readReg State.reset addr = 0

/-- 10 R11, R12, 60 R132: the host's writes of BUF and FLD, halted or not, land in their byte and their slot and nowhere
else (a byte at or past CAP too: the model's choice, notes/assumptions/10). -/
def Obligations.HostWritesLand : Prop :=
  ∀ (s : State) (a : Nat) (b : Byte) (v : Slot) (rest : List HostAction), s.running = false →
    (s.pending = .writeBuf a b :: rest → a < 2 ^ 29 - 1 → Answers (step s) fun t =>
      t.mem.readByte a = some b ∧ SameOutside s.mem t.mem (8 * a) (8 * a + 8) ∧ t.mem.slots = s.mem.slots ∧
      t = { s with pending := rest, mem := t.mem }) ∧
    (s.pending = .writeFld a v :: rest → a < 64 + 16 * s.params.maxsat.toNat → Answers (step s) fun t =>
      t.mem.slot? a = some v ∧ (∀ c ≠ a, t.mem.slot? c = s.mem.slot? c) ∧ SameBuffer s.mem t.mem ∧
      t = { s with pending := rest, mem := t.mem })

/-- A step runs the decoded instruction (41 R81, 70 R146): the entry at DIX while a command is in progress, else the
command word the host sends, taken off the host's list. -/
def Obligations.StepRunsTheDecodedInstruction : Prop :=
  ∀ (s : State) (i : Instr),
    (∀ w, s.running = true → s.fault = 0 → s.words[s.dix.toNat]? = some w → decodeEntry w = .ok i →
      step s = exec i s) ∧
    (∀ w rest, s.running = false → s.pending = .command w :: rest → decodeCommand w = .ok i →
      step s = exec i { s with pending := rest })

/-- The invariant of Safety.lean is kept by every step: the memory's canonical form, no slot that does not exist, at most
one bit of FAULT, and CUR within the capacity while a command is in progress (41 R91, 60 R132). No step changes the
parameters, the EPH descriptor among them (20 R43). -/
def Obligations.EveryStepKeepsTheInvariant : Prop :=
  ∀ s t : State, step s = .next t → (s.Inv → t.Inv) ∧ t.params = s.params

/-- 10 R24: the state after power-up, which State.reset is (notes/assumptions/14), has every register 0, a value in neither
memory, no command in progress and no host action to come; it meets the invariant, and its EPH_LAYOUT is one that
30 R55 admits (notes/assumptions/2: the model's choice). -/
def Obligations.ResetMeetsTheInvariant : Prop :=
  (State.reset.cap = 0 ∧ State.reset.status = .ok ∧ State.reset.bits = 0 ∧ State.reset.res = 0 ∧
    State.reset.fault = 0 ∧ State.reset.mt = .rawx ∧ State.reset.dir = .enc ∧ State.reset.dix = 0 ∧
    State.reset.cur = 0 ∧ State.reset.recIx = 0 ∧ State.reset.cnt = 0 ∧ State.reset.inrep = false ∧
    State.reset.rpt = 0 ∧ State.reset.running = false ∧ State.reset.pending = []) ∧
  (∀ addr, readReg State.reset addr = 0) ∧ State.reset.mem = ⟨[], [], []⟩ ∧
  (∀ q, State.reset.mem.bit? q = none) ∧ (∀ a, State.reset.mem.slot? a = none) ∧
  State.reset.Inv ∧ State.reset.params.ok = true

/-- Two memories in canonical form with the same bits and the same slots are the same data. -/
def Obligations.CanonicalFormIsUnique : Prop :=
  ∀ m m' : Memory, m.wf = true → m'.wf = true → (∀ q, m.bit? q = m'.bit? q) →
    (∀ a, m.slot? a = m'.slot? a) → m = m'
end

