-- ==== Sys2Proof/Laws/Cells.lean ====
section
/-!
SUPPORT. Laws of cells: reading after a write or an erase, and the canonical form.
-/

namespace Sys2Proof.Machine

variable {α : Type}

@[simp] theorem Cells.read_nil (a : Nat) : Cells.read ([] : List (Nat × α)) a = none := rfl

/-- A read after a write sees the written value at its address and the old ones elsewhere. -/
theorem Cells.read_write (l : List (Nat × α)) (a b : Nat) (v : α) :
    Cells.read (Cells.write l a v) b = if b = a then some v else Cells.read l b := by
  induction l with
  | nil => by_cases h : b = a <;> simp [Cells.write, Cells.read, h]
  | cons c rest ih =>
    obtain ⟨k, w⟩ := c
    simp only [Cells.write]
    split
    · by_cases h : b = a <;> simp [Cells.read, h]
    · split
      · subst_vars; by_cases h : b = k <;> simp [Cells.read, h]
      · simp only [Cells.read, ih]
        by_cases h : b = a
        · subst h; simp [*]
        · simp [h]

/-- A read after an erase sees nothing at its address and the old values elsewhere. -/
theorem Cells.read_erase (l : List (Nat × α)) (a b : Nat) :
    Cells.read (Cells.erase l a) b = if b = a then none else Cells.read l b := by
  induction l with
  | nil => simp [Cells.erase]
  | cons c rest ih =>
    obtain ⟨k, w⟩ := c
    simp only [Cells.erase]
    split
    · rename_i hak
      subst hak
      rw [ih]
      by_cases h : b = a <;> simp [Cells.read, h]
    · simp only [Cells.read, ih]
      by_cases h : b = a
      · subst h; simp [*]
      · simp [h]

theorem Cells.risingFrom_mono {l : List (Nat × α)} {lo lo' : Nat} (h : lo' ≤ lo)
    (hl : Cells.risingFrom lo l = true) : Cells.risingFrom lo' l = true := by
  cases l with
  | nil => rfl
  | cons c rest =>
    simp only [Cells.risingFrom, Bool.and_eq_true, decide_eq_true_eq] at hl ⊢
    exact ⟨h.trans hl.1, hl.2⟩

/-- A write keeps the canonical form. -/
theorem Cells.risingFrom_write {l : List (Nat × α)} {lo a : Nat} (v : α) (ha : lo ≤ a)
    (hl : Cells.risingFrom lo l = true) : Cells.risingFrom lo (Cells.write l a v) = true := by
  induction l generalizing lo with
  | nil => simp [Cells.write, Cells.risingFrom, ha]
  | cons c rest ih =>
    obtain ⟨k, w⟩ := c
    simp only [Cells.risingFrom, Bool.and_eq_true, decide_eq_true_eq] at hl
    simp only [Cells.write]
    split
    · simp only [Cells.risingFrom, Bool.and_eq_true, decide_eq_true_eq]
      exact ⟨ha, by omega, hl.2⟩
    · split
      · subst_vars; simp only [Cells.risingFrom, Bool.and_eq_true, decide_eq_true_eq]; exact hl
      · simp only [Cells.risingFrom, Bool.and_eq_true, decide_eq_true_eq]
        exact ⟨hl.1, ih (by omega) hl.2⟩

/-- An erase keeps the canonical form. -/
theorem Cells.risingFrom_erase {l : List (Nat × α)} {lo : Nat} (a : Nat)
    (hl : Cells.risingFrom lo l = true) : Cells.risingFrom lo (Cells.erase l a) = true := by
  induction l generalizing lo with
  | nil => rfl
  | cons c rest ih =>
    obtain ⟨k, w⟩ := c
    simp only [Cells.risingFrom, Bool.and_eq_true, decide_eq_true_eq] at hl
    simp only [Cells.erase]
    split
    · exact Cells.risingFrom_mono (by omega) (ih hl.2)
    · simp only [Cells.risingFrom, Bool.and_eq_true, decide_eq_true_eq]
      exact ⟨hl.1, ih hl.2⟩

theorem Cells.read_eq_none_of_risingFrom {l : List (Nat × α)} {lo a : Nat} (ha : a < lo)
    (hl : Cells.risingFrom lo l = true) : Cells.read l a = none := by
  induction l generalizing lo with
  | nil => rfl
  | cons c rest ih =>
    obtain ⟨k, w⟩ := c
    simp only [Cells.risingFrom, Bool.and_eq_true, decide_eq_true_eq] at hl
    simp only [Cells.read]
    rw [if_neg (by omega)]
    exact ih (by omega) hl.2

/-- In canonical form a cell is listed exactly when reading its address gives its value. -/
theorem Cells.mem_iff_read {l : List (Nat × α)} {lo : Nat} (hl : Cells.risingFrom lo l = true) (a : Nat) (v : α) :
    (a, v) ∈ l ↔ Cells.read l a = some v := by
  induction l generalizing lo with
  | nil => simp
  | cons c rest ih =>
    obtain ⟨k, w⟩ := c
    simp only [Cells.risingFrom, Bool.and_eq_true, decide_eq_true_eq] at hl
    simp only [Cells.read, List.mem_cons, ih hl.2, Prod.mk.injEq]
    split
    · rename_i hak
      subst hak
      have := Cells.read_eq_none_of_risingFrom (Nat.lt_succ_self a) hl.2
      simp [this, eq_comm]
    · simp [*]

/-- Two lists in canonical form that read alike are equal. -/
theorem Cells.ext_of_read {l l' : List (Nat × α)} {lo lo' : Nat} (hl : Cells.risingFrom lo l = true)
    (hl' : Cells.risingFrom lo' l' = true) (h : ∀ a, Cells.read l a = Cells.read l' a) : l = l' := by
  induction l generalizing l' lo lo' with
  | nil =>
    cases l' with
    | nil => rfl
    | cons c r => have := h c.1; simp [Cells.read] at this
  | cons c rest ih =>
    obtain ⟨k, w⟩ := c
    cases l' with
    | nil => have := h k; simp [Cells.read] at this
    | cons c' rest' =>
      obtain ⟨k', w'⟩ := c'
      simp only [Cells.risingFrom, Bool.and_eq_true, decide_eq_true_eq] at hl hl'
      have hk := h k
      have hk' := h k'
      have key : k = k' := by
        rcases Nat.lt_trichotomy k k' with hlt | heq | hgt
        · have := Cells.read_eq_none_of_risingFrom (a := k) (by omega) hl'.2
          simp [Cells.read, this] at hk; omega
        · exact heq
        · have := Cells.read_eq_none_of_risingFrom (a := k') (by omega) hl.2
          simp [Cells.read, this] at hk'; omega
      subst key
      simp only [Cells.read, if_true, Option.some.injEq] at hk
      subst hk
      congr 1
      refine ih hl.2 hl'.2 fun a => ?_
      by_cases hak : a = k
      · subst hak
        rw [Cells.read_eq_none_of_risingFrom (Nat.lt_succ_self a) hl.2,
          Cells.read_eq_none_of_risingFrom (Nat.lt_succ_self a) hl'.2]
      · have := h a
        simpa [Cells.read, hak] using this

end Sys2Proof.Machine
end

