-- ==== Sys2Proof/Laws/Decode.lean ====
section
/-!
SUPPORT. The two word formats field by field, and the decoders over the fields.
-/

namespace Sys2Proof

/-- A command word as a number (30 R46). -/
theorem commandWord_toNat (op : Nat) (ho : op < 16) (len : BitVec 8) (pos : BitVec 32) (val : Slot) :
    (commandWord op len pos val).toNat = op * 2 ^ 124 + len.toNat * 2 ^ 96 + pos.toNat * 2 ^ 64 + val.toNat := by
  have h1 := len.isLt; have h2 := pos.isLt; have h3 := val.isLt
  unfold commandWord
  rw [BitVec.toNat_ofNat, Nat.mod_eq_of_lt]; omega

/-- The fields of a command word. -/
theorem commandWord_fields (op : Nat) (ho : op < 16) (len : BitVec 8) (pos : BitVec 32) (val : Slot) :
    ((commandWord op len pos val).extractLsb' 124 4).toNat = op ∧
    (commandWord op len pos val).extractLsb' 104 20 = 0 ∧
    (commandWord op len pos val).extractLsb' 96 8 = len ∧
    (commandWord op len pos val).extractLsb' 64 32 = pos ∧
    (commandWord op len pos val).extractLsb' 0 64 = val := by
  have h1 := len.isLt; have h2 := pos.isLt; have h3 := val.isLt
  have h := commandWord_toNat op ho len pos val
  refine ⟨?_, ?_, ?_, ?_, ?_⟩
  · rw [BitVec.extractLsb'_toNat, h, Nat.shiftRight_eq_div_pow]; omega
  all_goals
    apply BitVec.eq_of_toNat_eq
    rw [BitVec.extractLsb'_toNat, h, Nat.shiftRight_eq_div_pow]
    try rw [show (0 : BitVec 20).toNat = 0 from rfl]
    omega

/-- The instruction of a command word whose ZERO field is 0, from its fields. -/
def commandOf (op : Nat) (len : BitVec 8) (pos : BitVec 32) (val : Slot) : Except DecodeError Instr :=
      match op with
      | 0x1 => .ok (.setu pos len val)
      | 0x2 => .ok (.sets pos len val)
      | 0x3 => if val = 0 then .ok (.getu pos len) else .error .nonzeroUnused
      | 0x4 => if val = 0 then .ok (.gets pos len) else .error .nonzeroUnused
      | 0x8 => if len = 0 ∧ pos = 0 ∧ val = 0 then .ok .encRawx else .error .nonzeroUnused
      | 0x9 => if len = 0 ∧ pos = 0 ∧ val = 0 then .ok .decRawx else .error .nonzeroUnused
      | 0xA => if len = 0 ∧ pos = 0 ∧ val = 0 then .ok .encEph else .error .nonzeroUnused
      | 0xB => if len = 0 ∧ pos = 0 ∧ val = 0 then .ok .decEph else .error .nonzeroUnused
      | _ => .error (.illegalOp (BitVec.ofNat 4 op))

/-- The command decoder over the fields. -/
theorem decodeCommand_eq (w : CommandWord) : decodeCommand w = if w.extractLsb' 104 20 ≠ 0 then .error .nonzeroZero else
   commandOf (w.extractLsb' 124 4).toNat (w.extractLsb' 96 8) (w.extractLsb' 64 32) (w.extractLsb' 0 64) := by
  unfold decodeCommand commandOf
  simp only [BitVec.ofNat_toNat, BitVec.setWidth_eq] <;> rfl

/-- Decoding an assembled command word. -/
theorem decodeCommand_commandWord (op : Nat) (ho : op < 16) (len : BitVec 8) (pos : BitVec 32) (val : Slot) :
    decodeCommand (commandWord op len pos val) = commandOf op len pos val := by
  obtain ⟨a, b, c, d, e⟩ := commandWord_fields op ho len pos val
  rw [decodeCommand_eq, if_neg (by rw [b]; simp), a, c, d, e]

/-- The fields of an entry word. -/
theorem entryWord_fields : ∀ kind < 8, ∀ sgn : Bool, ∀ wm1 slot : BitVec 6,
    ((entryWord kind sgn wm1 slot).extractLsb' 13 3).toNat = kind ∧
    (entryWord kind sgn wm1 slot).getLsbD 12 = sgn ∧
    (entryWord kind sgn wm1 slot).extractLsb' 6 6 = wm1 ∧
    (entryWord kind sgn wm1 slot).extractLsb' 0 6 = slot := by
  intro kind hk sgn wm1 slot
  have h1 := wm1.isLt; have h2 := slot.isLt
  have hb : sgn.toNat < 2 := by cases sgn <;> decide
  have h : (entryWord kind sgn wm1 slot).toNat = kind * 8192 + sgn.toNat * 4096 + wm1.toNat * 64 + slot.toNat := by
    unfold entryWord
    rw [BitVec.toNat_ofNat, Nat.mod_eq_of_lt]; omega
  refine ⟨?_, ?_, ?_, ?_⟩
  · rw [BitVec.extractLsb'_toNat, h, Nat.shiftRight_eq_div_pow]; omega
  · rw [← BitVec.testBit_toNat, h, Nat.testBit_eq_decide_div_mod_eq]
    cases sgn
    · simp only [Bool.toNat_false, decide_eq_false_iff_not]; omega
    · simp only [Bool.toNat_true, decide_eq_true_eq]; omega
  all_goals
    apply BitVec.eq_of_toNat_eq
    rw [BitVec.extractLsb'_toNat, h, Nat.shiftRight_eq_div_pow]
    omega

/-- The instruction of an entry word, from its fields. -/
def entryOf (kind : Nat) (sgn : Bool) (wm1 slot : BitVec 6) (w : EntryWord) : Except DecodeError Instr :=
  match kind with
  | 0 => if sgn = false ∧ wm1 = 0 ∧ slot = 0 then .ok .endDesc else .error (.malformedEntry w)
  | 1 => .ok (.fld sgn wm1 slot)
  | 2 => if sgn = false ∧ slot = 0 then .ok (.rsv wm1) else .error (.malformedEntry w)
  | 3 => if sgn = false then .ok (.tagc wm1 slot) else .error (.malformedEntry w)
  | 4 => if sgn = false then .ok (.tagi wm1 slot) else .error (.malformedEntry w)
  | 5 => if sgn = false then .ok (.cntf wm1 slot) else .error (.malformedEntry w)
  | 6 => if sgn = false ∧ wm1 = 0 ∧ slot = 0 then .ok .repb else .error (.malformedEntry w)
  | _ => if sgn = false ∧ wm1 = 0 ∧ slot = 0 then .ok .repe else .error (.malformedEntry w)

/-- The entry decoder over the fields. -/
theorem decodeEntry_eq (w : EntryWord) : decodeEntry w = entryOf (w.extractLsb' 13 3).toNat (w.getLsbD 12)
    (w.extractLsb' 6 6) (w.extractLsb' 0 6) w := rfl

/-- Decoding an assembled entry word. -/
theorem decodeEntry_entryWord (kind : Nat) (hk : kind < 8) (sgn : Bool) (wm1 slot : BitVec 6) :
    decodeEntry (entryWord kind sgn wm1 slot) = entryOf kind sgn wm1 slot (entryWord kind sgn wm1 slot) := by
  obtain ⟨a, b, c, d⟩ := entryWord_fields kind hk sgn wm1 slot
  rw [decodeEntry_eq, a, b, c, d]

/-- A command word with a ZERO field of 0 is assembled from its fields. -/
theorem commandWord_eta (w : CommandWord) (h : w.extractLsb' 104 20 = 0) :
    w = commandWord (w.extractLsb' 124 4).toNat (w.extractLsb' 96 8) (w.extractLsb' 64 32) (w.extractLsb' 0 64) := by
  apply BitVec.eq_of_toNat_eq
  rw [commandWord_toNat _ (by have := (w.extractLsb' 124 4).isLt; omega)]
  have h' := congrArg BitVec.toNat h
  rw [show (0 : BitVec 20).toNat = 0 from rfl] at h'
  simp only [BitVec.extractLsb'_toNat, Nat.shiftRight_eq_div_pow] at h' ⊢
  have := w.isLt
  omega

/-- An entry word is assembled from its fields. -/
theorem entryWord_eta (w : EntryWord) :
    w = entryWord (w.extractLsb' 13 3).toNat (w.getLsbD 12) (w.extractLsb' 6 6) (w.extractLsb' 0 6) := by
  apply BitVec.eq_of_toNat_eq
  unfold entryWord
  have hb : (w.getLsbD 12).toNat = w.toNat / 4096 % 2 := by
    rw [← BitVec.testBit_toNat, Nat.testBit_eq_decide_div_mod_eq]
    rcases Nat.mod_two_eq_zero_or_one (w.toNat / 2 ^ 12) with h | h <;> rw [h] <;> simp only [Nat.zero_ne_one,
        decide_false, decide_true, Bool.toNat_false, Bool.toNat_true] <;> omega
  rw [BitVec.toNat_ofNat, hb]
  simp only [BitVec.extractLsb'_toNat, Nat.shiftRight_eq_div_pow]
  have := w.isLt
  rw [Nat.mod_eq_of_lt] <;> omega

/-- The word of the instruction a command word stands for. -/
theorem encode_of_commandOf {op : Nat} {len : BitVec 8} {pos : BitVec 32} {val : Slot} {i : Instr}
    (h : commandOf op len pos val = .ok i) :
    encode i = .command (commandWord op len pos val) := by
  unfold commandOf at h
  split at h <;> (try split at h) <;> simp only [Except.ok.injEq, reduceCtorEq] at h <;> subst h
  · rfl
  · rfl
  · rename_i hv; subst hv; rfl
  · rename_i hv; subst hv; rfl
  all_goals
    rename_i hv; obtain ⟨rfl, rfl, rfl⟩ := hv; rfl

/-- The word of the instruction an entry word stands for. -/
theorem encode_of_entryOf {op : Nat} (ho : op < 8) {sgn : Bool} {wm1 slot : BitVec 6} {w : EntryWord} {i : Instr}
    (h : entryOf op sgn wm1 slot w = .ok i) :
    encode i = .entry (entryWord op sgn wm1 slot) := by
  have : op = 0 ∨ op = 1 ∨ op = 2 ∨ op = 3 ∨ op = 4 ∨ op = 5 ∨ op = 6 ∨ op = 7 := by omega
  rcases this with rfl | rfl | rfl | rfl | rfl | rfl | rfl | rfl <;> simp only [entryOf] at h <;>
      (try split at h) <;> simp only [Except.ok.injEq, reduceCtorEq] at h <;> subst h
  all_goals first
    | (rename_i hv; obtain ⟨rfl, rfl, rfl⟩ := hv; rfl)
    | rfl

/-- A command word stands for a command. -/
theorem isCommand_of_decodeCommand {w : CommandWord} {i : Instr}
    (hi : decodeCommand w = .ok i) : i.isCommand = true := by
    rw [decodeCommand_eq] at hi
    split at hi
    · cases hi
    · unfold commandOf at hi
      split at hi <;> first | (cases hi; done) | (split at hi <;> first | (cases hi; done) | skip) | skip
      all_goals simp only [Except.ok.injEq] at hi
      all_goals subst hi; rfl

/-- An entry word stands for a descriptor entry. -/
theorem notCommand_of_decodeEntry {w : EntryWord} {i : Instr} (h : decodeEntry w = .ok i) : i.isCommand = false := by
  unfold decodeEntry at h
  simp only at h
  split at h <;> first | (split at h <;> first | (cases h; done) |
      (simp only [Except.ok.injEq] at h; subst h; rfl)) | (simp only [Except.ok.injEq] at h; subst h; rfl)

end Sys2Proof
end

