-- ==== Sys2Proof/Laws/Memory.lean ====
section
/-!
SUPPORT. Laws of the two memories: what a bit, a byte and a slot read as after each operation, and that every operation
keeps the canonical form `Memory.wf`.
-/

namespace Sys2Proof.Machine

open Sys2Proof

/-! ### Bytes -/

/-- The written bits of every byte after `setByte`. -/
theorem Memory.mask_setByte (m : Memory) (a b : Nat) (k v : Byte) :
    (m.setByte a k v).mask b = if b = a then k else m.mask b := by
  unfold Memory.setByte
  split
  · by_cases h : b = a <;> simp [Memory.mask, Cells.read_erase, *]
  · split
    · by_cases h : b = a <;> simp [Memory.mask, Cells.read_write, Cells.read_erase, *]
    · by_cases h : b = a <;> simp [Memory.mask, Cells.read_write, *]

/-- The value of every byte after `setByte`: the unwritten bits stand as 0. -/
theorem Memory.value_setByte (m : Memory) (a b : Nat) (k v : Byte) :
    (m.setByte a k v).value b = if b = a then v &&& k else m.value b := by
  have hk : ∀ x : Byte, x &&& 255#8 = x := by decide
  unfold Memory.setByte
  split
  · by_cases h : b = a <;> simp [Memory.value, Cells.read_erase, *]
  · split
    · by_cases h : b = a <;> simp [Memory.value, Cells.read_write, *]
    · by_cases h : b = a <;> simp [Memory.value, Cells.read_write, *]

@[simp] theorem Memory.slots_setByte (m : Memory) (a : Nat) (k v : Byte) : (m.setByte a k v).slots = m.slots := by
  unfold Memory.setByte; split <;> [rfl; split <;> rfl]

/-! ### Bits -/

theorem inByte_lt (p : Nat) : inByte p < 8 := by unfold inByte; omega

/-- Every bit after `setByte`. -/
theorem Memory.bit?_setByte (m : Memory) (a : Nat) (k v : Byte) (q : Nat) :
    (m.setByte a k v).bit? q =
      if q / 8 = a then (if k.getLsbD (inByte q) then some (v.getLsbD (inByte q)) else none) else m.bit? q := by
  unfold Memory.bit?
  rw [Memory.mask_setByte, Memory.value_setByte]
  by_cases h : q / 8 = a
  · by_cases hk : k.getLsbD (inByte q) <;> simp [h, hk]
  · simp [h]

/-- A byte all of whose bits hold a value is known from its bits. -/
theorem Memory.bit?_of_readByte {m : Memory} {a : Nat} {b : Byte} (h : m.readByte a = some b) {q : Nat}
    (hq : q / 8 = a) : m.bit? q = some (b.getLsbD (inByte q)) := by
  unfold Memory.readByte at h
  split at h
  · rename_i hm
    simp only [Option.some.injEq] at h
    have hi := inByte_lt q
    have hff : ∀ j < 8, (255#8).getLsbD j = true := by decide
    simp [Memory.bit?, hq, hm, h, hff _ hi]
  · cases h

/-- Every bit after a splice: inside the window's mask those of `val`, else as before. -/
theorem Memory.bit?_splice (count : Nat) : ∀ (m : Memory) (a : Nat) (mask val : BitVec 72) (q : Nat), count ≤ 9 →
    (m.splice count a mask val).bit? q =
      if a ≤ q / 8 ∧ q / 8 < a + count ∧ mask.getLsbD (71 - 8 * (q / 8 - a) - q % 8) then
        some (val.getLsbD (71 - 8 * (q / 8 - a) - q % 8))
      else m.bit? q := by
  induction count with
  | zero => intro m a mask val q _; simp [Memory.splice]; omega
  | succ n ih =>
    intro m a mask val q hn
    simp only [Memory.splice]
    rw [ih _ _ _ _ _ (by omega), Memory.bit?_setByte]
    by_cases h0 : q / 8 = a
    · rw [if_pos h0]
      subst h0
      have hi : inByte q < 8 := inByte_lt q
      have hj : 64 + inByte q = 71 - q % 8 := by unfold inByte; omega
      have hb : m.bit? q = if (m.mask (q / 8)).getLsbD (inByte q) then some ((m.value (q / 8)).getLsbD (inByte q))
        else none := rfl
      simp only [Nat.sub_self, Nat.mul_zero, Nat.sub_zero]
      rw [if_neg (by omega), hb]
      simp only [BitVec.getLsbD_or, BitVec.getLsbD_and, BitVec.getLsbD_not, BitVec.getLsbD_extractLsb', hi, hj,
        decide_true, Bool.true_and]
      cases hmk : mask.getLsbD (71 - q % 8) <;> simp
    · simp only [if_neg h0, BitVec.getLsbD_shiftLeft]
      by_cases h1 : a + 1 ≤ q / 8 ∧ q / 8 < a + 1 + n
      · have e1 : 71 - 8 * (q / 8 - (a + 1)) - q % 8 - 8 = 71 - 8 * (q / 8 - a) - q % 8 := by omega
        have e2 : 71 - 8 * (q / 8 - (a + 1)) - q % 8 < 72 := by omega
        have e3 : ¬ 71 - 8 * (q / 8 - (a + 1)) - q % 8 < 8 := by omega
        have e4 : a ≤ q / 8 ∧ q / 8 < a + (n + 1) := by omega
        simp [h1.1, h1.2, e1, e2, e3, e4.1, e4.2]
      · rw [if_neg (by tauto), if_neg (by omega)]

@[simp] theorem Memory.slots_splice (count : Nat) : ∀ (m : Memory) (a : Nat) (mask val : BitVec 72),
    (m.splice count a mask val).slots = m.slots := by
  induction count with
  | zero => intros; rfl
  | succ n ih => intros; simp [Memory.splice, ih]

/-- Writing a field (20 R35, 40 R66): bit `pos + i` becomes bit `n - 1 - i` of the value, every other bit stays. -/
theorem Memory.bit?_writeField (m : Memory) (v : Slot) {n : Nat} (h1 : 1 ≤ n) (h64 : n ≤ 64) (pos q : Nat) :
    (m.writeField v n pos).bit? q =
      if pos ≤ q ∧ q < pos + n then some (v.getLsbD (n - 1 - (q - pos))) else m.bit? q := by
  unfold Memory.writeField
  rw [Memory.bit?_splice _ _ _ _ _ _ (by omega)]
  simp only [BitVec.getLsbD_shiftLeft, BitVec.getLsbD_setWidth, BitVec.getLsbD_ofNat, Nat.testBit_two_pow_sub_one]
  unfold windowShift
  by_cases h : pos ≤ q ∧ q < pos + n
  · have e1 : pos / 8 ≤ q / 8 ∧ q / 8 < pos / 8 + (pos % 8 + n + 7) / 8 := by omega
    have e2 : 71 - 8 * (q / 8 - pos / 8) - q % 8 < 72 := by omega
    have e3 : ¬ 71 - 8 * (q / 8 - pos / 8) - q % 8 < 72 - pos % 8 - n := by omega
    have e4 : 71 - 8 * (q / 8 - pos / 8) - q % 8 - (72 - pos % 8 - n) = n - 1 - (q - pos) := by omega
    have e5 : n - 1 - (q - pos) < n := by omega
    have e6 : n - 1 - (q - pos) < 72 := by omega
    simp [h, e1.1, e1.2, e2, e3, e4, e5, e6]
  · rw [if_neg h, if_neg]
    rintro ⟨h1', h2', h3⟩
    simp only [Bool.and_eq_true, decide_eq_true_eq, Bool.not_eq_true', decide_eq_false_iff_not] at h3
    omega

@[simp] theorem Memory.slots_writeField (m : Memory) (v : Slot) (n pos : Nat) :
    (m.writeField v n pos).slots = m.slots := by simp [Memory.writeField]

/-- Reading a field whose bits all hold a value succeeds. -/
theorem Memory.readField_ok (m : Memory) : ∀ (n pos : Nat) (acc : Slot),
    (∀ i < n, (m.bit? (pos + i)).isSome) → ∃ v, m.readField n pos acc = .ok v := by
  intro n
  induction n with
  | zero => intro pos acc _; exact ⟨acc, rfl⟩
  | succ n ih =>
    intro pos acc h
    have h0 := h 0 (by omega)
    simp only [Nat.add_zero] at h0
    obtain ⟨b, hb⟩ := Option.isSome_iff_exists.mp h0
    simp only [Memory.readField, hb]
    exact ih _ _ fun i hi => by have := h (i + 1) (by omega); rwa [show pos + 1 + i = pos + (i + 1) by omega]

/-- What a successful read gives: its low `n` bits are the field's, most significant first, and above them stand the
bits of `acc`; and every bit read held a value. -/
theorem Memory.readField_spec (m : Memory) : ∀ (n pos : Nat) (acc v : Slot), m.readField n pos acc = .ok v →
    n ≤ 64 → (∀ i < n, m.bit? (pos + i) = some (v.getLsbD (n - 1 - i))) ∧
    (∀ j, n ≤ j → j < 64 → v.getLsbD j = acc.getLsbD (j - n)) := by
  intro n
  induction n with
  | zero => intro pos acc v h _; simp only [Memory.readField, Except.ok.injEq] at h; subst h; simp
  | succ n ih =>
    intro pos acc v h hn
    simp only [Memory.readField] at h
    split at h
    · cases h
    · rename_i b hb
      obtain ⟨hlow, hhigh⟩ := ih _ _ _ h (by omega)
      refine ⟨fun i hi => ?_, fun j h1 h2 => ?_⟩
      · cases i with
        | zero =>
          have := hhigh n (le_refl n) (by omega)
          rw [Nat.add_zero, hb, show n + 1 - 1 - 0 = n by omega, this, Nat.sub_self]
          cases b <;> simp
        | succ i =>
          rw [show pos + (i + 1) = pos + 1 + i by omega, hlow i (by omega),
            show n + 1 - 1 - (i + 1) = n - 1 - i by omega]
      · rw [hhigh j (by omega) h2, BitVec.getLsbD_or, BitVec.getLsbD_shiftLeft]
        have e : j - n - 1 = j - (n + 1) := by omega
        have e1 : j - n < 64 := by omega
        have e2 : ¬ j - n < 1 := by omega
        have e3 : (if b = true then (1 : Slot) else 0).getLsbD (j - n) = false := by
          obtain ⟨k, hk⟩ : ∃ k, j - n = k + 1 := ⟨j - n - 1, by omega⟩
          cases b <;> simp [hk]
        rw [e3, e, decide_eq_true e1, decide_eq_false e2]
        simp

/-- A successful read of `1` to `64` bits: bit `n - 1 - i` of the result is the bit at `pos + i`. -/
theorem Memory.bit?_of_readField {m : Memory} {n pos : Nat} {acc v : Slot} (h : m.readField n pos acc = .ok v)
    (hn : n ≤ 64) {i : Nat} (hi : i < n) : m.bit? (pos + i) = some (v.getLsbD (n - 1 - i)) :=
  (Memory.readField_spec m n pos acc v h hn).1 i hi

/-- A successful read of `n` bits is below `2^n`. -/
theorem Memory.readField_lt {m : Memory} {n pos : Nat} {v : Slot} (h : m.readField n pos 0 = .ok v) :
    v.toNat < 2 ^ n := by
  apply Nat.lt_pow_two_of_testBit
  intro j hj
  by_cases h64 : j < 64
  · have := (Memory.readField_spec m n pos 0 v h (by omega)).2 j hj h64
    simpa [BitVec.testBit_toNat] using this
  · rw [BitVec.testBit_toNat]; exact BitVec.getLsbD_of_ge _ _ (by omega)

/-- A field that reads bit by bit as `v` reads as `v`. -/
theorem Memory.readField_eq {m : Memory} {n pos : Nat} {v : Slot} (hn : n ≤ 64) (hv : v.toNat < 2 ^ n)
    (h : ∀ i < n, m.bit? (pos + i) = some (v.getLsbD (n - 1 - i))) : m.readField n pos 0 = .ok v := by
  obtain ⟨u, hu⟩ := Memory.readField_ok m n pos 0 fun i hi => by simp [h i hi]
  rw [hu]
  congr 1
  apply BitVec.eq_of_getLsbD_eq
  intro j hj
  by_cases hjn : j < n
  · have := Memory.bit?_of_readField hu hn (i := n - 1 - j) (by omega)
    rw [h _ (by omega), Option.some.injEq, show n - 1 - (n - 1 - j) = j by omega] at this
    exact this.symm
  · have e1 := (Memory.readField_spec m n pos 0 u hu hn).2 j (by omega) hj
    have e2 : v.getLsbD j = false := by
      rw [← BitVec.testBit_toNat]
      exact Nat.testBit_lt_two_pow (lt_of_lt_of_le hv (Nat.pow_le_pow_right (by omega) (by omega)))
    rw [e1, e2]; simp

/-- What a field reads as depends on its own bits alone. -/
theorem Memory.readField_congr {m m' : Memory} : ∀ {n pos : Nat} {acc : Slot},
    (∀ i < n, m.bit? (pos + i) = m'.bit? (pos + i)) → m.readField n pos acc = m'.readField n pos acc := by
  intro n
  induction n with
  | zero => intros; rfl
  | succ n ih =>
    intro pos acc h
    have h0 := h 0 (by omega)
    simp only [Nat.add_zero] at h0
    simp only [Memory.readField, h0]
    split
    · rfl
    · exact ih fun i hi => by have := h (i + 1) (by omega); rwa [show pos + (i + 1) = pos + 1 + i by omega] at this

/-! ### Slots -/

/-- Every slot after `setSlot`. -/
theorem Memory.slot?_setSlot (m : Memory) (a b : Nat) (v : Slot) :
    (m.setSlot a v).slot? b = if b = a then some v else m.slot? b := Cells.read_write _ _ _ _

@[simp] theorem Memory.bit?_setSlot (m : Memory) (a : Nat) (v : Slot) (q : Nat) :
    (m.setSlot a v).bit? q = m.bit? q := rfl

@[simp] theorem Memory.slot?_writeField (m : Memory) (v : Slot) (n pos a : Nat) :
    (m.writeField v n pos).slot? a = m.slot? a := by simp [Memory.slot?]

/-- Every slot after `scramble`: the listed ones hold their free values, the others stay. -/
theorem Memory.slot?_scramble (n : Nat) (l : List Nat) : ∀ (m : Memory) (b : Nat),
    (m.scramble n l).slot? b = if b ∈ l then some (Config.freeSlot n b) else m.slot? b := by
  induction l with
  | nil => intro m b; simp [Memory.scramble]
  | cons a rest ih =>
    intro m b
    simp only [Memory.scramble, ih, Memory.slot?_setSlot, List.mem_cons]
    by_cases h1 : b ∈ rest <;> by_cases h2 : b = a <;> simp [h1, h2]

@[simp] theorem Memory.bytes_scramble (n : Nat) (l : List Nat) : ∀ (m : Memory), (m.scramble n l).bytes = m.bytes := by
  induction l with
  | nil => intro m; rfl
  | cons a rest ih => intro m; simp [Memory.scramble, ih, Memory.setSlot]

@[simp] theorem Memory.part_scramble (n : Nat) (l : List Nat) : ∀ (m : Memory), (m.scramble n l).part = m.part := by
  induction l with
  | nil => intro m; rfl
  | cons a rest ih => intro m; simp [Memory.scramble, ih, Memory.setSlot]

/-! ### The canonical form -/

/-- The canonical form in terms of reads. -/
theorem Memory.wf_iff (m : Memory) : m.wf = true ↔
    (Cells.risingFrom 0 m.bytes = true ∧ Cells.risingFrom 0 m.part = true ∧ Cells.risingFrom 0 m.slots = true) ∧
    (∀ a k, Cells.read m.part a = some k →
      k ≠ 0 ∧ k ≠ 0xFF ∧ m.value a &&& ~~~ k = 0 ∧ (Cells.read m.bytes a).isSome) ∧
    (∀ a v, Cells.read m.bytes a = some v → a < 2 ^ 29 - 1) := by
  unfold Memory.wf
  simp only [Bool.and_eq_true, List.all_eq_true, decide_eq_true_eq, Prod.forall]
  constructor
  · rintro ⟨⟨⟨⟨h1, h2⟩, h3⟩, h4⟩, h5⟩
    refine ⟨⟨h1, h2, h3⟩, fun a k h => ?_, fun a v h => h5 a v ((Cells.mem_iff_read h1 a v).2 h)⟩
    have := h4 a k ((Cells.mem_iff_read h2 a k).2 h)
    exact ⟨this.1.1.1, this.1.1.2, this.1.2, this.2⟩
  · rintro ⟨⟨h1, h2, h3⟩, h4, h5⟩
    refine ⟨⟨⟨⟨h1, h2⟩, h3⟩, fun a k h => ?_⟩, fun a v h => h5 a v ((Cells.mem_iff_read h1 a v).1 h)⟩
    have := h4 a k ((Cells.mem_iff_read h2 a k).1 h)
    exact ⟨⟨⟨this.1, this.2.1⟩, this.2.2.1⟩, this.2.2.2⟩

/-- Setting a byte CAP can reach keeps the canonical form. -/
theorem Memory.wf_setByte {m : Memory} (h : m.wf = true) {a : Nat} (ha : a < 2 ^ 29 - 1) (k v : Byte) :
    (m.setByte a k v).wf = true := by
  have hval : ∀ b, (m.setByte a k v).value b = if b = a then v &&& k else m.value b :=
    fun b => Memory.value_setByte m a b k v
  rw [Memory.wf_iff] at h ⊢
  obtain ⟨⟨h1, h2, h3⟩, h4, h5⟩ := h
  have hz : ∀ x k : Byte, x &&& k &&& ~~~ k = 0 := by
    intro x k; ext i; simp
  by_cases hk0 : k = 0
  · simp only [Memory.setByte, if_pos hk0] at hval ⊢
    refine ⟨⟨Cells.risingFrom_erase a h1, Cells.risingFrom_erase a h2, h3⟩, fun b j hj => ?_, fun b w hw => ?_⟩
    · rw [hval, Cells.read_erase]
      rw [Cells.read_erase] at hj
      by_cases hb : b = a
      · simp [hb] at hj
      · rw [if_neg hb] at hj ⊢; rw [if_neg hb]; exact h4 b j hj
    · rw [Cells.read_erase] at hw
      by_cases hb : b = a
      · simp [hb] at hw
      · rw [if_neg hb] at hw; exact h5 b w hw
  · have hw : ∀ w b x, Cells.read (Cells.write m.bytes a w) b = some x → b < 2 ^ 29 - 1 := by
      intro w b x hx
      rw [Cells.read_write] at hx
      by_cases hb : b = a
      · rw [hb]; exact ha
      · rw [if_neg hb] at hx; exact h5 b x hx
    by_cases hk1 : k = 0xFF
    · simp only [Memory.setByte, if_neg hk0, if_pos hk1] at hval ⊢
      refine ⟨⟨Cells.risingFrom_write v (Nat.zero_le a) h1, Cells.risingFrom_erase a h2, h3⟩, fun b j hj => ?_, hw v⟩
      rw [hval, Cells.read_write]
      rw [Cells.read_erase] at hj
      by_cases hb : b = a
      · simp [hb] at hj
      · rw [if_neg hb] at hj ⊢; rw [if_neg hb]; exact h4 b j hj
    · simp only [Memory.setByte, if_neg hk0, if_neg hk1] at hval ⊢
      refine ⟨⟨Cells.risingFrom_write _ (Nat.zero_le a) h1, Cells.risingFrom_write k (Nat.zero_le a) h2, h3⟩,
        fun b j hj => ?_, hw _⟩
      rw [hval, Cells.read_write]
      rw [Cells.read_write] at hj
      by_cases hb : b = a
      · rw [if_pos hb, Option.some.injEq] at hj
        subst hj
        exact ⟨hk0, hk1, by rw [if_pos hb]; exact hz v k, by rw [if_pos hb]; rfl⟩
      · rw [if_neg hb] at hj ⊢; rw [if_neg hb]; exact h4 b j hj

theorem Memory.wf_splice (count : Nat) : ∀ {m : Memory} {a : Nat} (mask val : BitVec 72), m.wf = true →
    a + count ≤ 2 ^ 29 - 1 → (m.splice count a mask val).wf = true := by
  induction count with
  | zero => intro m a mask val h _; exact h
  | succ n ih =>
    intro m a mask val h ha
    exact ih _ _ (Memory.wf_setByte h (by omega) _ _) (by omega)

/-- Writing a field that fits a declared capacity keeps the canonical form. -/
theorem Memory.wf_writeField {m : Memory} (h : m.wf = true) (v : Slot) {n pos : Nat}
    (hp : pos + n ≤ 8 * (2 ^ 29 - 1)) : (m.writeField v n pos).wf = true :=
  Memory.wf_splice _ _ _ h (by omega)

/-- Writing a slot keeps the canonical form. -/
theorem Memory.wf_setSlot {m : Memory} (h : m.wf = true) (a : Nat) (v : Slot) : (m.setSlot a v).wf = true := by
  rw [Memory.wf_iff] at h ⊢
  exact ⟨⟨h.1.1, h.1.2.1, Cells.risingFrom_write v (Nat.zero_le a) h.1.2.2⟩, h.2.1, h.2.2⟩

theorem Memory.wf_scramble (n : Nat) (l : List Nat) : ∀ {m : Memory}, m.wf = true → (m.scramble n l).wf = true := by
  induction l with
  | nil => intro m h; exact h
  | cons a rest ih => intro m h; exact ih (Memory.wf_setSlot h _ _)

/-- A byte whose eight bits hold the bits of `b`. -/
theorem Memory.readByte_of_bits {m : Memory} {a : Nat} {b : Byte}
    (h : ∀ i < 8, m.bit? (8 * a + i) = some (b.getLsbD (7 - i))) : m.readByte a = some b := by
  have hb : ∀ j < 8, (m.mask a).getLsbD j = true ∧ (m.value a).getLsbD j = b.getLsbD j := by
    intro j hj
    have := h (7 - j) (by omega)
    unfold Memory.bit? at this
    rw [show (8 * a + (7 - j)) / 8 = a by omega, show inByte (8 * a + (7 - j)) = j by unfold inByte; omega,
      show 7 - (7 - j) = j by omega] at this
    split at this
    · exact ⟨‹_›, Option.some.inj this⟩
    · cases this
  have hm : m.mask a = 0xFF :=
    BitVec.eq_of_getLsbD_eq fun j hj => (hb j hj).1.trans
      ((by decide : ∀ j < 8, true = (0xFF : Byte).getLsbD j) j hj)
  unfold Memory.readByte
  rw [if_pos hm, BitVec.eq_of_getLsbD_eq fun j hj => (hb j hj).2]

/-- A byte-wide field at a byte's first bit is that byte. -/
theorem Memory.readByte_of_readField {m : Memory} {a : Nat} {v : Slot} (h : m.readField 8 (8 * a) 0 = .ok v) :
    m.readByte a = some (v.setWidth 8) := by
  refine Memory.readByte_of_bits fun i hi => ?_
  rw [Memory.bit?_of_readField h (by decide) hi, BitVec.getLsbD_setWidth]
  simp [show 7 - i < 8 by omega]

end Sys2Proof.Machine
end

