-- ==== Sys2Proof/Laws/State.lean ====
section
/-!
SUPPORT. One lemma per field per update of the state, so that no proof unfolds a record update.
-/

namespace Sys2Proof.Machine

open Sys2Proof

/-! ### raise -/

@[simp] theorem raise_params (c : Cause) (s : State) : (raise c s).params = s.params := rfl
@[simp] theorem raise_mem (c : Cause) (s : State) : (raise c s).mem = s.mem := rfl
@[simp] theorem raise_cap (c : Cause) (s : State) : (raise c s).cap = s.cap := rfl
@[simp] theorem raise_status (c : Cause) (s : State) : (raise c s).status = s.status := rfl
@[simp] theorem raise_bits (c : Cause) (s : State) : (raise c s).bits = s.bits := rfl
@[simp] theorem raise_res (c : Cause) (s : State) : (raise c s).res = s.res := rfl
@[simp] theorem raise_fault (c : Cause) (s : State) : (raise c s).fault = s.fault ||| c.mask := rfl
@[simp] theorem raise_mt (c : Cause) (s : State) : (raise c s).mt = s.mt := rfl
@[simp] theorem raise_dir (c : Cause) (s : State) : (raise c s).dir = s.dir := rfl
@[simp] theorem raise_dix (c : Cause) (s : State) : (raise c s).dix = s.dix := rfl
@[simp] theorem raise_cur (c : Cause) (s : State) : (raise c s).cur = s.cur := rfl
@[simp] theorem raise_recIx (c : Cause) (s : State) : (raise c s).recIx = s.recIx := rfl
@[simp] theorem raise_cnt (c : Cause) (s : State) : (raise c s).cnt = s.cnt := rfl
@[simp] theorem raise_inrep (c : Cause) (s : State) : (raise c s).inrep = s.inrep := rfl
@[simp] theorem raise_rpt (c : Cause) (s : State) : (raise c s).rpt = s.rpt := rfl
@[simp] theorem raise_running (c : Cause) (s : State) : (raise c s).running = false := rfl
@[simp] theorem raise_freeCount (c : Cause) (s : State) : (raise c s).freeCount = s.freeCount := rfl
@[simp] theorem raise_pending (c : Cause) (s : State) : (raise c s).pending = s.pending := rfl
@[simp] theorem raise_capBits (c : Cause) (s : State) : (raise c s).capBits = s.capBits := rfl
@[simp] theorem raise_words (c : Cause) (s : State) : (raise c s).words = s.words := rfl
@[simp] theorem raise_descriptor (c : Cause) (s : State) : (raise c s).descriptor = s.descriptor := rfl
@[simp] theorem raise_expClass (c : Cause) (s : State) : (raise c s).expClass = s.expClass := rfl
@[simp] theorem raise_expId (c : Cause) (s : State) : (raise c s).expId = s.expId := rfl

/-! ### finish -/

@[simp] theorem finish_params (st : Status) (s : State) : (finish st s).params = s.params := by cases st <;> rfl
@[simp] theorem finish_cap (st : Status) (s : State) : (finish st s).cap = s.cap := by cases st <;> rfl
@[simp] theorem finish_status (st : Status) (s : State) : (finish st s).status = st := by cases st <;> rfl
@[simp] theorem finish_bits (st : Status) (s : State) : (finish st s).bits = s.bits := by cases st <;> rfl
@[simp] theorem finish_res (st : Status) (s : State) : (finish st s).res = s.res := by cases st <;> rfl
@[simp] theorem finish_fault (st : Status) (s : State) : (finish st s).fault = s.fault := by cases st <;> rfl
@[simp] theorem finish_mt (st : Status) (s : State) : (finish st s).mt = s.mt := by cases st <;> rfl
@[simp] theorem finish_dir (st : Status) (s : State) : (finish st s).dir = s.dir := by cases st <;> rfl
@[simp] theorem finish_dix (st : Status) (s : State) : (finish st s).dix = s.dix := by cases st <;> rfl
@[simp] theorem finish_cur (st : Status) (s : State) : (finish st s).cur = s.cur := by cases st <;> rfl
@[simp] theorem finish_recIx (st : Status) (s : State) : (finish st s).recIx = s.recIx := by cases st <;> rfl
@[simp] theorem finish_cnt (st : Status) (s : State) : (finish st s).cnt = s.cnt := by cases st <;> rfl
@[simp] theorem finish_inrep (st : Status) (s : State) : (finish st s).inrep = s.inrep := by cases st <;> rfl
@[simp] theorem finish_rpt (st : Status) (s : State) : (finish st s).rpt = s.rpt := by cases st <;> rfl
@[simp] theorem finish_running (st : Status) (s : State) : (finish st s).running = false := by cases st <;> rfl
@[simp] theorem finish_pending (st : Status) (s : State) : (finish st s).pending = s.pending := by cases st <;> rfl

@[simp] theorem finish_ok_mem (s : State) : (finish .ok s).mem = s.mem := rfl
@[simp] theorem finish_ok_freeCount (s : State) : (finish .ok s).freeCount = s.freeCount := rfl

/-! ### resetRegisters -/

@[simp] theorem resetRegisters_params (s : State) : (resetRegisters s).params = s.params := rfl
@[simp] theorem resetRegisters_mem (s : State) : (resetRegisters s).mem = s.mem := rfl
@[simp] theorem resetRegisters_cap (s : State) : (resetRegisters s).cap = 0 := rfl
@[simp] theorem resetRegisters_status (s : State) : (resetRegisters s).status = .ok := rfl
@[simp] theorem resetRegisters_bits (s : State) : (resetRegisters s).bits = 0 := rfl
@[simp] theorem resetRegisters_res (s : State) : (resetRegisters s).res = 0 := rfl
@[simp] theorem resetRegisters_fault (s : State) : (resetRegisters s).fault = 0 := rfl
@[simp] theorem resetRegisters_mt (s : State) : (resetRegisters s).mt = .rawx := rfl
@[simp] theorem resetRegisters_dir (s : State) : (resetRegisters s).dir = .enc := rfl
@[simp] theorem resetRegisters_dix (s : State) : (resetRegisters s).dix = 0 := rfl
@[simp] theorem resetRegisters_cur (s : State) : (resetRegisters s).cur = 0 := rfl
@[simp] theorem resetRegisters_recIx (s : State) : (resetRegisters s).recIx = 0 := rfl
@[simp] theorem resetRegisters_cnt (s : State) : (resetRegisters s).cnt = 0 := rfl
@[simp] theorem resetRegisters_inrep (s : State) : (resetRegisters s).inrep = false := rfl
@[simp] theorem resetRegisters_rpt (s : State) : (resetRegisters s).rpt = 0 := rfl
@[simp] theorem resetRegisters_running (s : State) : (resetRegisters s).running = false := rfl
@[simp] theorem resetRegisters_freeCount (s : State) : (resetRegisters s).freeCount = s.freeCount := rfl
@[simp] theorem resetRegisters_pending (s : State) : (resetRegisters s).pending = s.pending := rfl

/-! ### startCommand -/

@[simp] theorem startCommand_params (mt : MsgType) (dir : Direction) (s : State) : (startCommand mt dir s).params = s.params := rfl
@[simp] theorem startCommand_mem (mt : MsgType) (dir : Direction) (s : State) : (startCommand mt dir s).mem = s.mem := rfl
@[simp] theorem startCommand_cap (mt : MsgType) (dir : Direction) (s : State) : (startCommand mt dir s).cap = s.cap := rfl
@[simp] theorem startCommand_status (mt : MsgType) (dir : Direction) (s : State) : (startCommand mt dir s).status = s.status := rfl
@[simp] theorem startCommand_bits (mt : MsgType) (dir : Direction) (s : State) : (startCommand mt dir s).bits = s.bits := rfl
@[simp] theorem startCommand_res (mt : MsgType) (dir : Direction) (s : State) : (startCommand mt dir s).res = s.res := rfl
@[simp] theorem startCommand_fault (mt : MsgType) (dir : Direction) (s : State) : (startCommand mt dir s).fault = s.fault := rfl
@[simp] theorem startCommand_mt (mt : MsgType) (dir : Direction) (s : State) : (startCommand mt dir s).mt = mt := rfl
@[simp] theorem startCommand_dir (mt : MsgType) (dir : Direction) (s : State) : (startCommand mt dir s).dir = dir := rfl
@[simp] theorem startCommand_dix (mt : MsgType) (dir : Direction) (s : State) : (startCommand mt dir s).dix = 0 := rfl
@[simp] theorem startCommand_cur (mt : MsgType) (dir : Direction) (s : State) : (startCommand mt dir s).cur = 0 := rfl
@[simp] theorem startCommand_recIx (mt : MsgType) (dir : Direction) (s : State) : (startCommand mt dir s).recIx = 0 := rfl
@[simp] theorem startCommand_cnt (mt : MsgType) (dir : Direction) (s : State) : (startCommand mt dir s).cnt = 0 := rfl
@[simp] theorem startCommand_inrep (mt : MsgType) (dir : Direction) (s : State) : (startCommand mt dir s).inrep = false := rfl
@[simp] theorem startCommand_rpt (mt : MsgType) (dir : Direction) (s : State) : (startCommand mt dir s).rpt = 0 := rfl
@[simp] theorem startCommand_running (mt : MsgType) (dir : Direction) (s : State) : (startCommand mt dir s).running = true := rfl
@[simp] theorem startCommand_freeCount (mt : MsgType) (dir : Direction) (s : State) : (startCommand mt dir s).freeCount = s.freeCount := rfl
@[simp] theorem startCommand_pending (mt : MsgType) (dir : Direction) (s : State) : (startCommand mt dir s).pending = s.pending := rfl
@[simp] theorem startCommand_capBits (mt : MsgType) (dir : Direction) (s : State) : (startCommand mt dir s).capBits = s.capBits := rfl
@[simp] theorem startCommand_halted (mt : MsgType) (dir : Direction) (s : State) : (startCommand mt dir s).halted = s.halted := rfl

/-! ### consume -/

@[simp] theorem consume_params (w : Nat) (s : State) : (consume w s).params = s.params := rfl
@[simp] theorem consume_mem (w : Nat) (s : State) : (consume w s).mem = s.mem := rfl
@[simp] theorem consume_cap (w : Nat) (s : State) : (consume w s).cap = s.cap := rfl
@[simp] theorem consume_status (w : Nat) (s : State) : (consume w s).status = s.status := rfl
@[simp] theorem consume_bits (w : Nat) (s : State) : (consume w s).bits = s.bits := rfl
@[simp] theorem consume_res (w : Nat) (s : State) : (consume w s).res = s.res := rfl
@[simp] theorem consume_fault (w : Nat) (s : State) : (consume w s).fault = s.fault := rfl
@[simp] theorem consume_mt (w : Nat) (s : State) : (consume w s).mt = s.mt := rfl
@[simp] theorem consume_dir (w : Nat) (s : State) : (consume w s).dir = s.dir := rfl
@[simp] theorem consume_dix (w : Nat) (s : State) : (consume w s).dix = s.dix := rfl
@[simp] theorem consume_cur (w : Nat) (s : State) : (consume w s).cur = s.cur + BitVec.ofNat 32 w := rfl
@[simp] theorem consume_recIx (w : Nat) (s : State) : (consume w s).recIx = s.recIx := rfl
@[simp] theorem consume_cnt (w : Nat) (s : State) : (consume w s).cnt = s.cnt := rfl
@[simp] theorem consume_inrep (w : Nat) (s : State) : (consume w s).inrep = s.inrep := rfl
@[simp] theorem consume_rpt (w : Nat) (s : State) : (consume w s).rpt = s.rpt := rfl
@[simp] theorem consume_running (w : Nat) (s : State) : (consume w s).running = s.running := rfl
@[simp] theorem consume_freeCount (w : Nat) (s : State) : (consume w s).freeCount = s.freeCount := rfl
@[simp] theorem consume_pending (w : Nat) (s : State) : (consume w s).pending = s.pending := rfl
@[simp] theorem consume_capBits (w : Nat) (s : State) : (consume w s).capBits = s.capBits := rfl
@[simp] theorem consume_words (w : Nat) (s : State) : (consume w s).words = s.words := rfl
@[simp] theorem consume_descriptor (w : Nat) (s : State) : (consume w s).descriptor = s.descriptor := rfl
@[simp] theorem consume_expClass (w : Nat) (s : State) : (consume w s).expClass = s.expClass := rfl
@[simp] theorem consume_expId (w : Nat) (s : State) : (consume w s).expId = s.expId := rfl
@[simp] theorem consume_halted (w : Nat) (s : State) : (consume w s).halted = s.halted := rfl

/-! ### nextEntry -/

@[simp] theorem nextEntry_params (s : State) : (nextEntry s).params = s.params := rfl
@[simp] theorem nextEntry_mem (s : State) : (nextEntry s).mem = s.mem := rfl
@[simp] theorem nextEntry_cap (s : State) : (nextEntry s).cap = s.cap := rfl
@[simp] theorem nextEntry_status (s : State) : (nextEntry s).status = s.status := rfl
@[simp] theorem nextEntry_bits (s : State) : (nextEntry s).bits = s.bits := rfl
@[simp] theorem nextEntry_res (s : State) : (nextEntry s).res = s.res := rfl
@[simp] theorem nextEntry_fault (s : State) : (nextEntry s).fault = s.fault := rfl
@[simp] theorem nextEntry_mt (s : State) : (nextEntry s).mt = s.mt := rfl
@[simp] theorem nextEntry_dir (s : State) : (nextEntry s).dir = s.dir := rfl
@[simp] theorem nextEntry_dix (s : State) : (nextEntry s).dix = s.dix + 1 := rfl
@[simp] theorem nextEntry_cur (s : State) : (nextEntry s).cur = s.cur := rfl
@[simp] theorem nextEntry_recIx (s : State) : (nextEntry s).recIx = s.recIx := rfl
@[simp] theorem nextEntry_cnt (s : State) : (nextEntry s).cnt = s.cnt := rfl
@[simp] theorem nextEntry_inrep (s : State) : (nextEntry s).inrep = s.inrep := rfl
@[simp] theorem nextEntry_rpt (s : State) : (nextEntry s).rpt = s.rpt := rfl
@[simp] theorem nextEntry_running (s : State) : (nextEntry s).running = s.running := rfl
@[simp] theorem nextEntry_freeCount (s : State) : (nextEntry s).freeCount = s.freeCount := rfl
@[simp] theorem nextEntry_pending (s : State) : (nextEntry s).pending = s.pending := rfl
@[simp] theorem nextEntry_capBits (s : State) : (nextEntry s).capBits = s.capBits := rfl
@[simp] theorem nextEntry_words (s : State) : (nextEntry s).words = s.words := rfl
@[simp] theorem nextEntry_descriptor (s : State) : (nextEntry s).descriptor = s.descriptor := rfl
@[simp] theorem nextEntry_expClass (s : State) : (nextEntry s).expClass = s.expClass := rfl
@[simp] theorem nextEntry_expId (s : State) : (nextEntry s).expId = s.expId := rfl
@[simp] theorem nextEntry_halted (s : State) : (nextEntry s).halted = s.halted := rfl

/-! ### advance -/

@[simp] theorem advance_params (w : Nat) (s : State) : (advance w s).params = s.params := rfl
@[simp] theorem advance_mem (w : Nat) (s : State) : (advance w s).mem = s.mem := rfl
@[simp] theorem advance_cap (w : Nat) (s : State) : (advance w s).cap = s.cap := rfl
@[simp] theorem advance_status (w : Nat) (s : State) : (advance w s).status = s.status := rfl
@[simp] theorem advance_bits (w : Nat) (s : State) : (advance w s).bits = s.bits := rfl
@[simp] theorem advance_res (w : Nat) (s : State) : (advance w s).res = s.res := rfl
@[simp] theorem advance_fault (w : Nat) (s : State) : (advance w s).fault = s.fault := rfl
@[simp] theorem advance_mt (w : Nat) (s : State) : (advance w s).mt = s.mt := rfl
@[simp] theorem advance_dir (w : Nat) (s : State) : (advance w s).dir = s.dir := rfl
@[simp] theorem advance_dix (w : Nat) (s : State) : (advance w s).dix = s.dix + 1 := rfl
@[simp] theorem advance_cur (w : Nat) (s : State) : (advance w s).cur = s.cur + BitVec.ofNat 32 w := rfl
@[simp] theorem advance_recIx (w : Nat) (s : State) : (advance w s).recIx = s.recIx := rfl
@[simp] theorem advance_cnt (w : Nat) (s : State) : (advance w s).cnt = s.cnt := rfl
@[simp] theorem advance_inrep (w : Nat) (s : State) : (advance w s).inrep = s.inrep := rfl
@[simp] theorem advance_rpt (w : Nat) (s : State) : (advance w s).rpt = s.rpt := rfl
@[simp] theorem advance_running (w : Nat) (s : State) : (advance w s).running = s.running := rfl
@[simp] theorem advance_freeCount (w : Nat) (s : State) : (advance w s).freeCount = s.freeCount := rfl
@[simp] theorem advance_pending (w : Nat) (s : State) : (advance w s).pending = s.pending := rfl
@[simp] theorem advance_capBits (w : Nat) (s : State) : (advance w s).capBits = s.capBits := rfl
@[simp] theorem advance_words (w : Nat) (s : State) : (advance w s).words = s.words := rfl
@[simp] theorem advance_descriptor (w : Nat) (s : State) : (advance w s).descriptor = s.descriptor := rfl
@[simp] theorem advance_expClass (w : Nat) (s : State) : (advance w s).expClass = s.expClass := rfl
@[simp] theorem advance_expId (w : Nat) (s : State) : (advance w s).expId = s.expId := rfl
@[simp] theorem advance_halted (w : Nat) (s : State) : (advance w s).halted = s.halted := rfl

/-! ### putField -/

@[simp] theorem putField_params (w : Nat) (v : Slot) (s : State) : (putField w v s).params = s.params := rfl
@[simp] theorem putField_mem (w : Nat) (v : Slot) (s : State) : (putField w v s).mem = s.mem.writeField v w s.cur.toNat := rfl
@[simp] theorem putField_cap (w : Nat) (v : Slot) (s : State) : (putField w v s).cap = s.cap := rfl
@[simp] theorem putField_status (w : Nat) (v : Slot) (s : State) : (putField w v s).status = s.status := rfl
@[simp] theorem putField_bits (w : Nat) (v : Slot) (s : State) : (putField w v s).bits = s.bits := rfl
@[simp] theorem putField_res (w : Nat) (v : Slot) (s : State) : (putField w v s).res = s.res := rfl
@[simp] theorem putField_fault (w : Nat) (v : Slot) (s : State) : (putField w v s).fault = s.fault := rfl
@[simp] theorem putField_mt (w : Nat) (v : Slot) (s : State) : (putField w v s).mt = s.mt := rfl
@[simp] theorem putField_dir (w : Nat) (v : Slot) (s : State) : (putField w v s).dir = s.dir := rfl
@[simp] theorem putField_dix (w : Nat) (v : Slot) (s : State) : (putField w v s).dix = s.dix + 1 := rfl
@[simp] theorem putField_cur (w : Nat) (v : Slot) (s : State) : (putField w v s).cur = s.cur + BitVec.ofNat 32 w := rfl
@[simp] theorem putField_recIx (w : Nat) (v : Slot) (s : State) : (putField w v s).recIx = s.recIx := rfl
@[simp] theorem putField_cnt (w : Nat) (v : Slot) (s : State) : (putField w v s).cnt = s.cnt := rfl
@[simp] theorem putField_inrep (w : Nat) (v : Slot) (s : State) : (putField w v s).inrep = s.inrep := rfl
@[simp] theorem putField_rpt (w : Nat) (v : Slot) (s : State) : (putField w v s).rpt = s.rpt := rfl
@[simp] theorem putField_running (w : Nat) (v : Slot) (s : State) : (putField w v s).running = s.running := rfl
@[simp] theorem putField_freeCount (w : Nat) (v : Slot) (s : State) : (putField w v s).freeCount = s.freeCount := rfl
@[simp] theorem putField_pending (w : Nat) (v : Slot) (s : State) : (putField w v s).pending = s.pending := rfl
@[simp] theorem putField_capBits (w : Nat) (v : Slot) (s : State) : (putField w v s).capBits = s.capBits := rfl
@[simp] theorem putField_words (w : Nat) (v : Slot) (s : State) : (putField w v s).words = s.words := rfl
@[simp] theorem putField_descriptor (w : Nat) (v : Slot) (s : State) : (putField w v s).descriptor = s.descriptor := rfl
@[simp] theorem putField_expClass (w : Nat) (v : Slot) (s : State) : (putField w v s).expClass = s.expClass := rfl
@[simp] theorem putField_expId (w : Nat) (v : Slot) (s : State) : (putField w v s).expId = s.expId := rfl
@[simp] theorem putField_halted (w : Nat) (v : Slot) (s : State) : (putField w v s).halted = s.halted := rfl

/-! ### storeSlot -/

@[simp] theorem storeSlot_params (a : Nat) (v : Slot) (s : State) : (storeSlot a v s).params = s.params := rfl
@[simp] theorem storeSlot_mem (a : Nat) (v : Slot) (s : State) : (storeSlot a v s).mem = s.mem.setSlot a v := rfl
@[simp] theorem storeSlot_cap (a : Nat) (v : Slot) (s : State) : (storeSlot a v s).cap = s.cap := rfl
@[simp] theorem storeSlot_status (a : Nat) (v : Slot) (s : State) : (storeSlot a v s).status = s.status := rfl
@[simp] theorem storeSlot_bits (a : Nat) (v : Slot) (s : State) : (storeSlot a v s).bits = s.bits := rfl
@[simp] theorem storeSlot_res (a : Nat) (v : Slot) (s : State) : (storeSlot a v s).res = s.res := rfl
@[simp] theorem storeSlot_fault (a : Nat) (v : Slot) (s : State) : (storeSlot a v s).fault = s.fault := rfl
@[simp] theorem storeSlot_mt (a : Nat) (v : Slot) (s : State) : (storeSlot a v s).mt = s.mt := rfl
@[simp] theorem storeSlot_dir (a : Nat) (v : Slot) (s : State) : (storeSlot a v s).dir = s.dir := rfl
@[simp] theorem storeSlot_dix (a : Nat) (v : Slot) (s : State) : (storeSlot a v s).dix = s.dix := rfl
@[simp] theorem storeSlot_cur (a : Nat) (v : Slot) (s : State) : (storeSlot a v s).cur = s.cur := rfl
@[simp] theorem storeSlot_recIx (a : Nat) (v : Slot) (s : State) : (storeSlot a v s).recIx = s.recIx := rfl
@[simp] theorem storeSlot_cnt (a : Nat) (v : Slot) (s : State) : (storeSlot a v s).cnt = s.cnt := rfl
@[simp] theorem storeSlot_inrep (a : Nat) (v : Slot) (s : State) : (storeSlot a v s).inrep = s.inrep := rfl
@[simp] theorem storeSlot_rpt (a : Nat) (v : Slot) (s : State) : (storeSlot a v s).rpt = s.rpt := rfl
@[simp] theorem storeSlot_running (a : Nat) (v : Slot) (s : State) : (storeSlot a v s).running = s.running := rfl
@[simp] theorem storeSlot_freeCount (a : Nat) (v : Slot) (s : State) : (storeSlot a v s).freeCount = s.freeCount := rfl
@[simp] theorem storeSlot_pending (a : Nat) (v : Slot) (s : State) : (storeSlot a v s).pending = s.pending := rfl
@[simp] theorem storeSlot_capBits (a : Nat) (v : Slot) (s : State) : (storeSlot a v s).capBits = s.capBits := rfl
@[simp] theorem storeSlot_words (a : Nat) (v : Slot) (s : State) : (storeSlot a v s).words = s.words := rfl
@[simp] theorem storeSlot_descriptor (a : Nat) (v : Slot) (s : State) : (storeSlot a v s).descriptor = s.descriptor := rfl
@[simp] theorem storeSlot_expClass (a : Nat) (v : Slot) (s : State) : (storeSlot a v s).expClass = s.expClass := rfl
@[simp] theorem storeSlot_expId (a : Nat) (v : Slot) (s : State) : (storeSlot a v s).expId = s.expId := rfl
@[simp] theorem storeSlot_halted (a : Nat) (v : Slot) (s : State) : (storeSlot a v s).halted = s.halted := rfl

/-! ### writeReg -/

@[simp] theorem writeReg_params (addr : Nat) (v : BitVec 64) (s : State) : (writeReg addr v s).params = s.params := by unfold writeReg; split <;> rfl
@[simp] theorem writeReg_mem (addr : Nat) (v : BitVec 64) (s : State) : (writeReg addr v s).mem = s.mem := by unfold writeReg; split <;> rfl
@[simp] theorem writeReg_cap (addr : Nat) (v : BitVec 64) (s : State) : (writeReg addr v s).cap = if addr = 0x0 then v.extractLsb' 0 29 else s.cap := by unfold writeReg; split <;> rfl
@[simp] theorem writeReg_status (addr : Nat) (v : BitVec 64) (s : State) : (writeReg addr v s).status = s.status := by unfold writeReg; split <;> rfl
@[simp] theorem writeReg_bits (addr : Nat) (v : BitVec 64) (s : State) : (writeReg addr v s).bits = s.bits := by unfold writeReg; split <;> rfl
@[simp] theorem writeReg_res (addr : Nat) (v : BitVec 64) (s : State) : (writeReg addr v s).res = s.res := by unfold writeReg; split <;> rfl
@[simp] theorem writeReg_fault (addr : Nat) (v : BitVec 64) (s : State) : (writeReg addr v s).fault = s.fault := by unfold writeReg; split <;> rfl
@[simp] theorem writeReg_mt (addr : Nat) (v : BitVec 64) (s : State) : (writeReg addr v s).mt = s.mt := by unfold writeReg; split <;> rfl
@[simp] theorem writeReg_dir (addr : Nat) (v : BitVec 64) (s : State) : (writeReg addr v s).dir = s.dir := by unfold writeReg; split <;> rfl
@[simp] theorem writeReg_dix (addr : Nat) (v : BitVec 64) (s : State) : (writeReg addr v s).dix = s.dix := by unfold writeReg; split <;> rfl
@[simp] theorem writeReg_cur (addr : Nat) (v : BitVec 64) (s : State) : (writeReg addr v s).cur = s.cur := by unfold writeReg; split <;> rfl
@[simp] theorem writeReg_recIx (addr : Nat) (v : BitVec 64) (s : State) : (writeReg addr v s).recIx = s.recIx := by unfold writeReg; split <;> rfl
@[simp] theorem writeReg_cnt (addr : Nat) (v : BitVec 64) (s : State) : (writeReg addr v s).cnt = s.cnt := by unfold writeReg; split <;> rfl
@[simp] theorem writeReg_inrep (addr : Nat) (v : BitVec 64) (s : State) : (writeReg addr v s).inrep = s.inrep := by unfold writeReg; split <;> rfl
@[simp] theorem writeReg_rpt (addr : Nat) (v : BitVec 64) (s : State) : (writeReg addr v s).rpt = s.rpt := by unfold writeReg; split <;> rfl
@[simp] theorem writeReg_running (addr : Nat) (v : BitVec 64) (s : State) : (writeReg addr v s).running = s.running := by unfold writeReg; split <;> rfl
@[simp] theorem writeReg_freeCount (addr : Nat) (v : BitVec 64) (s : State) : (writeReg addr v s).freeCount = s.freeCount := by unfold writeReg; split <;> rfl
@[simp] theorem writeReg_pending (addr : Nat) (v : BitVec 64) (s : State) : (writeReg addr v s).pending = s.pending := by unfold writeReg; split <;> rfl

end Sys2Proof.Machine
end

