-- ==== Sys2Proof/Laws/Operands.lean ====
section
/-!
SUPPORT. What each shared operation on operands can do, said once: if it answers a next state, then one of these cases
holds; and when it goes on.
-/

namespace Sys2Proof.Machine

open Sys2Proof

@[simp] theorem State.halted_eq_false (s : State) : s.halted = false ↔ s.fault = 0 := by
  simp [State.halted]

@[simp] theorem State.halted_eq_true (s : State) : s.halted = true ↔ s.fault ≠ 0 := by
  simp [State.halted]

theorem unlessHalted_of_ok {s : State} (h : s.fault = 0) (k : State → Result) : unlessHalted s k = k s := by
  simp [unlessHalted, State.halted, h]

theorem unlessHalted_of_halted {s : State} (h : s.fault ≠ 0) (k : State → Result) : unlessHalted s k = .next s := by
  unfold unlessHalted
  rw [if_pos ((State.halted_eq_true s).2 h)]

/-- A command's start: ignored, or gone on with. -/
theorem unlessHalted_next {s t : State} {k : State → Result} (h : unlessHalted s k = .next t) :
    (s.fault ≠ 0 ∧ t = s) ∨ (s.fault = 0 ∧ k s = .next t) := by
  by_cases h0 : s.fault = 0
  · rw [unlessHalted_of_ok h0] at h; exact .inr ⟨h0, h⟩
  · rw [unlessHalted_of_halted h0] at h
    simp only [Host.Outcome.next.injEq] at h
    exact .inl ⟨h0, h.symm⟩

/-- Operands within the contract: the primitive goes on. -/
theorem withOperands_of_ok {pos : BitVec 32} {len : BitVec 8} {s : State} (h0 : s.fault = 0) (h1 : 1 ≤ len.toNat)
    (h64 : len.toNat ≤ 64) (hc : pos.toNat + len.toNat ≤ s.capBits) (k : State → Result) :
    withOperands pos len s k = k s := by
  unfold withOperands
  rw [unlessHalted_of_ok h0, if_neg (by omega), if_neg (by omega)]

/-- A primitive's operand checks: ignored, WIDTH, BOUNDS, or gone on with inside the contract. -/
theorem withOperands_next {pos : BitVec 32} {len : BitVec 8} {s t : State} {k : State → Result}
    (h : withOperands pos len s k = .next t) :
    (s.fault ≠ 0 ∧ t = s) ∨ (s.fault = 0 ∧ t = raise .width s) ∨ (s.fault = 0 ∧ t = raise .bounds s) ∨
    (s.fault = 0 ∧ 1 ≤ len.toNat ∧ len.toNat ≤ 64 ∧ pos.toNat + len.toNat ≤ s.capBits ∧ k s = .next t) := by
  unfold withOperands at h
  rcases unlessHalted_next h with h' | ⟨h0, h⟩
  · exact .inl h'
  · split at h
    · simp only [Host.Outcome.next.injEq] at h; exact .inr (.inl ⟨h0, h.symm⟩)
    · split at h
      · simp only [Host.Outcome.next.injEq] at h; exact .inr (.inr (.inl ⟨h0, h.symm⟩))
      · exact .inr (.inr (.inr ⟨h0, by omega, by omega, by omega, h⟩))

theorem readOperand_next {pos : BitVec 32} {len : BitVec 8} {s t : State} {k : Slot → Result}
    (h : readOperand pos len s k = .next t) :
    ∃ v, s.mem.readField len.toNat pos.toNat 0 = .ok v ∧ k v = .next t := by
  unfold readOperand at h
  split at h
  · cases h
  · exact ⟨_, ‹_›, h⟩

theorem check_of_fits {w : Nat} {s : State} (h : s.cur.toNat + w ≤ s.capBits) (k : State → Result) :
    check w s k = k s := by
  unfold check; rw [if_neg (by omega)]

theorem check_of_exceeds {w : Nat} {s : State} (h : s.capBits < s.cur.toNat + w) (k : State → Result) :
    check w s k = .next (raise .bounds s) := by
  unfold check; rw [if_pos h]

/-- `check(W)`: BOUNDS, or gone on with when the field fits. -/
theorem check_next {w : Nat} {s t : State} {k : State → Result} (h : check w s k = .next t) :
    (s.capBits < s.cur.toNat + w ∧ t = raise .bounds s) ∨ (s.cur.toNat + w ≤ s.capBits ∧ k s = .next t) := by
  unfold check at h
  split at h
  · simp only [Host.Outcome.next.injEq] at h; exact .inl ⟨‹_›, h.symm⟩
  · exact .inr ⟨by omega, h⟩

theorem getField_next {w : Nat} {s t : State} {k : Slot → Result} (h : getField w s k = .next t) :
    ∃ v, s.mem.readField w s.cur.toNat 0 = .ok v ∧ k v = .next t := by
  unfold getField at h
  split at h
  · cases h
  · exact ⟨_, ‹_›, h⟩

theorem readSlot_next {a : Nat} {s t : State} {k : Slot → Result} (h : readSlot a s k = .next t) :
    ∃ v, s.mem.slot? a = some v ∧ k v = .next t := by
  unfold readSlot at h
  split at h
  · cases h
  · exact ⟨_, ‹_›, h⟩

theorem readSlot_of_some {a : Nat} {s : State} {v : Slot} (h : s.mem.slot? a = some v) (k : Slot → Result) :
    readSlot a s k = k v := by
  unfold readSlot; rw [h]

theorem getField_of_ok {w : Nat} {s : State} {v : Slot} (h : s.mem.readField w s.cur.toNat 0 = .ok v)
    (k : Slot → Result) : getField w s k = k v := by
  unfold getField; rw [h]

/-- The slot an FLD names exists: a scalar slot, or a slot of a record below MAXSAT. -/
theorem fieldAddress_ok {slot : BitVec 6} {s : State} {a : Nat} (h : fieldAddress slot s = .ok a) :
    (s.inrep = false ∧ a = slot.toNat) ∨
    (s.inrep = true ∧ slot.toNat < 16 ∧ s.recIx.toNat < s.params.maxsat.toNat ∧
      a = recordAddress s.recIx.toNat slot.toNat) := by
  unfold fieldAddress at h
  cases hi : s.inrep <;> simp only [hi] at h
  · simp only [Bool.false_eq_true, if_false, Except.ok.injEq] at h
    exact .inl ⟨rfl, h.symm⟩
  · simp only [if_true] at h
    split at h
    · rename_i hc
      simp only [Except.ok.injEq] at h
      exact .inr ⟨rfl, hc.1, hc.2, h.symm⟩
    · cases h

/-- The slot an FLD names is one of 10 R12's. -/
theorem fieldAddress_lt {slot : BitVec 6} {s : State} {a : Nat} (h : fieldAddress slot s = .ok a) :
    a < recordAddress s.params.maxsat.toNat 0 := by
  have hs := slot.isLt
  rcases fieldAddress_ok h with ⟨_, rfl⟩ | ⟨_, h16, hr, rfl⟩
  · simp only [recordAddress, nslot, recStride]; omega
  · simp only [recordAddress, nslot, recStride]; omega

theorem withAddress_next {slot : BitVec 6} {s t : State} {k : Nat → Result} (h : withAddress slot s k = .next t) :
    ∃ a, fieldAddress slot s = .ok a ∧ k a = .next t := by
  unfold withAddress at h
  split at h
  · cases h
  · exact ⟨_, ‹_›, h⟩

/-- CUR after a field that fits the capacity does not wrap (41 R91). -/
theorem advance_cur_toNat {w : Nat} {s : State} (h : s.cur.toNat + w ≤ s.capBits) :
    (advance w s).cur.toNat = s.cur.toNat + w := by
  have hc := s.cap.isLt
  unfold State.capBits at h
  rw [advance_cur, BitVec.toNat_add, BitVec.toNat_ofNat]
  omega

theorem capBits_lt (s : State) : s.capBits < 2 ^ 32 := by
  have := s.cap.isLt
  unfold State.capBits
  omega

theorem namedSlots_lt {d : Descriptor} {maxsat a : Nat} (h : a ∈ namedSlots d maxsat) :
    a < recordAddress maxsat 0 := by
  have hslot : ∀ i : Instr, ∀ b, i.slot? = some b → b < 64 := by
    intro i b hb
    cases i <;> simp only [Instr.slot?, Option.some.injEq, reduceCtorEq] at hb
    all_goals subst hb; exact BitVec.isLt _
  simp only [namedSlots, List.mem_append, List.mem_filterMap, List.mem_flatMap, List.mem_range, List.mem_map,
    List.mem_filter, recStride] at h
  simp only [recordAddress, nslot, recStride]
  rcases h with ⟨i, _, hi⟩ | ⟨i, hi, j, ⟨_, hj⟩, rfl⟩
  · have := hslot i a hi; omega
  · have hj' : j < 16 := of_decide_eq_true hj
    simp only [recordAddress, nslot, recStride]; omega

end Sys2Proof.Machine
end

