-- ==== Sys2Proof/Laws/Sequencer.lean ====
section
/-!
SUPPORT. What a micro-step can do, said once, and inductions over the loop of micro-steps packaged once.
-/

namespace Sys2Proof.Machine

open Sys2Proof

/-- Everything a micro-step that answers a next state can have done to the state. -/
inductive MicroEffect (s : State) : State → Prop
  /-- It raised BOUNDS, or COUNT on encode. -/
  | raised (c : Cause) (h : c = .bounds ∨ c = .count) : MicroEffect s (raise c s)
  /-- END on encode. -/
  | completed (h : s.dir = .enc) : MicroEffect s { s with bits := s.cur, running := false }
  /-- END on decode. -/
  | finishedOk (h : s.dir = .dec) : MicroEffect s (finish .ok s)
  /-- A decode ended with TYPE_MISMATCH, after the field of a tag. -/
  | mismatch (w : Nat) (hd : s.dir = .dec) (h : s.cur.toNat + w ≤ s.capBits) :
      MicroEffect s (finish .typeMismatch (consume w s))
  /-- A decode ended with INVALID_MESSAGE, at REPB. -/
  | invalid (hd : s.dir = .dec) : MicroEffect s (finish .invalidMessage s)
  /-- A field was written to BUF; CNT may have been latched. -/
  | put (w : Nat) (v : Slot) (c : BitVec 64) (hd : s.dir = .enc) (h1 : 1 ≤ w) (h64 : w ≤ 64)
      (h : s.cur.toNat + w ≤ s.capBits) : MicroEffect s { putField w v s with cnt := c }
  /-- A field was skipped. -/
  | skipped (w : Nat) (hd : s.dir = .dec) (h : s.cur.toNat + w ≤ s.capBits) : MicroEffect s (advance w s)
  /-- A field went to a slot; CNT may have been latched. -/
  | stored (w a : Nat) (v : Slot) (c : BitVec 64) (hd : s.dir = .dec) (h : s.cur.toNat + w ≤ s.capBits)
      (ha : a < recordAddress s.params.maxsat.toNat 0) : MicroEffect s { storeSlot a v (advance w s) with cnt := c }
  /-- REPB or REPE moved DIX, REC, RPT and INREP. -/
  | moved (dix : BitVec 6) (recIx : BitVec 8) (rpt : BitVec 6) (inrep : Bool) :
      MicroEffect s { s with dix := dix, recIx := recIx, rpt := rpt, inrep := inrep }

theorem scalar_lt (slot : BitVec 6) (s : State) : slot.toNat < recordAddress s.params.maxsat.toNat 0 := by
  have := slot.isLt
  simp only [recordAddress, nslot, recStride]; omega

theorem encodeScalar_next {w : Nat} {slot : BitVec 6} {s t : State} {k : Slot → State → Result}
    (h : encodeScalar w slot s k = .next t) :
    t = raise .bounds s ∨
    (s.cur.toNat + w ≤ s.capBits ∧ ∃ v, s.mem.slot? slot.toNat = some v ∧ k v (putField w v s) = .next t) := by
  rcases check_next h with h' | ⟨hc, h⟩
  · exact .inl h'.2
  · exact .inr ⟨hc, readSlot_next h⟩

theorem decodeField_next {w : Nat} {s t : State} {k : Slot → State → Result} (h : decodeField w s k = .next t) :
    t = raise .bounds s ∨
    (s.cur.toNat + w ≤ s.capBits ∧
      ∃ v, s.mem.readField w s.cur.toNat 0 = .ok v ∧ k v (consume w s) = .next t) := by
  rcases check_next h with h' | ⟨hc, h⟩
  · exact .inl h'.2
  · exact .inr ⟨hc, getField_next h⟩

theorem encodeScalar_of_ok {w : Nat} {slot : BitVec 6} {s : State} {v : Slot} (hc : s.cur.toNat + w ≤ s.capBits)
    (hv : s.mem.slot? slot.toNat = some v) (k : Slot → State → Result) :
    encodeScalar w slot s k = k v (putField w v s) := by
  unfold encodeScalar; rw [check_of_fits hc, readSlot_of_some hv]

theorem decodeField_of_ok {w : Nat} {s : State} {v : Slot} (hc : s.cur.toNat + w ≤ s.capBits)
    (hv : s.mem.readField w s.cur.toNat 0 = .ok v) (k : Slot → State → Result) :
    decodeField w s k = k v (consume w s) := by
  unfold decodeField; rw [check_of_fits hc, getField_of_ok hv]

/-- A micro-step that answers a next state has one of the effects of `MicroEffect`. -/
theorem entryStep_effect {i : Instr} {s t : State} (h : entryStep i s = .next t) : MicroEffect s t := by
  have hw : ∀ wm1 : BitVec 6, wm1.toNat + 1 ≤ 64 := fun wm1 => by have := wm1.isLt; omega
  cases i with
  | setu | sets | getu | gets | encRawx | decRawx | encEph | decEph => cases h
  | endDesc =>
    simp only [entryStep, execEnd] at h
    split at h <;> rename_i hd <;> simp only [Host.Outcome.next.injEq] at h <;> subst h
    · exact .completed hd
    · exact .finishedOk hd
  | fld sgn wm1 slot =>
    simp only [entryStep, execFld] at h
    cases hd : s.dir <;> simp only [hd] at h
    · rcases check_next h with ⟨_, rfl⟩ | ⟨hc, h⟩
      · exact .raised _ (.inl rfl)
      obtain ⟨a, ha, h⟩ := withAddress_next h
      obtain ⟨v, hv, h⟩ := readSlot_next h
      simp only [Host.Outcome.next.injEq] at h; subst h
      exact .put _ v s.cnt hd (by omega) (hw _) hc
    · rcases check_next h with ⟨_, rfl⟩ | ⟨hc, h⟩
      · exact .raised _ (.inl rfl)
      obtain ⟨a, ha, h⟩ := withAddress_next h
      obtain ⟨v, hv, h⟩ := getField_next h
      simp only [Host.Outcome.next.injEq] at h; subst h
      exact .stored _ a _ s.cnt hd hc (fieldAddress_lt ha)
  | rsv wm1 =>
    simp only [entryStep, execRsv] at h
    cases hd : s.dir <;> simp only [hd] at h
    all_goals
      rcases check_next h with ⟨_, rfl⟩ | ⟨hc, h⟩
      · exact .raised _ (.inl rfl)
      simp only [Host.Outcome.next.injEq] at h; subst h
    · exact .put _ 0 s.cnt hd (by omega) (hw _) hc
    · exact .skipped _ hd hc
  | tagc wm1 slot | tagi wm1 slot =>
    simp only [entryStep, execTagc, execTagi] at h
    cases hd : s.dir <;> simp only [hd] at h
    · rcases encodeScalar_next h with rfl | ⟨hc, v, hv, h⟩
      · exact .raised _ (.inl rfl)
      simp only [Host.Outcome.next.injEq] at h; subst h
      exact .put _ v s.cnt hd (by omega) (hw _) hc
    · rcases decodeField_next h with rfl | ⟨hc, v, hv, h⟩
      · exact .raised _ (.inl rfl)
      split at h <;> simp only [Host.Outcome.next.injEq] at h <;> subst h
      · exact .mismatch _ hd hc
      · exact .stored _ _ v s.cnt hd hc (scalar_lt slot s)
  | cntf wm1 slot =>
    simp only [entryStep, execCntf] at h
    cases hd : s.dir <;> simp only [hd] at h
    · rcases encodeScalar_next h with rfl | ⟨hc, v, hv, h⟩
      · exact .raised _ (.inl rfl)
      simp only [Host.Outcome.next.injEq] at h; subst h
      exact .put _ v v hd (by omega) (hw _) hc
    · rcases decodeField_next h with rfl | ⟨hc, v, hv, h⟩
      · exact .raised _ (.inl rfl)
      simp only [Host.Outcome.next.injEq] at h; subst h
      exact .stored _ _ v v hd hc (scalar_lt slot s)
  | repb =>
    simp only [entryStep, execRepb] at h
    split at h
    · cases hd : s.dir <;> simp only [hd, Host.Outcome.next.injEq] at h <;> subst h
      · exact .raised _ (.inr rfl)
      · exact .invalid hd
    · split at h
      · split at h
        · cases h
        · simp only [Host.Outcome.next.injEq] at h; subst h
          exact .moved _ _ _ s.inrep
      · simp only [Host.Outcome.next.injEq] at h; subst h
        exact .moved _ _ _ _
  | repe =>
    simp only [entryStep, execRepe] at h
    split at h <;> simp only [Host.Outcome.next.injEq] at h <;> subst h
    · exact .moved _ _ s.rpt s.inrep
    · exact .moved _ _ s.rpt _

theorem microStep_next {s t : State} (h : microStep s = .next t) :
    ∃ i, fetchEntry s = some i ∧ entryStep i s = .next t := by
  unfold microStep at h
  split at h
  · exact ⟨_, ‹_›, h⟩
  · cases h

/-- What holds before the loop and is kept by every micro-step holds after it. -/
theorem microLoop_induction {P : State → Prop} (hstep : ∀ s t, P s → microStep s = .next t → P t) :
    ∀ (n : Nat) (s t : State), P s → microLoop n s = .next t → P t ∧ t.running = false := by
  intro n
  induction n with
  | zero => intro s t _ h; cases h
  | succ n ih =>
    intro s t hs h
    simp only [microLoop] at h
    split at h
    · rename_i u hu
      split at h
      · exact ih u t (hstep s u hs hu) h
      · simp only [Host.Outcome.next.injEq] at h
        subst h
        exact ⟨hstep s u hs hu, Bool.not_eq_true _ ▸ ‹¬ u.running = true›⟩
    · cases h
    · cases h

/-- One turn of the loop that goes on. -/
theorem microLoop_step {n : Nat} {i : Instr} {s t : State} (hf : fetchEntry s = some i) (h : entryStep i s = .next t)
    (hr : t.running = true) : microLoop (n + 1) s = microLoop n t := by
  simp [microLoop, microStep, hf, h, hr]

/-- The turn of the loop that ends the command. -/
theorem microLoop_last {n : Nat} {i : Instr} {s t : State} (hf : fetchEntry s = some i) (h : entryStep i s = .next t)
    (hr : t.running = false) : microLoop (n + 1) s = .next t := by
  simp [microLoop, microStep, hf, h, hr]

/-- A loop that has ended within `n` turns ends alike within more. -/
theorem microLoop_mono {r : Result} : ∀ {n : Nat} {s : State} (k : Nat), microLoop n s = r →
    r ≠ .refused .beyondMicroBound → microLoop (n + k) s = r := by
  intro n
  induction n with
  | zero => intro s k h hr; exact absurd h.symm hr
  | succ n ih =>
    intro s k h hr
    rw [Nat.add_right_comm]
    simp only [microLoop] at h ⊢
    split at h
    · split at h
      · rw [if_pos ‹_›]; exact ih k h hr
      · rw [if_neg ‹_›]; exact h
    · exact h
    · exact h

end Sys2Proof.Machine
end

