-- ==== Sys2Proof/Laws/Fields.lean ====
section
/-!
SUPPORT. Runs of field entries: what a list of fields, micro-stepped one after the other, does on encode and on decode,
said once for every descriptor.
-/

namespace Sys2Proof.Machine

open Sys2Proof

/-! ### Fields of the buffer -/

theorem fieldHolds_writeField (m : Memory) (v : Slot) {n pos : Nat} (h1 : 1 ≤ n) (h64 : n ≤ 64) :
    FieldHolds (m.writeField v n pos) pos n v := by
  intro i hi
  rw [Memory.bit?_writeField _ _ h1 h64, if_pos (by omega)]
  congr 2; omega

theorem sameOutside_writeField (m : Memory) (v : Slot) {n pos : Nat} (h1 : 1 ≤ n) (h64 : n ≤ 64) :
    SameOutside m (m.writeField v n pos) pos (pos + n) := by
  intro q hq
  rw [Memory.bit?_writeField _ _ h1 h64, if_neg (by omega)]

theorem FieldHolds.of_outside {m m' : Memory} {pos w lo hi : Nat} {v : Slot} (h : FieldHolds m pos w v)
    (ho : SameOutside m m' lo hi) (hd : pos + w ≤ lo ∨ hi ≤ pos) : FieldHolds m' pos w v :=
  fun i hi' => by rw [ho _ (by omega)]; exact h i hi'

theorem SameBuffer.refl (m : Memory) : SameBuffer m m := ⟨rfl, rfl⟩

theorem SameBuffer.trans {m m' m'' : Memory} (h : SameBuffer m m') (h' : SameBuffer m' m'') : SameBuffer m m'' :=
  ⟨h'.1.trans h.1, h'.2.trans h.2⟩

theorem SameBuffer.bit?_eq {m m' : Memory} (h : SameBuffer m m') (q : Nat) : m'.bit? q = m.bit? q := by
  unfold Memory.bit? Memory.mask Memory.value; rw [h.1, h.2]

theorem SameBuffer.readField_eq {m m' : Memory} (h : SameBuffer m m') (w pos : Nat) (acc : Slot) :
    m'.readField w pos acc = m.readField w pos acc :=
  Memory.readField_congr fun _ _ => h.bit?_eq _

theorem fieldHolds_of_readField {m : Memory} {pos w : Nat} {v : Slot} (h64 : w ≤ 64)
    (hv : m.readField w pos 0 = .ok v) : FieldHolds m pos w v :=
  fun _ hi => Memory.bit?_of_readField hv h64 hi

theorem readField_of_bitsWritten {m : Memory} {pos w : Nat} (h : BitsWritten m pos (pos + w)) :
    ∃ v, m.readField w pos 0 = .ok v :=
  Memory.readField_ok _ _ _ _ fun i hi => h _ (by omega) (by omega)

theorem FieldHolds.bitsWritten {m : Memory} {pos w : Nat} {v : Slot} (h : FieldHolds m pos w v) :
    BitsWritten m pos (pos + w) := by
  intro q h1 h2
  have := h (q - pos) (by omega)
  rw [show pos + (q - pos) = q by omega] at this
  simp [this]

/-! ### Entries with a field -/

/-- The entry has a field: all but END, REPB and REPE. -/
def isField : Instr → Bool
  | .fld _ _ _ | .rsv _ | .tagc _ _ | .tagi _ _ | .cntf _ _ => true
  | _ => false

/-- The address of the slot a field names, in the state it is reached in (41 R82). -/
def slotAddress (s : State) : Instr → Nat
  | .fld _ _ slot => if s.inrep then recordAddress s.recIx.toNat slot.toNat else slot.toNat
  | .tagc _ slot | .tagi _ slot | .cntf _ slot => slot.toNat
  | _ => 0

/-- The slot a field names exists (10 R12). -/
def Reaches (s : State) : Instr → Prop
  | .fld _ _ slot => s.inrep = true → slot.toNat < recStride ∧ s.recIx.toNat < s.params.maxsat.toNat
  | _ => True

theorem width_of_isField {i : Instr} (h : isField i = true) : 1 ≤ i.width ∧ i.width ≤ 64 := by
  have hw : ∀ w : BitVec 6, 1 ≤ w.toNat + 1 ∧ w.toNat + 1 ≤ 64 := fun w => by have := w.isLt; omega
  cases i <;> first | exact hw _ | cases h

theorem fieldAddress_of_reaches {sgn : Bool} {wm1 slot : BitVec 6} {s : State} (h : Reaches s (.fld sgn wm1 slot)) :
    fieldAddress slot s = .ok (slotAddress s (.fld sgn wm1 slot)) := by
  unfold fieldAddress slotAddress
  by_cases hi : s.inrep = true
  · simp only [if_pos hi]; rw [if_pos (h hi)]
  · simp only [if_neg hi]

/-- The value a field is encoded from: its slot, or 0 for RSV (41 R84 to R88). -/
def fieldValue (s : State) (i : Instr) : Slot :=
  if i.slot?.isSome then (s.mem.slot? (slotAddress s i)).getD 0 else 0

/-- The field can be encoded: its slot exists and holds a value. -/
def Encodable (s : State) (i : Instr) : Prop :=
  isField i = true ∧ Reaches s i ∧ (i.slot?.isSome → (s.mem.slot? (slotAddress s i)).isSome)

/-- One field encoded. -/
def encOne (i : Instr) (s : State) : State :=
  { putField i.width (fieldValue s i) s with cnt := if Descriptor.isCount i then fieldValue s i else s.cnt }

/-- What the slot of a field is given on decode: the value at bit address `pos`, extended. -/
def decodedSlot (m : Memory) (pos : Nat) (i : Instr) : Slot :=
  let v := (m.readField i.width pos 0).toOption.getD 0
  if i.isSigned then signExtend i.width v else v

/-- The field at bit address `pos` can be decoded: its slot exists, its bits hold values, and a tag matches. -/
def Decodable (s : State) (pos : Nat) (i : Instr) : Prop :=
  isField i = true ∧ Reaches s i ∧ (i.slot?.isSome → BitsWritten s.mem pos (pos + i.width)) ∧
  (∀ w a, i = .tagc w a → s.mem.readField i.width pos 0 = .ok (s.expClass.setWidth 64)) ∧
  (∀ w a, i = .tagi w a → s.mem.readField i.width pos 0 = .ok (s.expId.setWidth 64))

/-- One field decoded. -/
def decOne (i : Instr) (s : State) : State :=
  if i.slot?.isSome then
    { storeSlot (slotAddress s i) (decodedSlot s.mem s.cur.toNat i) (advance i.width s) with
      cnt := if Descriptor.isCount i then decodedSlot s.mem s.cur.toNat i else s.cnt }
  else advance i.width s

theorem entryStep_encode {i : Instr} {s : State} (hd : s.dir = .enc) (he : Encodable s i)
    (hc : s.cur.toNat + i.width ≤ s.capBits) : entryStep i s = .next (encOne i s) := by
  obtain ⟨hf, hr, hv⟩ := he
  cases i <;> simp only [isField, Bool.false_eq_true] at hf
  case rsv w =>
    simp only [entryStep, execRsv]; rw [hd]
    simp only [Instr.width] at hc
    simp only; rw [check_of_fits hc]; rfl
  case fld sgn w a =>
    simp only [Instr.slot?, Option.isSome_some, forall_const] at hv
    obtain ⟨v, hv⟩ := Option.isSome_iff_exists.1 hv
    simp only [Instr.width] at hc
    simp only [entryStep, execFld]; rw [hd]
    simp only; rw [check_of_fits hc, withAddress, fieldAddress_of_reaches hr]
    simp only; rw [readSlot_of_some hv]
    unfold encOne fieldValue
    rw [hv]; rfl
  all_goals
    simp only [Instr.slot?, Option.isSome_some, forall_const] at hv
    obtain ⟨v, hv⟩ := Option.isSome_iff_exists.1 hv
    simp only [Instr.width] at hc
    simp only [entryStep, execTagc, execTagi, execCntf]; rw [hd]
    simp only; rw [encodeScalar_of_ok hc hv]
    unfold encOne fieldValue
    rw [hv]; rfl

theorem entryStep_decode {i : Instr} {s : State} (hd : s.dir = .dec) (he : Decodable s s.cur.toNat i)
    (hc : s.cur.toNat + i.width ≤ s.capBits) : entryStep i s = .next (decOne i s) := by
  obtain ⟨hf, hr, hv, htc, hti⟩ := he
  cases i <;> simp only [isField, Bool.false_eq_true] at hf
  case rsv w =>
    simp only [entryStep, execRsv]; rw [hd]
    simp only [Instr.width] at hc
    simp only; rw [check_of_fits hc]; rfl
  case fld sgn w a =>
    simp only [Instr.slot?, Option.isSome_some, forall_const] at hv
    obtain ⟨v, hv⟩ := readField_of_bitsWritten hv
    simp only [Instr.width] at hc
    simp only [entryStep, execFld]; rw [hd]
    simp only; rw [check_of_fits hc, withAddress, fieldAddress_of_reaches hr]
    simp only; rw [getField_of_ok (w := w.toNat + 1) hv]
    unfold decOne decodedSlot
    rw [hv]; rfl
  case cntf w a =>
    simp only [Instr.slot?, Option.isSome_some, forall_const] at hv
    obtain ⟨v, hv⟩ := readField_of_bitsWritten hv
    simp only [Instr.width] at hc
    simp only [entryStep, execCntf]; rw [hd]
    simp only; rw [decodeField_of_ok hc hv]
    unfold decOne decodedSlot
    rw [hv]; rfl
  case tagc w a =>
    have hv := htc w a rfl
    simp only [Instr.width] at hc
    simp only [entryStep, execTagc]; rw [hd]
    simp only; rw [decodeField_of_ok hc hv, if_neg (by simp)]
    unfold decOne decodedSlot
    rw [hv]; rfl
  case tagi w a =>
    have hv := hti w a rfl
    simp only [Instr.width] at hc
    simp only [entryStep, execTagi]; rw [hd]
    simp only; rw [decodeField_of_ok hc hv, if_neg (by simp)]
    unfold decOne decodedSlot
    rw [hv]; rfl

/-- A field that does not fit the capacity. -/
theorem entryStep_exceeds {i : Instr} {s : State} (hf : isField i = true) (hc : s.capBits < s.cur.toNat + i.width) :
    entryStep i s = .next (raise .bounds s) := by
  cases i <;> simp only [isField, Bool.false_eq_true] at hf
  all_goals
    simp only [Instr.width] at hc
    simp only [entryStep, execFld, execRsv, execTagc, execTagi, execCntf, encodeScalar, decodeField]
    split <;> rw [check_of_exceeds hc]

/-! ### Fetching -/

theorem decodeLayout_length {ws : List EntryWord} {d : Descriptor} (h : decodeLayout ws = some d) :
    d.length = ws.length := by
  induction ws generalizing d with
  | nil => simp only [decodeLayout, Option.some.injEq] at h; subst h; rfl
  | cons w rest ih =>
    simp only [decodeLayout] at h
    split at h
    · rename_i i d' _ hd'
      simp only [Option.some.injEq] at h
      subst h
      simp [ih hd']
    · cases h

theorem decodeLayout_getElem? {ws : List EntryWord} {d : Descriptor} (h : decodeLayout ws = some d) (k : Nat) :
    (match ws[k]? with | some w => (decodeEntry w).toOption | none => none) = d[k]? := by
  induction ws generalizing d k with
  | nil => simp only [decodeLayout, Option.some.injEq] at h; subst h; simp
  | cons w rest ih =>
    simp only [decodeLayout] at h
    split at h
    · rename_i i d' hi hd'
      simp only [Option.some.injEq] at h
      subst h
      cases k with
      | zero => simp [hi, Except.toOption]
      | succ k => simpa using ih hd' k
    · cases h

/-- The entry fetched is the descriptor's entry at DIX (41 R81). -/
theorem fetchEntry_eq {s : State} {d : Descriptor} (h : decodeLayout s.words = some d) :
    fetchEntry s = d[s.dix.toNat]? := decodeLayout_getElem? h _

theorem fetchEntry_of_drop {s : State} {d : Descriptor} {x : Instr} {xs : List Instr}
    (h : decodeLayout s.words = some d) (hx : d.drop s.dix.toNat = x :: xs) : fetchEntry s = some x := by
  rw [fetchEntry_eq h, ← List.head?_drop, hx]; rfl

/-- DIX moved on while entries remain: it does not wrap. -/
theorem dix_next {s : State} {d : Descriptor} {x y : Instr} {xs : List Instr} (hl : d.length ≤ 64)
    (hx : d.drop s.dix.toNat = x :: y :: xs) :
    (s.dix + 1).toNat = s.dix.toNat + 1 ∧ d.drop (s.dix + 1).toNat = y :: xs := by
  have h1 := congrArg List.length hx
  simp only [List.length_drop, List.length_cons] at h1
  have : (s.dix + 1).toNat = s.dix.toNat + 1 := by
    rw [BitVec.toNat_add]; simp; omega
  refine ⟨this, ?_⟩
  rw [this, ← List.drop_drop, hx]; rfl

/-! ### Runs of fields, encoded -/

/-- A list of fields encoded one after the other. -/
def encFields : List Instr → State → State
  | [], s => s
  | i :: rest, s => encFields rest (encOne i s)

theorem encOne_eq (i : Instr) (s : State) :
    encOne i s = { s with
      mem := (encOne i s).mem, cur := (encOne i s).cur, dix := s.dix + 1, cnt := (encOne i s).cnt } := rfl

/-- Encoding fields changes BUF, CUR, DIX and CNT alone. -/
theorem encFields_eq (xs : List Instr) : ∀ s : State,
    encFields xs s = { s with
      mem := (encFields xs s).mem, cur := (encFields xs s).cur, dix := (encFields xs s).dix,
      cnt := (encFields xs s).cnt } := by
  induction xs with
  | nil => intro s; rfl
  | cons i rest ih => intro s; exact ih (encOne i s)

theorem encFields_slots (xs : List Instr) : ∀ s : State, (encFields xs s).mem.slots = s.mem.slots := by
  induction xs with
  | nil => intro s; rfl
  | cons i rest ih => intro s; exact (ih (encOne i s)).trans (by simp [encOne])

theorem encOne_cur {i : Instr} {s : State} (hc : s.cur.toNat + i.width ≤ s.capBits) :
    (encOne i s).cur.toNat = s.cur.toNat + i.width := advance_cur_toNat (s := s) hc

theorem totalWidth_cons (i : Instr) (xs : List Instr) :
    Descriptor.totalWidth (i :: xs) = i.width + Descriptor.totalWidth xs := by simp [Descriptor.totalWidth]

theorem totalWidth_append (xs ys : List Instr) :
    Descriptor.totalWidth (xs ++ ys) = Descriptor.totalWidth xs + Descriptor.totalWidth ys := by
  simp [Descriptor.totalWidth]

theorem encFields_append (xs ys : List Instr) : ∀ s : State,
    encFields (xs ++ ys) s = encFields ys (encFields xs s) := by
  induction xs with
  | nil => intro s; rfl
  | cons i rest ih => intro s; exact ih (encOne i s)

theorem encFields_cur (xs : List Instr) : ∀ {s : State}, s.cur.toNat + Descriptor.totalWidth xs ≤ s.capBits →
    (encFields xs s).cur.toNat = s.cur.toNat + Descriptor.totalWidth xs := by
  induction xs with
  | nil => intro s _; simp [encFields, Descriptor.totalWidth]
  | cons i rest ih =>
    intro s h
    rw [totalWidth_cons] at h
    have hc := encOne_cur (i := i) (s := s) (by omega)
    have := ih (s := encOne i s) (by rw [hc]; show _ ≤ s.capBits; omega)
    rw [totalWidth_cons]
    simp only [encFields]
    omega

theorem encFields_cnt {xs : List Instr} (h : ∀ i ∈ xs, Descriptor.isCount i = false) : ∀ s : State,
    (encFields xs s).cnt = s.cnt := by
  induction xs with
  | nil => intro s; rfl
  | cons i rest ih =>
    intro s
    refine (ih (fun j hj => h j (List.mem_cons_of_mem _ hj)) (encOne i s)).trans ?_
    simp [encOne, h i]

theorem slotAddress_congr {s t : State} (h1 : t.inrep = s.inrep) (h2 : t.recIx = s.recIx) (i : Instr) :
    slotAddress t i = slotAddress s i := by
  unfold slotAddress; rw [h1, h2]

theorem Reaches.congr {s t : State} {i : Instr} (h : Reaches s i) (h1 : t.inrep = s.inrep) (h2 : t.recIx = s.recIx)
    (h3 : t.params = s.params) : Reaches t i := by
  cases i <;> simp only [Reaches] at h ⊢
  rw [h1, h2, h3]; exact h

theorem fieldValue_congr {s t : State} (h1 : t.inrep = s.inrep) (h2 : t.recIx = s.recIx)
    (h3 : t.mem.slots = s.mem.slots) (i : Instr) : fieldValue t i = fieldValue s i := by
  unfold fieldValue Memory.slot?; rw [slotAddress_congr h1 h2, h3]

theorem Encodable.congr {s t : State} {i : Instr} (h : Encodable s i) (h1 : t.inrep = s.inrep)
    (h2 : t.recIx = s.recIx) (h3 : t.params = s.params) (h4 : t.mem.slots = s.mem.slots) : Encodable t i := by
  refine ⟨h.1, h.2.1.congr h1 h2 h3, fun hs => ?_⟩
  unfold Memory.slot?
  rw [slotAddress_congr h1 h2, h4]
  exact h.2.2 hs

/-- The buffer after a run of encoded fields: nothing outside it changed, and every field holds its slot's low bits. -/
theorem encFields_bits (xs : List Instr) : ∀ {s : State}, (∀ i ∈ xs, isField i = true) →
    s.cur.toNat + Descriptor.totalWidth xs ≤ s.capBits →
    SameOutside s.mem (encFields xs s).mem s.cur.toNat (s.cur.toNat + Descriptor.totalWidth xs) ∧
    ∀ p ∈ placed s.cur.toNat xs, FieldHolds (encFields xs s).mem p.1 p.2.width (fieldValue s p.2) := by
  induction xs with
  | nil => intro s _ _; exact ⟨fun q _ => rfl, fun p hp => by cases hp⟩
  | cons i rest ih =>
    intro s hf hc
    rw [totalWidth_cons] at hc
    obtain ⟨h1, h64⟩ := width_of_isField (hf i (List.mem_cons_self ..))
    have hcur := encOne_cur (i := i) (s := s) (by omega)
    obtain ⟨ho, hp⟩ := ih (s := encOne i s) (fun j hj => hf j (List.mem_cons_of_mem _ hj))
      (by rw [hcur]; show _ ≤ s.capBits; omega)
    rw [hcur] at ho hp
    have hone := sameOutside_writeField s.mem (fieldValue s i) (pos := s.cur.toNat) h1 h64
    have hheld := fieldHolds_writeField s.mem (fieldValue s i) (pos := s.cur.toNat) h1 h64
    refine ⟨fun q hq => ?_, fun p hp' => ?_⟩
    · rw [totalWidth_cons] at hq
      exact (ho q (by omega)).trans (hone q (by omega))
    · simp only [placed, List.mem_cons] at hp'
      rcases hp' with rfl | hp'
      · exact FieldHolds.of_outside hheld ho (.inl (Nat.le_refl _))
      · have := hp p hp'
        rwa [fieldValue_congr (s := s) (t := encOne i s) rfl rfl (by simp [encOne])] at this

/-- A run of fields that fit, encoded: as many micro-steps as fields, none of which ends the command. -/
theorem microLoop_encode {d : Descriptor} {y : Instr} {ys : List Instr} (hlen : d.length ≤ 64) (xs : List Instr) :
    ∀ {s : State} (n : Nat), decodeLayout s.words = some d → d.drop s.dix.toNat = xs ++ y :: ys → s.dir = .enc →
    s.running = true → (∀ i ∈ xs, Encodable s i) → s.cur.toNat + Descriptor.totalWidth xs ≤ s.capBits →
    microLoop (n + xs.length) s = microLoop n (encFields xs s) ∧
      d.drop (encFields xs s).dix.toNat = y :: ys := by
  induction xs with
  | nil => intro s n _ hd _ _ _ _; exact ⟨rfl, hd⟩
  | cons i rest ih =>
    intro s n hw hd hdir hrun he hc
    rw [totalWidth_cons] at hc
    have hstep := entryStep_encode hdir (he i (List.mem_cons_self ..)) (by omega)
    have hcur := encOne_cur (i := i) (s := s) (by omega)
    have hnext : d.drop (s.dix + 1).toNat = rest ++ y :: ys := by
      cases rest with
      | nil => exact (dix_next hlen hd).2
      | cons z zs => exact (dix_next hlen hd).2
    obtain ⟨hloop, hd'⟩ := ih (s := encOne i s) n hw hnext hdir hrun
      (fun j hj => (he j (List.mem_cons_of_mem _ hj)).congr rfl rfl rfl (by simp [encOne]))
      (by rw [hcur]; show _ ≤ s.capBits; omega)
    refine ⟨?_, hd'⟩
    rw [List.length_cons, ← Nat.add_assoc, microLoop_step (fetchEntry_of_drop hw hd) hstep hrun, hloop]
    rfl

/-- A run of fields that do not all fit, encoded: BOUNDS at the first that does not. -/
theorem microLoop_encode_bounds {d : Descriptor} {y : Instr} {ys : List Instr} (hlen : d.length ≤ 64)
    (xs : List Instr) : ∀ {s : State} (n : Nat), decodeLayout s.words = some d →
    d.drop s.dix.toNat = xs ++ y :: ys → s.dir = .enc → s.running = true → (∀ i ∈ xs, Encodable s i) →
    s.cur.toNat ≤ s.capBits → s.capBits < s.cur.toNat + Descriptor.totalWidth xs →
    ∃ zs i, zs ++ [i] <+: xs ∧ s.cur.toNat + Descriptor.totalWidth zs ≤ s.capBits ∧
      microLoop (n + xs.length) s = .next (raise .bounds (encFields zs s)) := by
  induction xs with
  | nil => intro s n _ _ _ _ _ h1 h2; simp only [Descriptor.totalWidth, List.map_nil, List.sum_nil] at h2; omega
  | cons i rest ih =>
    intro s n hw hd hdir hrun he h0 hc
    rw [totalWidth_cons] at hc
    by_cases hfit : s.cur.toNat + i.width ≤ s.capBits
    · have hstep := entryStep_encode hdir (he i (List.mem_cons_self ..)) hfit
      have hcur := encOne_cur hfit
      have hnext : d.drop (s.dix + 1).toNat = rest ++ y :: ys := by
        cases rest with
        | nil => exact (dix_next hlen hd).2
        | cons z zs => exact (dix_next hlen hd).2
      obtain ⟨zs, j, hpre, hz, hloop⟩ := ih (s := encOne i s) n hw hnext hdir hrun
        (fun j hj => (he j (List.mem_cons_of_mem _ hj)).congr rfl rfl rfl (by simp [encOne]))
        (by rw [hcur]; exact hfit) (by rw [hcur]; show s.capBits < _; omega)
      refine ⟨i :: zs, j, ?_, ?_, ?_⟩
      · obtain ⟨r, hr⟩ := hpre; exact ⟨r, by rw [← hr]; rfl⟩
      · rw [hcur] at hz; rw [totalWidth_cons]; change _ ≤ s.capBits at hz; omega
      · rw [List.length_cons, ← Nat.add_assoc, microLoop_step (fetchEntry_of_drop hw hd) hstep hrun, hloop]; rfl
    · have hstep := entryStep_exceeds (i := i) (s := s) (he i (List.mem_cons_self ..)).1 (by omega)
      refine ⟨[], i, ⟨rest, rfl⟩, by simpa [Descriptor.totalWidth] using h0, ?_⟩
      rw [List.length_cons, ← Nat.add_assoc]
      exact microLoop_last (fetchEntry_of_drop hw hd) hstep rfl

/-! ### Runs of fields, decoded -/

/-- A list of fields decoded one after the other. -/
def decFields : List Instr → State → State
  | [], s => s
  | i :: rest, s => decFields rest (decOne i s)

theorem decOne_eq (i : Instr) (s : State) :
    decOne i s = { s with
      mem := (decOne i s).mem, cur := s.cur + BitVec.ofNat 32 i.width, dix := s.dix + 1, cnt := (decOne i s).cnt } := by
  unfold decOne; split <;> rfl

theorem decOne_buffer (i : Instr) (s : State) : SameBuffer s.mem (decOne i s).mem := by
  unfold decOne; split <;> exact ⟨rfl, rfl⟩

theorem decOne_cur {i : Instr} {s : State} (hc : s.cur.toNat + i.width ≤ s.capBits) :
    (decOne i s).cur.toNat = s.cur.toNat + i.width := by
  rw [decOne_eq]; exact advance_cur_toNat (s := s) hc

theorem decOne_slot? (i : Instr) (s : State) (a : Nat) : (decOne i s).mem.slot? a =
    if i.slot?.isSome ∧ a = slotAddress s i then some (decodedSlot s.mem s.cur.toNat i) else s.mem.slot? a := by
  unfold decOne
  by_cases h : i.slot?.isSome = true
  · rw [if_pos h]; simp [Memory.slot?_setSlot, h]
  · rw [if_neg h, if_neg (by tauto)]; rfl

/-- Decoding fields changes the struct, CUR, DIX and CNT alone. -/
theorem decFields_eq (xs : List Instr) : ∀ s : State,
    decFields xs s = { s with
      mem := (decFields xs s).mem, cur := (decFields xs s).cur, dix := (decFields xs s).dix,
      cnt := (decFields xs s).cnt } := by
  induction xs with
  | nil => intro s; rfl
  | cons i rest ih =>
    intro s
    have h := ih (decOne i s)
    rw [decOne_eq] at h
    rw [decFields, decOne_eq]
    exact h

theorem decFields_buffer (xs : List Instr) : ∀ s : State, SameBuffer s.mem (decFields xs s).mem := by
  induction xs with
  | nil => intro s; exact .refl _
  | cons i rest ih => intro s; exact (decOne_buffer i s).trans (ih (decOne i s))

theorem decFields_append (xs ys : List Instr) : ∀ s : State,
    decFields (xs ++ ys) s = decFields ys (decFields xs s) := by
  induction xs with
  | nil => intro s; rfl
  | cons i rest ih => intro s; exact ih (decOne i s)

theorem decOne_capBits (i : Instr) (s : State) : (decOne i s).capBits = s.capBits := by rw [decOne_eq]; rfl

theorem decFields_cur (xs : List Instr) : ∀ {s : State}, s.cur.toNat + Descriptor.totalWidth xs ≤ s.capBits →
    (decFields xs s).cur.toNat = s.cur.toNat + Descriptor.totalWidth xs := by
  induction xs with
  | nil => intro s _; simp [decFields, Descriptor.totalWidth]
  | cons i rest ih =>
    intro s h
    rw [totalWidth_cons] at h
    have hc := decOne_cur (i := i) (s := s) (by omega)
    have := ih (s := decOne i s) (by rw [hc, decOne_capBits]; omega)
    rw [totalWidth_cons]
    simp only [decFields]
    omega

theorem decOne_cnt (i : Instr) (s : State) : (decOne i s).cnt =
    if Descriptor.isCount i then decodedSlot s.mem s.cur.toNat i else s.cnt := by
  cases i <;> rfl

theorem decFields_cnt {xs : List Instr} (h : ∀ i ∈ xs, Descriptor.isCount i = false) : ∀ s : State,
    (decFields xs s).cnt = s.cnt := by
  induction xs with
  | nil => intro s; rfl
  | cons i rest ih =>
    intro s
    refine (ih (fun j hj => h j (List.mem_cons_of_mem _ hj)) (decOne i s)).trans ?_
    rw [decOne_cnt, h i (List.mem_cons_self ..)]; rfl

theorem decodedSlot_congr {m m' : Memory} (h : SameBuffer m m') (pos : Nat) (i : Instr) :
    decodedSlot m' pos i = decodedSlot m pos i := by
  unfold decodedSlot; rw [h.readField_eq]

theorem Decodable.congr {s t : State} {pos : Nat} {i : Instr} (h : Decodable s pos i) (h1 : t.inrep = s.inrep)
    (h2 : t.recIx = s.recIx) (h3 : t.params = s.params) (h4 : SameBuffer s.mem t.mem) (h5 : t.mt = s.mt) :
    Decodable t pos i := by
  obtain ⟨hf, hr, hv, htc, hti⟩ := h
  have hec : t.expClass = s.expClass := by unfold State.expClass; rw [h5, h3]
  have hei : t.expId = s.expId := by unfold State.expId; rw [h5, h3]
  refine ⟨hf, hr.congr h1 h2 h3, fun hs q hq hq' => ?_, fun w a hi => ?_, fun w a hi => ?_⟩
  · rw [h4.bit?_eq]; exact hv hs q hq hq'
  · rw [h4.readField_eq, hec]; exact htc w a hi
  · rw [h4.readField_eq, hei]; exact hti w a hi

/-- The slots after a run of decoded fields: one no field names stays; with the named slots distinct, each holds its
field's value. -/
theorem decFields_slots (xs : List Instr) : ∀ {s : State},
    s.cur.toNat + Descriptor.totalWidth xs ≤ s.capBits →
    (∀ a, (∀ i ∈ xs, i.slot?.isSome → a ≠ slotAddress s i) → (decFields xs s).mem.slot? a = s.mem.slot? a) ∧
    (((xs.filter fun i => i.slot?.isSome).map (slotAddress s)).Nodup →
      ∀ p ∈ placed s.cur.toNat xs, p.2.slot?.isSome →
        (decFields xs s).mem.slot? (slotAddress s p.2) = some (decodedSlot s.mem p.1 p.2)) := by
  induction xs with
  | nil => intro s _; exact ⟨fun _ _ => rfl, fun _ p hp => by cases hp⟩
  | cons i rest ih =>
    intro s hc
    rw [totalWidth_cons] at hc
    have hcur := decOne_cur (i := i) (s := s) (by omega)
    have haddr : ∀ j, slotAddress (decOne i s) j = slotAddress s j :=
      fun j => slotAddress_congr (by rw [decOne_eq]) (by rw [decOne_eq]) j
    obtain ⟨hkeep, hset⟩ := ih (s := decOne i s) (by rw [hcur, decOne_capBits]; omega)
    rw [hcur] at hset
    simp only [haddr] at hkeep
    have hset' : ((rest.filter fun i => i.slot?.isSome).map (slotAddress s)).Nodup →
      ∀ p ∈ placed (s.cur.toNat + i.width) rest, p.2.slot?.isSome →
        (decFields rest (decOne i s)).mem.slot? (slotAddress s p.2) = some (decodedSlot s.mem p.1 p.2) := by
      intro hn p hp hs
      have := hset (by rw [List.map_congr_left fun j _ => haddr j]; exact hn) p hp hs
      rwa [haddr, decodedSlot_congr (decOne_buffer i s)] at this
    refine ⟨fun a ha => ?_, fun hn p hp hs => ?_⟩
    · simp only [decFields]
      rw [hkeep a fun j hj => ha j (List.mem_cons_of_mem _ hj), decOne_slot?, if_neg]
      rintro ⟨h1, h2⟩
      exact ha i (List.mem_cons_self ..) h1 h2
    · simp only [placed, List.mem_cons] at hp
      simp only [decFields]
      rcases hp with rfl | hp
      · simp only at hs ⊢
        rw [List.filter_cons_of_pos (by simpa using hs), List.map_cons, List.nodup_cons] at hn
        rw [hkeep, decOne_slot?, if_pos ⟨hs, rfl⟩]
        intro j hj hjs heq
        exact hn.1 (heq ▸ List.mem_map_of_mem (List.mem_filter.2 ⟨hj, by simpa using hjs⟩))
      · refine hset' ?_ p hp hs
        by_cases hi : i.slot?.isSome = true
        · rw [List.filter_cons_of_pos (by simpa using hi), List.map_cons, List.nodup_cons] at hn
          exact hn.2
        · rwa [List.filter_cons_of_neg (by simpa using hi)] at hn

/-- A run of fields that fit, decoded: as many micro-steps as fields, none of which ends the command. -/
theorem microLoop_decode {d : Descriptor} {y : Instr} {ys : List Instr} (hlen : d.length ≤ 64) (xs : List Instr) :
    ∀ {s : State} (n : Nat), decodeLayout s.words = some d → d.drop s.dix.toNat = xs ++ y :: ys → s.dir = .dec →
    s.running = true → (∀ p ∈ placed s.cur.toNat xs, Decodable s p.1 p.2) →
    s.cur.toNat + Descriptor.totalWidth xs ≤ s.capBits →
    microLoop (n + xs.length) s = microLoop n (decFields xs s) ∧
      d.drop (decFields xs s).dix.toNat = y :: ys := by
  induction xs with
  | nil => intro s n _ hd _ _ _ _; exact ⟨rfl, hd⟩
  | cons i rest ih =>
    intro s n hw hd hdir hrun he hc
    rw [totalWidth_cons] at hc
    have hstep := entryStep_decode (i := i) hdir (he (s.cur.toNat, i) (List.mem_cons_self ..)) (by omega)
    have hcur := decOne_cur (i := i) (s := s) (by omega)
    have hnext : d.drop (s.dix + 1).toNat = rest ++ y :: ys := by
      cases rest with
      | nil => exact (dix_next hlen hd).2
      | cons z zs => exact (dix_next hlen hd).2
    have hw' : (decOne i s).words = s.words := by rw [decOne_eq]; rfl
    have hx : (decOne i s).dix = s.dix + 1 := by rw [decOne_eq]
    have hr' : (decOne i s).running = true := by rw [decOne_eq]; exact hrun
    obtain ⟨hloop, hd'⟩ := ih (s := decOne i s) n (by rw [hw']; exact hw) (by rw [hx]; exact hnext)
      (by rw [decOne_eq]; exact hdir) hr'
      (fun p hp => (he p (List.mem_cons_of_mem _ (hcur ▸ hp))).congr (by rw [decOne_eq]) (by rw [decOne_eq])
        (by rw [decOne_eq]) (decOne_buffer i s) (by rw [decOne_eq]))
      (by rw [hcur, decOne_capBits]; omega)
    refine ⟨?_, hd'⟩
    rw [List.length_cons, ← Nat.add_assoc, microLoop_step (fetchEntry_of_drop hw hd) hstep hr', hloop]
    rfl

/-- A run of fields that do not all fit, decoded: BOUNDS at the first that does not. Only the fields that fit are read. -/
theorem microLoop_decode_bounds {d : Descriptor} {y : Instr} {ys : List Instr} (hlen : d.length ≤ 64)
    (xs : List Instr) : ∀ {s : State} (n : Nat), decodeLayout s.words = some d →
    d.drop s.dix.toNat = xs ++ y :: ys → s.dir = .dec → s.running = true → (∀ i ∈ xs, isField i = true) →
    (∀ p ∈ placed s.cur.toNat xs, p.1 + p.2.width ≤ s.capBits → Decodable s p.1 p.2) →
    s.cur.toNat ≤ s.capBits → s.capBits < s.cur.toNat + Descriptor.totalWidth xs →
    ∃ zs i, zs ++ [i] <+: xs ∧ s.cur.toNat + Descriptor.totalWidth zs ≤ s.capBits ∧
      microLoop (n + xs.length) s = .next (raise .bounds (decFields zs s)) := by
  induction xs with
  | nil => intro s n _ _ _ _ _ _ h1 h2; simp only [Descriptor.totalWidth, List.map_nil, List.sum_nil] at h2; omega
  | cons i rest ih =>
    intro s n hw hd hdir hrun hf he h0 hc
    rw [totalWidth_cons] at hc
    by_cases hfit : s.cur.toNat + i.width ≤ s.capBits
    · have hstep := entryStep_decode (i := i) hdir (he (s.cur.toNat, i) (List.mem_cons_self ..) hfit) hfit
      have hcur := decOne_cur hfit
      have hnext : d.drop (s.dix + 1).toNat = rest ++ y :: ys := by
        cases rest with
        | nil => exact (dix_next hlen hd).2
        | cons z zs => exact (dix_next hlen hd).2
      have hw' : (decOne i s).words = s.words := by rw [decOne_eq]; rfl
      have hx : (decOne i s).dix = s.dix + 1 := by rw [decOne_eq]
      have hr' : (decOne i s).running = true := by rw [decOne_eq]; exact hrun
      obtain ⟨zs, j, hpre, hz, hloop⟩ := ih (s := decOne i s) n (by rw [hw']; exact hw) (by rw [hx]; exact hnext)
        (by rw [decOne_eq]; exact hdir) hr' (fun k hk => hf k (List.mem_cons_of_mem _ hk))
        (fun p hp hfit' => (he p (List.mem_cons_of_mem _ (hcur ▸ hp)) (by rwa [decOne_capBits] at hfit')).congr
          (by rw [decOne_eq]) (by rw [decOne_eq]) (by rw [decOne_eq]) (decOne_buffer i s) (by rw [decOne_eq]))
        (by rw [hcur, decOne_capBits]; exact hfit) (by rw [hcur, decOne_capBits]; omega)
      refine ⟨i :: zs, j, ?_, ?_, ?_⟩
      · obtain ⟨r, hr⟩ := hpre; exact ⟨r, by rw [← hr]; rfl⟩
      · rw [hcur, decOne_capBits] at hz; rw [totalWidth_cons]; omega
      · rw [List.length_cons, ← Nat.add_assoc, microLoop_step (fetchEntry_of_drop hw hd) hstep hr', hloop]; rfl
    · have hstep := entryStep_exceeds (i := i) (s := s) (hf i (List.mem_cons_self ..)) (by omega)
      refine ⟨[], i, ⟨rest, rfl⟩, by simpa [Descriptor.totalWidth] using h0, ?_⟩
      rw [List.length_cons, ← Nat.add_assoc]
      exact microLoop_last (fetchEntry_of_drop hw hd) hstep rfl

theorem bitsWritten_of_readField {m : Memory} {pos w : Nat} {v : Slot} (h64 : w ≤ 64)
    (hv : m.readField w pos 0 = .ok v) : BitsWritten m pos (pos + w) :=
  (fieldHolds_of_readField h64 hv).bitsWritten

/-- What a field that answers on decode has done: BOUNDS raised, a tag that differs, or its whole effect, its bits then
within the capacity and holding values and its tag the expected one. -/
theorem entryStep_decode_next {i : Instr} {s t : State} (hf : isField i = true) (hd : s.dir = .dec)
    (h : entryStep i s = .next t) :
    t = raise .bounds s ∨ (t = finish .typeMismatch (consume i.width s)) ∨
      (s.cur.toNat + i.width ≤ s.capBits ∧ Decodable s s.cur.toNat i ∧ t = decOne i s) := by
  have h64 := (width_of_isField hf).2
  by_cases hc : s.cur.toNat + i.width ≤ s.capBits
  swap
  · rw [entryStep_exceeds hf (by omega)] at h
    exact .inl (Host.Outcome.next.inj h).symm
  have whole : Decodable s s.cur.toNat i →
      s.cur.toNat + i.width ≤ s.capBits ∧ Decodable s s.cur.toNat i ∧ t = decOne i s := fun he => by
    rw [entryStep_decode hd he hc] at h
    exact ⟨hc, he, (Host.Outcome.next.inj h).symm⟩
  cases i <;> simp only [isField, Bool.false_eq_true] at hf <;> simp only [Instr.width] at hc h64
  case rsv w =>
    exact .inr (.inr (whole ⟨rfl, trivial, fun h => (Bool.false_ne_true h).elim, (fun _ _ h => nomatch h),
      (fun _ _ h => nomatch h)⟩))
  all_goals
    simp only [entryStep, execFld, execTagc, execTagi, execCntf, decodeField] at h
    rw [hd] at h
    simp only at h
    rw [check_of_fits hc] at h
  case fld sgn w a =>
    obtain ⟨b, hb, h⟩ := withAddress_next h
    obtain ⟨v, hv, _⟩ := getField_next h
    refine .inr (.inr (whole ⟨rfl, fun hin => ?_, fun _ => bitsWritten_of_readField h64 hv, (fun _ _ h => nomatch h),
      (fun _ _ h => nomatch h)⟩))
    rcases fieldAddress_ok hb with ⟨hi, _⟩ | ⟨_, h16, hr, _⟩
    · rw [hin] at hi; cases hi
    · exact ⟨h16, hr⟩
  case cntf w a =>
    obtain ⟨v, hv, _⟩ := getField_next h
    exact .inr (.inr (whole ⟨rfl, trivial, fun _ => bitsWritten_of_readField h64 hv, (fun _ _ h => nomatch h),
      (fun _ _ h => nomatch h)⟩))
  all_goals
    obtain ⟨v, hv, h⟩ := getField_next h
    split at h
    · exact .inr (.inl (Host.Outcome.next.inj h).symm)
    · rename_i hne
      rw [Decidable.not_not.1 hne] at hv
      refine .inr (.inr (whole ⟨rfl, trivial, fun _ => bitsWritten_of_readField h64 hv, ?_, ?_⟩)) <;>
        intro w' a' he <;> first | cases he; exact hv | nomatch he

/-- What a run of fields that answers on decode has done: BOUNDS raised, a tag that differs, or every field's whole
effect. -/
theorem microLoop_decode_next {d : Descriptor} {y : Instr} {ys : List Instr} (hlen : d.length ≤ 64) (xs : List Instr) :
    ∀ {s t : State} (n : Nat), decodeLayout s.words = some d → d.drop s.dix.toNat = xs ++ y :: ys → s.dir = .dec →
    s.running = true → (∀ i ∈ xs, isField i = true) → microLoop (n + xs.length) s = .next t →
    (∃ zs, t = raise .bounds (decFields zs s)) ∨
    (∃ zs w, t = finish .typeMismatch (consume w (decFields zs s))) ∨
    (s.cur.toNat + Descriptor.totalWidth xs ≤ max s.cur.toNat s.capBits ∧
      (∀ p ∈ placed s.cur.toNat xs, Decodable s p.1 p.2) ∧ microLoop n (decFields xs s) = .next t) := by
  induction xs with
  | nil =>
    intro s t n _ _ _ _ _ h
    exact .inr (.inr ⟨by simp [Descriptor.totalWidth], fun p hp => (List.not_mem_nil hp).elim, h⟩)
  | cons i rest ih =>
    intro s t n hw hd hdir hrun hf h
    have hfetch := fetchEntry_of_drop hw hd
    rw [List.length_cons, ← Nat.add_assoc] at h
    cases hs : entryStep i s with
    | fault r => simp [microLoop, microStep, hfetch, hs] at h
    | refused r => simp [microLoop, microStep, hfetch, hs] at h
    | next u =>
      rcases entryStep_decode_next (hf i (List.mem_cons_self ..)) hdir hs with rfl | rfl | ⟨hfit, he, rfl⟩
      · rw [microLoop_last hfetch hs rfl] at h
        exact .inl ⟨[], (Host.Outcome.next.inj h).symm⟩
      · rw [microLoop_last hfetch hs rfl] at h
        exact .inr (.inl ⟨[], _, (Host.Outcome.next.inj h).symm⟩)
      · have hcur := decOne_cur hfit
        have hnext : d.drop (s.dix + 1).toNat = rest ++ y :: ys := by
          cases rest with
          | nil => exact (dix_next hlen hd).2
          | cons z zs => exact (dix_next hlen hd).2
        have hw' : (decOne i s).words = s.words := by rw [decOne_eq]; rfl
        have hx : (decOne i s).dix = s.dix + 1 := by rw [decOne_eq]
        have hr' : (decOne i s).running = true := by rw [decOne_eq]; exact hrun
        rw [microLoop_step hfetch hs hr'] at h
        rcases ih (s := decOne i s) n (by rw [hw']; exact hw) (by rw [hx]; exact hnext) (by rw [decOne_eq]; exact hdir)
          hr' (fun j hj => hf j (List.mem_cons_of_mem _ hj)) h with ⟨zs, ht⟩ | ⟨zs, w, ht⟩ | ⟨hc, hp, hl⟩
        · exact .inl ⟨i :: zs, ht⟩
        · exact .inr (.inl ⟨i :: zs, w, ht⟩)
        · rw [hcur, decOne_capBits] at hc
          refine .inr (.inr ⟨by rw [totalWidth_cons]; omega, fun p hp' => ?_, hl⟩)
          simp only [placed, List.mem_cons] at hp'
          rcases hp' with rfl | hp'
          · exact he
          · exact (hp p (by rw [hcur]; exact hp')).congr (by rw [decOne_eq]) (by rw [decOne_eq]) (by rw [decOne_eq])
              ⟨(decOne_buffer i s).1.symm, (decOne_buffer i s).2.symm⟩ (by rw [decOne_eq])

end Sys2Proof.Machine
end

