-- ==== Sys2Proof/Laws/Exec.lean ====
section
/-!
SUPPORT. What an instruction and a step can do, said once: if it answers a next state, one of these cases holds.
-/

namespace Sys2Proof.Machine

open Sys2Proof

/-- CUR after a field that was put. -/
theorem putField_cur_toNat {w : Nat} {v} {s : State} (h : s.cur.toNat + w ≤ s.capBits) :
    (putField w v s).cur.toNat = s.cur.toNat + w := advance_cur_toNat (s := s) h

/-- The slot an FLD names, where it exists. -/
theorem fieldAddress_of_namesSlot {s : State} {slot a} (h : NamesSlot s slot a) : fieldAddress slot s = .ok a := by
  unfold fieldAddress
  rcases h with ⟨hi, rfl⟩ | ⟨hi, h16, hr, rfl⟩
  · simp [hi]
  · simp [hi, recStride, h16, hr, recordAddress, nslot]

/-- Ending a decode leaves BUF. -/
theorem finish_sameBuffer (st) (s : State) : SameBuffer s.mem (finish st s).mem := by
  cases st <;> simp [finish, SameBuffer]

/-- Ending a decode leaves every slot the descriptor does not name. -/
theorem finish_slot?_unnamed (st) (s : State) (b) (hb : b ∉ namedSlots s.descriptor s.params.maxsat.toNat) :
    (finish st s).mem.slot? b = s.mem.slot? b := by
  cases st <;> simp [finish, Memory.slot?_scramble, hb]

/-- A descriptor entry executed is its micro-step. -/
theorem exec_entry {i : Instr} {s : State} (hi : i.isCommand = false) : exec i s = entryStep i s := by
  cases i <;> first | rfl | cases hi

/-- A decode micro-step leaves BUF. -/
theorem MicroEffect.decode_buffer {s t : State} (h : MicroEffect s t)
    (hd : s.dir = .dec) : SameBuffer s.mem t.mem ∧ t.dir = .dec := by
  cases h with
  | mismatch w => exact ⟨finish_sameBuffer .typeMismatch (consume w s), by simp [hd]⟩
  | invalid => exact ⟨finish_sameBuffer .invalidMessage s, by simp [hd]⟩
  | put _ _ _ h => rw [hd] at h; cases h
  | _ => simp [SameBuffer, hd, finish, Memory.setSlot]

/-- An encode micro-step leaves the struct. -/
theorem MicroEffect.encode_slots {s t : State} (h : MicroEffect s t)
    (hd : s.dir = .enc) : t.mem.slots = s.mem.slots ∧ t.dir = .enc := by
  cases h with
  | put => simp [hd]
  | mismatch w h | invalid h | skipped _ h | stored _ _ _ _ h | finishedOk h => rw [hd] at h; cases h
  | _ => simp [hd]

/-- A micro-step writes no bit at or past the capacity. -/
theorem MicroEffect.outside {s t : State} (h : MicroEffect s t) : SameOutside s.mem t.mem 0 s.capBits ∧
    t.capBits = s.capBits := by
  cases h with
  | put w v c hd h1 h64 h => exact ⟨fun q hq => sameOutside_writeField s.mem v h1 h64 q (by omega), rfl⟩
  | mismatch w => exact ⟨fun q _ => SameBuffer.bit?_eq (finish_sameBuffer .typeMismatch (consume w s)) q, rfl⟩
  | invalid => exact ⟨fun q _ => SameBuffer.bit?_eq (finish_sameBuffer .invalidMessage s) q, rfl⟩
  | _ => exact ⟨fun q _ => rfl, rfl⟩

/-- A micro-step clears no bit of FAULT. -/
theorem MicroEffect.fault_kept {s t : State} (h : MicroEffect s t) : s.fault &&& t.fault = s.fault := by
  have : ∀ a b : BitVec 4, a &&& (a ||| b) = a := by decide
  cases h <;> simp [this]

/-- A message command: ignored, or the sequencer's run. -/
theorem message_next {i : Instr} (hi : i ∈ [Instr.encRawx, .decRawx, .encEph,
    .decEph]) {s t : State} (h : exec i s = .next t) :
    (s.fault ≠ 0 ∧ t = s) ∨ (s.fault = 0 ∧ ∃ mt dir, runCommand mt dir s = .next t ∧
        (dir = .enc ↔ i = .encRawx ∨ i = .encEph)
       ∧ (mt = .rawx ↔ i = .encRawx ∨ i = .decRawx) ∧ (mt = .eph → s.params.ok = true)) := by
  simp only [List.mem_cons, List.not_mem_nil, or_false] at hi
  rcases hi with rfl | rfl | rfl | rfl <;> simp only [exec, execEncRawx, execDecRawx, execEncEph, execDecEph] at h <;>
   rcases unlessHalted_next h with h | ⟨h0, h⟩ <;> try (exact .inl h)
  all_goals refine .inr ⟨h0, ?_⟩
  · exact ⟨_, _, h, by simp⟩
  · exact ⟨_, _, h, by simp⟩
  all_goals
    unfold withEphLayout at h
    split at h
    · exact ⟨_, _, h, by simp [*]⟩
    · cases h

/-- What holds at a command's start and is kept by every micro-step holds at its end. -/
theorem runCommand_induction {P : State → Prop} {mt dir} {s t : State} (h : runCommand mt dir s = .next t)
    (h0 : P (startCommand mt dir s)) (hs : ∀ u v, P u → MicroEffect u v → P v) : P t ∧ t.running = false := by
  unfold runCommand at h
  refine microLoop_induction (P := P) (fun u v hu hm => ?_) _ _ _ h0 h
  obtain ⟨i, _, hi⟩ := microStep_next hm
  exact hs u v hu (entryStep_effect hi)

/-- A run that a fault has stopped has changed the memories, FAULT and the sequencer alone (60 R131). -/
theorem microLoop_faulted : ∀ (n : Nat) {s t : State}, microLoop n s = .next t → s.fault = 0 → t.fault ≠ 0 →
    t = { s.sequencedAs t with mem := t.mem, fault := t.fault } := by
  intro n
  induction n with
  | zero => intro s t h; cases h
  | succ n ih =>
    intro s t h h0 hf
    simp only [microLoop] at h
    split at h
    · rename_i u hu
      obtain ⟨i, _, hi⟩ := microStep_next hu
      have he := entryStep_effect hi
      split at h
      · rename_i hru
        have hu : u = { s.sequencedAs u with mem := u.mem } := by
          cases he <;> first | rfl | simp at hru
        have := ih h (by rw [hu]; exact h0) hf
        rw [this, hu]; rfl
      · simp only [Host.Outcome.next.injEq] at h; subst h
        cases he <;> first | rfl | exact absurd h0 hf
    · cases h
    · cases h

/-- What a message command that a fault has stopped leaves: nothing past the capacity is written, the memory it reads
from is as it was, and of the registers FAULT and the sequencer alone have changed. -/
theorem runCommand_faulted {mt : MsgType} {dir : Direction} {s t : State} (h : runCommand mt dir s = .next t)
    (h0 : s.fault = 0) (hf : t.fault ≠ 0) :
    t = { s.sequencedAs t with mem := t.mem, fault := t.fault } ∧ t.running = false ∧
    SameOutside s.mem t.mem 0 s.capBits ∧ (dir = .enc → t.mem.slots = s.mem.slots) ∧
    (dir = .dec → SameBuffer s.mem t.mem) := by
  have h1 := microLoop_faulted _ h h0 hf
  obtain ⟨⟨_, _, h3, h4, h5⟩, h6⟩ := runCommand_induction
    (P := fun u => u.dir = dir ∧ u.capBits = s.capBits ∧ SameOutside s.mem u.mem 0 s.capBits ∧
      (dir = .enc → u.mem.slots = s.mem.slots) ∧ (dir = .dec → SameBuffer s.mem u.mem))
    h ⟨rfl, rfl, fun _ _ => rfl, fun _ => rfl, fun _ => .refl _⟩ fun u v ⟨a, b, c, d, e⟩ he => by
      obtain ⟨ho, hcap⟩ := he.outside
      rw [b] at ho
      refine ⟨?_, hcap.trans b, fun q hq => (ho q hq).trans (c q hq), fun hd => ?_, fun hd => ?_⟩
      · cases dir
        · exact (he.encode_slots a).2
        · exact (he.decode_buffer a).2
      · exact (he.encode_slots (a.trans hd)).1.trans (d hd)
      · exact (e hd).trans (he.decode_buffer (a.trans hd)).1
  exact ⟨h1, h6, h3, h4, h5⟩

/-- Everything an instruction that answers a next state can have done. -/
theorem exec_next {i : Instr} {s t : State} (h : exec i s = .next t) :
  (i.isCommand = false ∧ MicroEffect s t) ∨ (i.isCommand = true ∧ s.fault ≠ 0 ∧ t = s) ∨
  (∃ c, (c = .width ∨ c = .bounds) ∧ s.fault = 0 ∧ t = raise c s) ∨
  (∃ (p : BitVec 32) (l : BitVec 8) (v : Slot), (i = .setu p l v ∨ i = .sets p l v) ∧ s.fault = 0 ∧ 1 ≤ l.toNat ∧
      l.toNat ≤ 64 ∧ p.toNat + l.toNat ≤ s.capBits ∧
     t = { s with mem := s.mem.writeField v l.toNat p.toNat }) ∨
  (∃ (p : BitVec 32) (l : BitVec 8) (v : Slot), (i = .getu p l ∨ i = .gets p l) ∧ s.fault = 0 ∧
      t = { s with res := v }) ∨
  (∃ mt dir, s.fault = 0 ∧ runCommand mt dir s = .next t ∧ i ∈ [Instr.encRawx, .decRawx, .encEph, .decEph] ∧
      (dir = .enc ↔ i = .encRawx ∨ i = .encEph)) := by
  by_cases hc : i.isCommand = true
  · right
    cases i <;> simp only [Instr.isCommand, Bool.false_eq_true] at hc
    case encRawx | decRawx | encEph | decEph =>
      rcases message_next (by simp) h with ⟨h0, rfl⟩ | ⟨h0, mt, dir, hr, hd, _⟩
      · exact .inl ⟨rfl, h0, rfl⟩
      · exact .inr (.inr (.inr (.inr ⟨mt, dir, h0, hr, by simp, hd⟩)))
    all_goals
      simp only [exec, execSetu, execSets, execGetu, execGets] at h
      rcases withOperands_next h with ⟨h0, rfl⟩ | ⟨h0, rfl⟩ | ⟨h0, rfl⟩ | ⟨h0, h1, h64, hcap, h⟩
      · exact .inl ⟨rfl, h0, rfl⟩
      · exact .inr (.inl ⟨_, .inl rfl, h0, rfl⟩)
      · exact .inr (.inl ⟨_, .inr rfl, h0, rfl⟩)
      right; right
    · simp only [Host.Outcome.next.injEq] at h; exact .inl ⟨_, _, _, .inl rfl, h0, h1, h64, hcap, h.symm⟩
    · simp only [Host.Outcome.next.injEq] at h; exact .inl ⟨_, _, _, .inr rfl, h0, h1, h64, hcap, h.symm⟩
    all_goals
      obtain ⟨v, _, h⟩ := readOperand_next h
      simp only [Host.Outcome.next.injEq] at h
      exact .inr (.inl ⟨_, _, _, by first | exact .inl rfl | exact .inr rfl, h0, h.symm⟩)
  · have hc' : i.isCommand = false := by simpa using hc
    rw [exec_entry hc'] at h
    exact .inl ⟨hc', entryStep_effect h⟩

/-- A step without a command in progress is the host's next action. -/
theorem step_of_idle {s : State} (h : s.running = false) : step s = stepHost s := by
  unfold step stepNext; rw [h]; simp

/-- The step that takes the host's next action. -/
theorem step_of_action {s : State} {a rest} (h : s.running = false) (hp : s.pending = a :: rest) :
    step s = perform a { s with pending := rest } := by
  rw [step_of_idle h, stepHost, hp]

/-- A step with a command in progress is its next micro-step. -/
theorem step_of_running {s : State} (hr : s.running = true) (h0 : s.fault = 0) : step s = microStep s := by
  unfold step stepNext microStep stepEntry
  rw [if_pos ⟨hr, by simp [State.halted, h0]⟩]
  cases hf : fetchEntry s with
  | none => rfl
  | some i =>
    simp only
    apply exec_entry
    unfold fetchEntry at hf
    split at hf
    · rename_i w _
      cases hd : decodeEntry w with
      | error e => rw [hd] at hf; cases hf
      | ok j => rw [hd] at hf; simp [Except.toOption] at hf; subst hf; exact notCommand_of_decodeEntry hd
    · cases hf

end Sys2Proof.Machine
end

