-- ==== Sys2Proof/Laws/Messages.lean ====
section
/-!
SUPPORT. The two descriptors as entry lists, the repeated block and its loop, and what an entry can do to the sequencer.
-/

namespace Sys2Proof.Machine

open Sys2Proof

/-! ### The RAWX descriptor (30 R54) -/

/-- The entries before the repeated block. -/
def rawxHead : List Instr :=
  [.tagc 7 0, .tagi 7 1, .fld false 63 2, .fld false 15 3, .fld true 15 4, .cntf 7 5, .fld false 7 6, .fld false 7 7,
   .rsv 3]

/-- The entries inside the repeated block. -/
def rawxBody : List Instr :=
  [.fld false 63 0, .fld false 63 1, .fld false 31 2, .fld false 7 3, .fld false 7 4, .fld false 7 5, .fld true 7 6,
   .fld false 7 7, .fld false 15 8, .fld false 7 9, .fld false 7 10, .fld false 7 11, .fld false 7 12, .rsv 7]

/-- The RAWX descriptor. -/
def rawxEntries : Descriptor := rawxHead ++ [.repb] ++ rawxBody ++ [.repe, .endDesc]

theorem decodeLayout_rawx : decodeLayout rawxWords = some rawxEntries := by decide

theorem rawx_findRepe : rawxWords.findIdx? (· == 0xE000) = some 24 := by decide

theorem microBound_rawx (maxsat : Nat) : microBound rawxEntries maxsat = 12 + 15 * maxsat := by
  have h1 : rawxEntries.outside.length = 10 := by decide
  have h2 : rawxEntries.inside.length = 14 := by decide
  unfold microBound; rw [h1, h2]; omega

theorem rawxHead_width : Descriptor.totalWidth rawxHead = 140 := by decide

theorem rawxBody_width : Descriptor.totalWidth rawxBody = 256 := by decide

theorem rawxBody_isField : ∀ i ∈ rawxBody, isField i = true := by decide

theorem rawxHead_isField : ∀ i ∈ rawxHead, isField i = true := by decide

theorem rawxBody_noCount : ∀ i ∈ rawxBody, Descriptor.isCount i = false := by decide

/-! ### The EPH descriptor (30 R55) -/

theorem takeWhile_eq_self {α : Type} {p : α → Bool} : ∀ {l : List α}, (∀ x ∈ l, p x = true) → l.takeWhile p = l
  | [], _ => rfl
  | x :: xs, h => by
    rw [List.takeWhile_cons_of_pos (h x (List.mem_cons_self ..)),
      takeWhile_eq_self fun y hy => h y (List.mem_cons_of_mem _ hy)]

theorem dropWhile_eq_nil {α : Type} {p : α → Bool} : ∀ {l : List α}, (∀ x ∈ l, p x = true) → l.dropWhile p = []
  | [], _ => rfl
  | x :: xs, h => by
    rw [List.dropWhile_cons_of_pos (h x (List.mem_cons_self ..)),
      dropWhile_eq_nil fun y hy => h y (List.mem_cons_of_mem _ hy)]

/-- Without a REPB the whole descriptor lies outside a repeated block. -/
theorem outside_of_noRepeat {d : Descriptor} (h : ∀ i ∈ d, i ≠ .repb) : d.outside = d ∧ d.inside = [] := by
  have h' : ∀ i ∈ d, (fun i => decide (i ≠ Instr.repb)) i = true := fun i hi => by simpa using h i hi
  have hb : d.before = d := takeWhile_eq_self h'
  have ha : d.afterRepb = [] := by unfold Descriptor.afterRepb; rw [dropWhile_eq_nil h']; rfl
  unfold Descriptor.outside Descriptor.behind Descriptor.inside
  rw [hb, ha]; exact ⟨by simp, rfl⟩

/-- A descriptor 30 R55 admits: fields, the two tags first and none behind, then END, with distinct slots. -/
theorem shape_of_ephOk {d : Descriptor} {maxsat : Nat} (h : d.ephOk maxsat = true) :
    ∃ xs, d = xs ++ [.endDesc] ∧ d.length ≤ 64 ∧ (∀ i ∈ xs, isField i = true) ∧
      (∀ i ∈ xs, Descriptor.isCount i = false) ∧ (xs.filterMap Instr.slot?).Nodup ∧
      (∃ a b rest, xs = .tagc 7 a :: .tagi 7 b :: rest ∧ ∀ i ∈ rest, Descriptor.isTag i = false) ∧
      d.outside = d ∧ d.inside = [] := by
  simp only [Descriptor.ephOk, Descriptor.wf, Bool.and_eq_true] at h
  obtain ⟨⟨⟨⟨⟨⟨⟨⟨hend, htag⟩, hrep⟩, hbody⟩, hslots⟩, hsize⟩, hno⟩, hwidth⟩, hres⟩ := h
  simp only [Descriptor.endsOnce, Bool.and_eq_true, decide_eq_true_eq, List.all_eq_true, beq_iff_eq,
    Bool.not_eq_true'] at hend
  obtain ⟨⟨⟨hlen, hcmd⟩, hlast⟩, hcount⟩ := hend
  simp only [Descriptor.noRepeat, List.all_eq_true, Bool.and_eq_true, decide_eq_true_eq, Bool.not_eq_true'] at hno
  obtain ⟨xs, rfl⟩ : ∃ xs, d = xs ++ [.endDesc] := by
    obtain ⟨ys, hy⟩ := List.getLast?_eq_some_iff.1 hlast; exact ⟨ys, hy⟩
  obtain ⟨hout, hin⟩ := outside_of_noRepeat fun i hi => (hno i hi).1.1
  have hno' : ∀ i ∈ xs, i ≠ .repb ∧ i ≠ .repe ∧ Descriptor.isCount i = false := fun i hi =>
    have := hno i (List.mem_append_left _ hi); ⟨this.1.1, this.1.2, this.2⟩
  have hne : Instr.endDesc ∉ xs := by
    intro hm
    rw [List.count_append] at hcount
    have := List.count_pos_iff.2 hm
    simp at hcount
    omega
  refine ⟨xs, rfl, hlen, fun i hi => ?_, fun i hi => (hno' i hi).2.2, ?_, ?_, hout, hin⟩
  · have hc := hcmd i (List.mem_append_left _ hi)
    obtain ⟨h1, h2, _⟩ := hno' i hi
    have h3 : i ≠ .endDesc := fun he => hne (he ▸ hi)
    cases i <;> simp_all [isField, Instr.isCommand]
  · simp only [Descriptor.slotsDistinct, Bool.and_eq_true, decide_eq_true_eq, hout, List.filterMap_append] at hslots
    exact (List.nodup_append.1 hslots.1.1).1
  · unfold Descriptor.tagsFirst at htag
    split at htag
    · rename_i w a w' b rest heq
      simp only [Bool.and_eq_true, beq_iff_eq, List.all_eq_true, Bool.not_eq_true'] at htag
      obtain ⟨⟨hw, hw'⟩, hrest⟩ := htag
      have hw7 : w = 7 := BitVec.eq_of_toNat_eq (by simpa using hw)
      have hw7' : w' = 7 := BitVec.eq_of_toNat_eq (by simpa using hw')
      subst hw7 hw7'
      match xs, heq with
      | [], heq => simp at heq
      | [x], heq => simp at heq
      | x :: y :: zs, heq =>
        simp only [List.cons_append, List.cons.injEq] at heq
        obtain ⟨rfl, rfl, rfl⟩ := heq
        exact ⟨a, b, zs, rfl, fun i hi => hrest i (List.mem_append_left _ hi)⟩
    · cases htag

/-- An EPH command that is not ignored is the loop from its start, over the fields of the layout and END. -/
theorem exec_eph {s : State} (h0 : s.fault = 0) (hok : s.params.ok = true) {d : Descriptor}
    (hd : decodeLayout s.params.ephLayout = some d) :
    ∃ xs M, d = xs ++ [.endDesc] ∧ d.length ≤ 64 ∧ (∀ i ∈ xs, isField i = true) ∧
      (∀ i ∈ xs, Descriptor.isCount i = false) ∧ (xs.filterMap Instr.slot?).Nodup ∧
      (∃ a b rest, xs = .tagc 7 a :: .tagi 7 b :: rest ∧ ∀ i ∈ rest, Descriptor.isTag i = false) ∧
      exec .encEph s = microLoop (M + 1 + xs.length) (startCommand .eph .enc s) ∧
      exec .decEph s = microLoop (M + 1 + xs.length) (startCommand .eph .dec s) := by
  have hok' := hok
  unfold Params.ok at hok'
  rw [hd] at hok'
  obtain ⟨xs, h1, h2, h3, h4, h5, h6, h7, h8⟩ := shape_of_ephOk hok'
  refine ⟨xs, s.params.maxsat.toNat + 2, h1, h2, h3, h4, h5, h6, ?_⟩
  have hdesc : ∀ dir, (startCommand .eph dir s).descriptor = d := fun dir => by
    unfold State.descriptor; show (decodeLayout s.params.ephLayout).getD [] = _; rw [hd]; rfl
  have hb : microBound d s.params.maxsat.toNat = s.params.maxsat.toNat + 2 + 1 + xs.length := by
    unfold microBound; rw [h7, h8, h1]; simp; omega
  constructor <;> simp only [exec, execEncEph, execDecEph] <;> rw [unlessHalted_of_ok h0, withEphLayout, if_pos hok] <;>
    unfold runCommand <;> simp only [hdesc] <;> rw [← hb] <;> rfl

/-! ### What an entry does to the sequencer -/

/-- The sequencer has moved to the next entry, nothing else of it but CUR and, after CNTF, CNT. -/
structure Moves (i : Instr) (s t : State) : Prop where
  running : t.running = s.running
  dix : t.dix = s.dix + 1
  mt : t.mt = s.mt
  dir : t.dir = s.dir
  params : t.params = s.params
  inrep : t.inrep = s.inrep
  recIx : t.recIx = s.recIx
  rpt : t.rpt = s.rpt
  cnt : Descriptor.isCount i = false → t.cnt = s.cnt

/-- A field entry faults, ends the command, or moves on; it is never refused. -/
theorem entryStep_field {i : Instr} (hf : isField i = true) (s : State) :
    (∃ r, entryStep i s = .fault r) ∨ (∃ t, entryStep i s = .next t ∧ t.running = false) ∨
      ∃ t, entryStep i s = .next t ∧ Moves i s t := by
  have hmv : ∀ w, Moves i s (advance w s) := fun w => ⟨rfl, rfl, rfl, rfl, rfl, rfl, rfl, rfl, fun _ => rfl⟩
  have hput : ∀ w v, Moves i s (putField w v s) := fun w v => ⟨rfl, rfl, rfl, rfl, rfl, rfl, rfl, rfl, fun _ => rfl⟩
  have hst : ∀ a v w, Moves i s (storeSlot a v (advance w s)) :=
    fun a v w => ⟨rfl, rfl, rfl, rfl, rfl, rfl, rfl, rfl, fun _ => rfl⟩
  have hraise : (raise .bounds s).running = false := rfl
  have hsc : ∀ w slot (k : Slot → State → Result), (∀ v, ∃ t, k v (putField w v s) = .next t ∧ Moves i s t) →
      (∃ r, encodeScalar w slot s k = .fault r) ∨ (∃ t, encodeScalar w slot s k = .next t ∧ t.running = false) ∨
        ∃ t, encodeScalar w slot s k = .next t ∧ Moves i s t := by
    intro w slot k hk
    unfold encodeScalar check readSlot
    split
    · exact .inr (.inl ⟨_, rfl, hraise⟩)
    · beta_reduce
      split
      · exact .inl ⟨_, rfl⟩
      · exact .inr (.inr (hk _))
  have hdf : ∀ w (k : Slot → State → Result),
      (∀ v, (∃ t, k v (consume w s) = .next t ∧ t.running = false) ∨ ∃ t, k v (consume w s) = .next t ∧ Moves i s t) →
      (∃ r, decodeField w s k = .fault r) ∨ (∃ t, decodeField w s k = .next t ∧ t.running = false) ∨
        ∃ t, decodeField w s k = .next t ∧ Moves i s t := by
    intro w k hk
    unfold decodeField check getField
    split
    · exact .inr (.inl ⟨_, rfl, hraise⟩)
    · beta_reduce
      split
      · exact .inl ⟨_, rfl⟩
      · exact .inr (hk _)
  cases i <;> simp only [isField, Bool.false_eq_true] at hf
  case fld sgn w a =>
    simp only [entryStep, execFld]
    split <;> unfold check withAddress
    · split
      · exact .inr (.inl ⟨_, rfl, hraise⟩)
      · beta_reduce
        split
        · exact .inl ⟨_, rfl⟩
        · unfold readSlot
          split
          · exact .inl ⟨_, rfl⟩
          · exact .inr (.inr ⟨_, rfl, hput _ _⟩)
    · split
      · exact .inr (.inl ⟨_, rfl, hraise⟩)
      · beta_reduce
        split
        · exact .inl ⟨_, rfl⟩
        · unfold getField
          split
          · exact .inl ⟨_, rfl⟩
          · exact .inr (.inr ⟨_, rfl, hst _ _ _⟩)
  case rsv w =>
    simp only [entryStep, execRsv]
    split <;> unfold check <;> split
    · exact .inr (.inl ⟨_, rfl, hraise⟩)
    · exact .inr (.inr ⟨_, rfl, hput _ _⟩)
    · exact .inr (.inl ⟨_, rfl, hraise⟩)
    · exact .inr (.inr ⟨_, rfl, hmv _⟩)
  case tagc w a =>
    simp only [entryStep, execTagc]
    split
    · exact hsc _ _ _ fun v => ⟨_, rfl, hput _ _⟩
    · refine hdf _ _ fun v => ?_
      split
      · exact .inl ⟨_, rfl, rfl⟩
      · exact .inr ⟨_, rfl, hst _ _ _⟩
  case tagi w a =>
    simp only [entryStep, execTagi]
    split
    · exact hsc _ _ _ fun v => ⟨_, rfl, hput _ _⟩
    · refine hdf _ _ fun v => ?_
      split
      · exact .inl ⟨_, rfl, rfl⟩
      · exact .inr ⟨_, rfl, hst _ _ _⟩
  case cntf w a =>
    simp only [entryStep, execCntf]
    split
    · exact hsc _ _ _ fun v =>
        ⟨_, rfl, ⟨rfl, rfl, rfl, rfl, rfl, rfl, rfl, rfl, fun h => by simp [Descriptor.isCount] at h⟩⟩
    · exact hdf _ _ fun v =>
        .inr ⟨_, rfl, ⟨rfl, rfl, rfl, rfl, rfl, rfl, rfl, rfl, fun h => by simp [Descriptor.isCount] at h⟩⟩

/-- Everything a run of fields can do to the sequencer: stop on a fault of the model, end the command, or move past them. -/
theorem microLoop_fields {d : Descriptor} {y : Instr} {ys : List Instr} (hlen : d.length ≤ 64) (xs : List Instr) :
    ∀ {s : State} (n : Nat), decodeLayout s.words = some d → d.drop s.dix.toNat = xs ++ y :: ys → s.running = true →
    (∀ i ∈ xs, isField i = true) →
    (∃ r, microLoop (n + xs.length) s = .fault r) ∨
      (∃ t, microLoop (n + xs.length) s = .next t ∧ t.running = false) ∨
      ∃ t, microLoop (n + xs.length) s = microLoop n t ∧ d.drop t.dix.toNat = y :: ys ∧ t.running = true ∧
        t.mt = s.mt ∧ t.dir = s.dir ∧ t.params = s.params ∧ t.inrep = s.inrep ∧ t.recIx = s.recIx ∧ t.rpt = s.rpt ∧
        ((∀ i ∈ xs, Descriptor.isCount i = false) → t.cnt = s.cnt) := by
  induction xs with
  | nil => intro s n hw hd hrun _; exact .inr (.inr ⟨s, rfl, hd, hrun, rfl, rfl, rfl, rfl, rfl, rfl, fun _ => rfl⟩)
  | cons i rest ih =>
    intro s n hw hd hrun hf
    have hfetch := fetchEntry_of_drop hw hd
    rw [List.length_cons, ← Nat.add_assoc]
    rcases entryStep_field (hf i (List.mem_cons_self ..)) s with ⟨r, hr⟩ | ⟨t, ht, htr⟩ | ⟨t, ht, hm⟩
    · exact .inl ⟨r, by simp [microLoop, microStep, hfetch, hr]⟩
    · exact .inr (.inl ⟨t, microLoop_last hfetch ht htr, htr⟩)
    · have hnext : d.drop t.dix.toNat = rest ++ y :: ys := by
        rw [hm.dix]
        cases rest with
        | nil => exact (dix_next hlen hd).2
        | cons z zs => exact (dix_next hlen hd).2
      have hw' : t.words = s.words := by unfold State.words; rw [hm.mt, hm.params]
      rw [microLoop_step hfetch ht (hm.running.trans hrun)]
      rcases ih (s := t) n (by rw [hw']; exact hw) hnext (hm.running.trans hrun)
        (fun j hj => hf j (List.mem_cons_of_mem _ hj)) with h | h | ⟨u, hu, h1, h2, h3, h4, h5, h6, h7, h8, h9⟩
      · exact .inl h
      · exact .inr (.inl h)
      · exact .inr (.inr ⟨u, hu, h1, h2, h3.trans hm.mt, h4.trans hm.dir, h5.trans hm.params, h6.trans hm.inrep,
          h7.trans hm.recIx, h8.trans hm.rpt, fun hc => (h9 fun j hj => hc j (List.mem_cons_of_mem _ hj)).trans
            (hm.cnt (hc i (List.mem_cons_self ..)))⟩)

theorem entryStep_end (s : State) : ∃ t, entryStep .endDesc s = .next t ∧ t.running = false := by
  simp only [entryStep, execEnd]
  split <;> exact ⟨_, rfl, rfl⟩

/-- The command ends at END, whatever fuel is left. -/
theorem microLoop_end {d : Descriptor} {s : State} {ys : List Instr} (n : Nat) (hw : decodeLayout s.words = some d)
    (hd : d.drop s.dix.toNat = .endDesc :: ys) : ∃ t, microLoop (n + 1) s = .next t ∧ t.running = false := by
  obtain ⟨t, ht, hr⟩ := entryStep_end s
  exact ⟨t, microLoop_last (fetchEntry_of_drop hw hd) ht hr, hr⟩

end Sys2Proof.Machine
end

