-- ==== Sys2Proof/Laws/PerInstr.lean ====
section
/-!
SUPPORT. One family of statements about the syntax of every instruction: its encoded word selects its own row of the
tables of spec/30_encoding.md R48 and R51.
-/

namespace Sys2Proof.Laws.WordSelectsRow

open Sys2Proof Sys2Proof.Machine

/-- The instruction's word, masked, is the pattern of the row with the instruction's mnemonic (30 R48, R51). -/
def Statement (i : Instr) : Prop :=
  match encode i with
  | .command w => ∃ r ∈ commandRows, r.mnemonic = mnemonicOf i ∧ w &&& r.mask = r.pattern
  | .entry w => ∃ r ∈ entryRows, r.mnemonic = mnemonicOf i ∧ w &&& r.mask = r.pattern

/-- A mask of the bits from `n` on keeps what shifting down and up again keeps. -/
theorem and_highMask {k : Nat} (w : BitVec k) (n : Nat) : w &&& (BitVec.allOnes k <<< n) = (w >>> n) <<< n := by
  ext i hi
  by_cases h : i < n
  · simp [h]
  · simp [h, show n + (i - n) = i by omega, BitVec.getLsbD_eq_getElem hi]

/-- OP and ZERO of a command word: the mask of SETU and SETS. -/
theorem and_opMask (op : Nat) (ho : op < 16) (len : BitVec 8) (pos : BitVec 32) (val : Slot) :
    commandWord op len pos val &&& (BitVec.allOnes 128 <<< 104) = BitVec.ofNat 128 (op * 2 ^ 124) := by
  have h1 := len.isLt; have h2 := pos.isLt; have h3 := val.isLt
  rw [and_highMask]
  apply BitVec.eq_of_toNat_eq
  rw [BitVec.toNat_shiftLeft, BitVec.toNat_ushiftRight, commandWord_toNat op ho, BitVec.toNat_ofNat,
    Nat.shiftRight_eq_div_pow, Nat.shiftLeft_eq]
  omega

/-- A command word with VAL 0 has no bit of the low half set. -/
theorem and_valMask (op : Nat) (ho : op < 16) (len : BitVec 8) (pos : BitVec 32) :
    commandWord op len pos 0 &&& (BitVec.allOnes 128 >>> 64) = 0 := by
  have h1 := len.isLt; have h2 := pos.isLt
  apply BitVec.eq_of_toNat_eq
  rw [BitVec.toNat_and, commandWord_toNat op ho,
    show (BitVec.allOnes 128 >>> 64).toNat = 2 ^ 64 - 1 by decide, Nat.and_two_pow_sub_one_eq_mod]
  rw [show (0 : Slot).toNat = 0 from rfl, show (0 : BitVec 128).toNat = 0 from rfl]
  omega

/-- The mask of GETU and GETS: OP, ZERO and VAL. -/
theorem and_readMask (op : Nat) (ho : op < 16) (len : BitVec 8) (pos : BitVec 32) :
    commandWord op len pos 0 &&& (BitVec.allOnes 128 <<< 104 ||| BitVec.allOnes 128 >>> 64) =
      BitVec.ofNat 128 (op * 2 ^ 124) := by
  rw [BitVec.and_or_distrib_left, and_opMask op ho, and_valMask op ho]; simp

/-- The KIND bits of an entry word, and SGN where the mask has it. -/
theorem and_kindMask : ∀ kind < 8, ∀ wm1 slot : BitVec 6,
    (∀ sgn, entryWord kind sgn wm1 slot &&& 0xE000 = BitVec.ofNat 16 (kind * 8192)) ∧
    entryWord kind false wm1 slot &&& 0xF000 = BitVec.ofNat 16 (kind * 8192) := by
  intro kind hk wm1 slot
  have h1 := wm1.isLt; have h2 := slot.isLt
  have hn : ∀ sgn : Bool,
      (entryWord kind sgn wm1 slot).toNat = kind * 8192 + sgn.toNat * 4096 + wm1.toNat * 64 + slot.toNat := by
    intro sgn
    have hb : sgn.toNat < 2 := by cases sgn <;> decide
    unfold entryWord
    rw [BitVec.toNat_ofNat, Nat.mod_eq_of_lt]; omega
  refine ⟨fun sgn => ?_, ?_⟩
  · have hb : sgn.toNat < 2 := by cases sgn <;> decide
    rw [show (0xE000 : BitVec 16) = BitVec.allOnes 16 <<< 13 by decide, and_highMask]
    apply BitVec.eq_of_toNat_eq
    rw [BitVec.toNat_shiftLeft, BitVec.toNat_ushiftRight, hn, BitVec.toNat_ofNat, Nat.shiftRight_eq_div_pow,
      Nat.shiftLeft_eq]
    omega
  · rw [show (0xF000 : BitVec 16) = BitVec.allOnes 16 <<< 12 by decide, and_highMask]
    apply BitVec.eq_of_toNat_eq
    rw [BitVec.toNat_shiftLeft, BitVec.toNat_ushiftRight, hn, BitVec.toNat_ofNat, Nat.shiftRight_eq_div_pow,
      Nat.shiftLeft_eq]
    simp only [Bool.toNat_false]
    omega

theorem setu (pos : BitVec 32) (len : BitVec 8) (val : Slot) : Statement (.setu pos len val) :=
  ⟨commandRows[0], by decide, rfl, and_opMask 1 (by decide) len pos val⟩

theorem sets (pos : BitVec 32) (len : BitVec 8) (val : Slot) : Statement (.sets pos len val) :=
  ⟨commandRows[1], by decide, rfl, and_opMask 2 (by decide) len pos val⟩

theorem getu (pos : BitVec 32) (len : BitVec 8) : Statement (.getu pos len) :=
  ⟨commandRows[2], by decide, rfl, and_readMask 3 (by decide) len pos⟩

theorem gets (pos : BitVec 32) (len : BitVec 8) : Statement (.gets pos len) :=
  ⟨commandRows[3], by decide, rfl, and_readMask 4 (by decide) len pos⟩

theorem encRawx : Statement .encRawx := ⟨commandRows[4], by decide, rfl, by decide⟩

theorem decRawx : Statement .decRawx := ⟨commandRows[5], by decide, rfl, by decide⟩

theorem encEph : Statement .encEph := ⟨commandRows[6], by decide, rfl, by decide⟩

theorem decEph : Statement .decEph := ⟨commandRows[7], by decide, rfl, by decide⟩

theorem endDesc : Statement .endDesc := ⟨entryRows[0], by decide, rfl, by decide⟩

theorem fld (sgn : Bool) (wm1 slot : BitVec 6) : Statement (.fld sgn wm1 slot) :=
  ⟨entryRows[1], by decide, rfl, (and_kindMask 1 (by decide) wm1 slot).1 sgn⟩

theorem rsv (wm1 : BitVec 6) : Statement (.rsv wm1) :=
  ⟨entryRows[2], by decide, rfl, by revert wm1; decide⟩

theorem tagc (wm1 slot : BitVec 6) : Statement (.tagc wm1 slot) :=
  ⟨entryRows[3], by decide, rfl, (and_kindMask 3 (by decide) wm1 slot).2⟩

theorem tagi (wm1 slot : BitVec 6) : Statement (.tagi wm1 slot) :=
  ⟨entryRows[4], by decide, rfl, (and_kindMask 4 (by decide) wm1 slot).2⟩

theorem cntf (wm1 slot : BitVec 6) : Statement (.cntf wm1 slot) :=
  ⟨entryRows[5], by decide, rfl, (and_kindMask 5 (by decide) wm1 slot).2⟩

theorem repb : Statement .repb := ⟨entryRows[6], by decide, rfl, by decide⟩

theorem repe : Statement .repe := ⟨entryRows[7], by decide, rfl, by decide⟩

end Sys2Proof.Laws.WordSelectsRow
end

