-- ==== Sys2Proof/Laws/Rawx.lean ====
section
/-!
SUPPORT. The RAWX descriptor walked: its header, its records one after the other, REPB, REPE and END.
-/

namespace Sys2Proof.Machine

open Sys2Proof

/-- The state REPE leaves (41 R90). -/
def afterRepe (s : State) : State :=
  if s.recIx.toNat + 1 < s.cnt.toNat then { s with recIx := s.recIx + 1, dix := s.rpt }
  else { s with recIx := 0, inrep := false, dix := s.dix + 1 }

theorem entryStep_repe (s : State) : entryStep .repe s = .next (afterRepe s) := by
  simp only [entryStep, execRepe, afterRepe]; split <;> rfl

theorem afterRepe_running (s : State) : (afterRepe s).running = s.running := by unfold afterRepe; split <;> rfl

theorem afterRepe_mem (s : State) : (afterRepe s).mem = s.mem := by unfold afterRepe; split <;> rfl

theorem afterRepe_cur (s : State) : (afterRepe s).cur = s.cur := by unfold afterRepe; split <;> rfl

theorem afterRepe_cnt (s : State) : (afterRepe s).cnt = s.cnt := by unfold afterRepe; split <;> rfl

theorem afterRepe_sequenced (s : State) : afterRepe s = s.sequencedAs (afterRepe s) :=
    by unfold afterRepe; split <;> rfl

/-- The entries of a placed list are its entries. -/
theorem mem_of_placed : ∀ (xs : List Instr) (q) (p), p ∈ placed q xs → p.2 ∈ xs := by
  intro xs; induction xs with
  | nil => intro q p hp; cases hp
  | cons x xs ih => intro q p hp; simp only [placed,
      List.mem_cons] at hp; rcases hp with rfl | hp; simp; exact List.mem_cons_of_mem _ (ih _ p hp)

/-- A placed field lies within the list's width. -/
theorem placed_within : ∀ (xs : List Instr) (q) (p), p ∈ placed q xs → q ≤ p.1 ∧
    p.1 + p.2.width ≤ q + Descriptor.totalWidth xs := by
  intro xs; induction xs with
  | nil => intro q p hp; cases hp
  | cons x xs ih => intro q p hp; rw [totalWidth_cons]; simp only [placed,
      List.mem_cons] at hp; rcases hp with rfl | hp; simp only; omega; have := ih _ p hp; omega

/-- Placing from a later bit address. -/
theorem placed_shift : ∀ (xs : List Instr) (q c), ∀ p ∈ placed c xs, (q + p.1, p.2) ∈ placed (q + c) xs := by
  intro xs; induction xs with
  | nil => intro q c p hp; cases hp
  | cons x xs ih =>
    intro q c p hp; simp only [placed, List.mem_cons] at hp ⊢
    rcases hp with rfl | hp
    · exact .inl rfl
    · right; rw [Nat.add_assoc]; exact ih _ _ p hp

/-- The value a field of the body is encoded from in record `i`. -/
def recordValue (m : Memory) (i : Nat) (e : Instr) : Slot :=
  match e.slot? with
  | some a => (m.slot? (recordAddress i a)).getD 0
  | none => 0

theorem body_plain : ∀ e ∈ rawxBody, Descriptor.isPlain e = true := by decide

theorem body_slots : ∀ e ∈ rawxBody, ∀ a, e.slot? = some a → a < 13 := by
  have : ∀ e ∈ rawxBody, (e.slot?.all (· < 13)) = true := by decide
  intro e he a ha
  have := this e he
  rw [ha] at this; simpa using this

theorem body_address {s : State} (hin : s.inrep = true) {e a} (he : e ∈ rawxBody)
    (ha : e.slot? = some a) : slotAddress s e = recordAddress s.recIx.toNat a := by
  have := body_plain e he
  cases e <;> simp [Descriptor.isPlain] at this <;> simp [Instr.slot?] at ha
  subst ha; simp [slotAddress, hin]

theorem body_value {s : State} (hin : s.inrep = true) {e}
    (he : e ∈ rawxBody) : fieldValue s e = recordValue s.mem s.recIx.toNat e := by
  unfold fieldValue recordValue
  cases ha : e.slot? with
  | none => simp
  | some a => simp [body_address hin he ha]

theorem body_reaches {s : State} (hr : s.recIx.toNat < s.params.maxsat.toNat) {e}
    (he : e ∈ rawxBody) : Reaches s e := by
  cases e <;> simp only [Reaches]
  intro _
  refine ⟨?_, hr⟩
  have := body_slots _ he _ rfl
  simp only [recStride]; omega

theorem body_encodable {s : State} (hin : s.inrep = true) (hr : s.recIx.toNat < s.params.maxsat.toNat)
    (hw : ∀ j < 13, (s.mem.slot? (recordAddress s.recIx.toNat j)).isSome) : ∀ e ∈ rawxBody, Encodable s e := by
  intro e he
  refine ⟨rawxBody_isField e he, body_reaches hr he, fun hs => ?_⟩
  obtain ⟨a, ha⟩ := Option.isSome_iff_exists.1 hs
  rw [body_address hin he ha]; exact hw a (body_slots e he a ha)

/-- Inside the RAWX block at its first entry, record `r` in hand and `k` records to go. -/
structure InBlock (s : State) (dir : Direction) (r k : Nat) : Prop where
  mt : s.mt = .rawx
  dir : s.dir = dir
  run : s.running = true
  inrep : s.inrep = true
  rpt : s.rpt = 10
  dix : s.dix = 10
  recIx : s.recIx.toNat = r
  cnt : s.cnt.toNat = r + k
  max : r + k ≤ s.params.maxsat.toNat

theorem InBlock.words {s : State} {dir r k} (h : InBlock s dir r k) : decodeLayout s.words = some rawxEntries := by
  unfold State.words; rw [h.mt]; exact decodeLayout_rawx

theorem InBlock.drop {s : State} {dir r k}
    (h : InBlock s dir r k) : rawxEntries.drop s.dix.toNat = rawxBody ++ .repe :: [.endDesc] := by
  rw [h.dix]; decide

theorem dix_repe {x : BitVec 6} (h : rawxEntries.drop x.toNat = .repe :: [.endDesc]) : x = 24 := by
  have hlt := x.isLt
  have := congrArg List.length h
  simp [rawxEntries, rawxHead, rawxBody] at this
  apply BitVec.eq_of_toNat_eq
  simp; omega

/-- REPE before the last record goes to the next record. -/
theorem InBlock.afterRepe_next {s u : State} {dir r k} (h : InBlock s dir r (k+2)) (hu : u = { s with
      mem := u.mem, cur := u.cur, dix := u.dix, cnt := u.cnt }) (hc : u.cnt = s.cnt) :
    InBlock (afterRepe u) dir (r+1) (k+1) := by
  have h1 : u.recIx = s.recIx := by rw [hu]
  have h2 : u.rpt = s.rpt := by rw [hu]
  have hm := s.params.maxsat.isLt
  have hmax := h.max
  have hr : afterRepe u = { u with recIx := u.recIx + 1, dix := u.rpt } := by
    unfold afterRepe; rw [if_pos]; rw [hc, h1, h.recIx, h.cnt]; omega
  rw [hr]
  have hp : u.params = s.params := by rw [hu]
  refine ⟨by rw [hu]; exact h.mt, by rw [hu]; exact h.dir, by rw [hu]; exact h.run, by rw [hu]; exact h.inrep,
      h2.trans h.rpt, h2.trans h.rpt, ?_, ?_, ?_⟩
  · show (u.recIx + 1).toNat = _
    rw [h1, BitVec.toNat_add, h.recIx]; simp; omega
  · show u.cnt.toNat = _; rw [hc, h.cnt]; omega
  · show _ ≤ u.params.maxsat.toNat; rw [hp]; omega

/-- REPE after the last record leaves the block. -/
theorem InBlock.afterRepe_last {s u : State} {dir r} (h : InBlock s dir r 1) (hu : u = { s with
      mem := u.mem, cur := u.cur, dix := u.dix, cnt := u.cnt }) (hc : u.cnt = s.cnt)
    (hd : rawxEntries.drop u.dix.toNat = .repe :: [.endDesc]) : afterRepe u = { u with recIx := 0, inrep := false, dix := 25 } := by
  have h1 : u.recIx = s.recIx := by rw [hu]
  have h2 := dix_repe hd
  unfold afterRepe; rw [if_neg]
  · rw [h2]; rfl
  · rw [hc, h1, h.recIx, h.cnt]; omega

theorem microLoop_repe {u : State} (n : Nat) (hw : decodeLayout u.words = some rawxEntries)
    (hd : rawxEntries.drop u.dix.toNat = .repe :: [.endDesc]) (hr : u.running = true) :
   microLoop (n+1) u = microLoop n (afterRepe u) :=
  microLoop_step (fetchEntry_of_drop hw hd) (entryStep_repe _) ((afterRepe_running _).trans hr)

/-- One record encoded: its fields, then REPE. -/
theorem encode_record {s : State} {r k} (n : Nat) (h : InBlock s .enc r (k+1)) (hw : ∀ j < 13,
    (s.mem.slot? (recordAddress r j)).isSome)
    (hc : s.cur.toNat + 256 ≤ s.capBits) : ∃ u, microLoop (n + 15) s = microLoop n (afterRepe u) ∧
     rawxEntries.drop u.dix.toNat = .repe :: [.endDesc] ∧ u = { s with
      mem := u.mem, cur := u.cur, dix := u.dix, cnt := u.cnt } ∧
     u.cnt = s.cnt ∧ u.mem.slots = s.mem.slots ∧ u.cur.toNat = s.cur.toNat + 256 ∧
         SameOutside s.mem u.mem s.cur.toNat (s.cur.toNat + 256) ∧
     (∀ p ∈ placed s.cur.toNat rawxBody, FieldHolds u.mem p.1 p.2.width (recordValue s.mem r p.2)) := by
  have hm := h.max
  obtain ⟨h1, h2⟩ := microLoop_encode (d := rawxEntries) (by decide) rawxBody (s := s) (n+1) h.words h.drop h.dir h.run
    (body_encodable h.inrep (by rw [h.recIx]; omega) (by rw [h.recIx]; exact hw)) (by rw [rawxBody_width]; exact hc)
  have he := encFields_eq rawxBody s
  have hcnt := encFields_cnt rawxBody_noCount s
  obtain ⟨ho, hb⟩ := encFields_bits rawxBody (s := s) rawxBody_isField (by rw [rawxBody_width]; omega)
  have hcur := encFields_cur rawxBody (s := s) (by rw [rawxBody_width]; omega)
  have hsl := encFields_slots rawxBody s
  rw [rawxBody_width] at ho hcur
  generalize encFields rawxBody s = u at *
  refine ⟨u, ?_, h2, he, hcnt, hsl, hcur, ho, fun p hp => ?_⟩
  · have hrun : u.running = true := by rw [he]; exact h.run
    have hword : decodeLayout u.words = some rawxEntries := by rw [he]; exact h.words
    rw [← microLoop_repe n hword h2 hrun, ← h1]; rfl
  · have := hb p hp
    rwa [body_value h.inrep (mem_of_placed _ _ _ hp), h.recIx] at this

/-- All records encoded, in order (41 R90). -/
theorem encode_records : ∀ (k : Nat) {s : State} {r : Nat} (m K : Nat), K = k + 1 → InBlock s .enc r K →
    (∀ i < K, ∀ j < 13, (s.mem.slot? (recordAddress (r+i) j)).isSome) → s.cur.toNat + 256*K ≤ s.capBits →
    ∃ t, microLoop (m + 15*K) s = microLoop m t ∧ t.dix = 25 ∧ t.running = true ∧ t.dir = .enc ∧ t.mt = .rawx ∧
        t.cur.toNat = s.cur.toNat + 256*K ∧
      t.mem.slots = s.mem.slots ∧ SameOutside s.mem t.mem s.cur.toNat (s.cur.toNat + 256*K) ∧
      (∀ i < K, ∀ p ∈ placed (s.cur.toNat + 256*i) rawxBody, FieldHolds t.mem p.1 p.2.width (recordValue s.mem
          (r+i) p.2)) ∧
      t = { s.sequencedAs t with mem := t.mem } := by
  intro k
  induction k with
  | zero =>
    intro s r m K hK h hw hc
    obtain rfl : K = 1 := hK
    obtain ⟨u, h1, h2, he, hcnt, hsl, hcur, ho, hb⟩ := encode_record m h (hw 0 (by omega)) (by omega)
    have hl := InBlock.afterRepe_last h he hcnt h2
    refine ⟨afterRepe u, h1, by rw [hl], ?_, ?_, ?_, by rw [afterRepe_cur]; exact hcur,
        by rw [afterRepe_mem]; exact hsl, by rw [afterRepe_mem]; exact ho, ?_, ?_⟩
    · rw [afterRepe_running, he]; exact h.run
    · rw [hl, he]; exact h.dir
    · rw [hl, he]; exact h.mt
    · intro i hi p hp
      obtain rfl : i = 0 := by omega
      rw [afterRepe_mem]
      exact hb p hp
    · rw [hl, he]; rfl
  | succ k ih =>
    intro s r m K hK h hw hc
    obtain ⟨J, hJ⟩ : ∃ J, J = k + 1 := ⟨_, rfl⟩
    have hKJ : K = J + 1 := by omega
    have h' : InBlock s .enc r (k+1+1) := hK ▸ h
    obtain ⟨u, h1, h2, he, hcnt, hsl', hcur, ho, hb⟩ := encode_record (m + 15*J) (hKJ ▸ h) (hw 0 (by omega)) (by omega)
    have hn := InBlock.afterRepe_next h' he hcnt
    rw [← hJ] at hn
    have hsl : (afterRepe u).mem.slots = s.mem.slots := by rw [afterRepe_mem]; exact hsl'
    have hcap : (afterRepe u).capBits = s.capBits := by rw [afterRepe_sequenced, he]; rfl
    have hcur' : (afterRepe u).cur.toNat = s.cur.toNat + 256 := by rw [afterRepe_cur]; exact hcur
    obtain ⟨t, ht, t1, t2, t3, t3', t4, t5, t6, t7, t8⟩ := ih m J hJ hn (fun i hi j hj => by
      unfold Memory.slot?; rw [hsl]; have := hw (i+1) (by omega) j hj; rwa [← Nat.add_assoc,
          Nat.add_right_comm] at this) (by omega)
    rw [hcur'] at t4 t6 t7
    rw [afterRepe_mem] at t6 
    have e : m + 15 * K = m + 15 * J + 15 := by omega
    refine ⟨t, by rw [e, h1, ht], t1, t2, t3, t3', by omega, t5.trans hsl, ?_, ?_, ?_⟩
    · intro q hq
      rw [t6 q (by omega), ho q (by omega)]
    · intro i hi p hp
      rcases Nat.eq_zero_or_pos i with rfl | hpos
      · have := placed_within _ _ _ hp
        rw [rawxBody_width] at this
        exact FieldHolds.of_outside (hb p hp) t6 (.inl (by omega))
      · obtain ⟨i', rfl⟩ : ∃ i', i = i' + 1 := ⟨i - 1, by omega⟩
        have := t7 i' (by omega) p
            (by rw [show s.cur.toNat + 256 + 256 * i' = s.cur.toNat + 256*(i'+1) by rw [Nat.mul_succ,
            Nat.add_assoc, Nat.add_comm 256]]; exact hp)
        rw [show r + 1 + i' = r + (i' + 1) by omega] at this
        convert this using 1
        unfold recordValue Memory.slot?; rw [hsl]
    · rw [t8, afterRepe_sequenced, he]; rfl

theorem head_plain (s : State) (hin : s.inrep = false) : ∀ i ∈ rawxHead, ∀ a, i.slot? = some a →
    slotAddress s i = a := by
  intro i hi a ha
  cases i <;> simp [Instr.slot?] at ha <;> subst ha <;> simp [slotAddress, hin]

theorem head_slots : ∀ e ∈ rawxHead, ∀ a, e.slot? = some a → a < 8 := by
  have : ∀ e ∈ rawxHead, (e.slot?.all (· < 8)) = true := by decide
  intro e he a ha
  have := this e he
  rw [ha] at this; simpa using this

theorem head_reaches {s : State} (hin : s.inrep = false) (i : Instr) : Reaches s i := by
  cases i <;> simp [Reaches, hin]

theorem head_encodable {s : State} (hin : s.inrep = false) (hw : ∀ j < 8, (s.mem.slot? j).isSome) : ∀ e ∈ rawxHead,
    Encodable s e := by
  intro e he
  refine ⟨rawxHead_isField e he, head_reaches hin e, fun hs => ?_⟩
  obtain ⟨a, ha⟩ := Option.isSome_iff_exists.1 hs
  rw [head_plain s hin e he a ha]; exact hw a (head_slots e he a ha)

theorem encFields_rawxHead_cnt {s : State} {n} (h5 : s.mem.slot? 5 = some n) : (encFields rawxHead s).cnt = n := by
  rw [show rawxHead = rawxHead.take 5 ++ (.cntf 7 5 :: rawxHead.drop 6) by decide, encFields_append]
  have h1 := encFields_slots (rawxHead.take 5) s
  have h2 := encFields_eq (rawxHead.take 5) s
  generalize encFields (rawxHead.take 5) s = u at *
  rw [encFields, encFields_cnt (by decide)]
  show fieldValue u (.cntf 7 5) = n
  unfold fieldValue Memory.slot? 
  rw [h1]
  unfold Memory.slot? at h5
  show (Cells.read s.mem.slots 5).getD 0 = n
  rw [h5]; rfl

/-- The fixed header encoded. -/
theorem encode_head {s : State} (n : Nat) {c} (hmt : s.mt = .rawx) (hdir : s.dir = .enc) (hrun : s.running = true)
    (hin : s.inrep = false) (hdix : s.dix = 0) (hcur0 : s.cur = 0)
    (hw : ∀ j < 8, (s.mem.slot? j).isSome) (h5 : s.mem.slot? 5 = some c) (hc : 140 ≤ s.capBits) :
    ∃ u, microLoop (n + 9) s = microLoop n u ∧ u.dix = 9 ∧ u.cur.toNat = 140 ∧ u.cnt = c ∧
        u.mem.slots = s.mem.slots ∧ SameOutside s.mem u.mem 0 140 ∧
      (∀ p ∈ placed 0 rawxHead, FieldHolds u.mem p.1 p.2.width (fieldValue s p.2)) ∧
          u = { s with
      mem := u.mem, cur := u.cur, dix := u.dix, cnt := u.cnt } := by
  have hword : decodeLayout s.words = some rawxEntries := by unfold State.words; rw [hmt]; exact decodeLayout_rawx
  have hcz : s.cur.toNat = 0 := by rw [hcur0]; rfl
  obtain ⟨h1, h2⟩ := microLoop_encode (d := rawxEntries) (y := .repb) (ys := rawxBody ++ [.repe,
      .endDesc]) (by decide) rawxHead (s := s) n hword (by rw [hdix]; decide) hdir hrun
    (head_encodable hin hw) (by rw [rawxHead_width]; omega)
  have he := encFields_eq rawxHead s
  obtain ⟨ho, hb⟩ := encFields_bits rawxHead (s := s) rawxHead_isField (by rw [rawxHead_width]; omega)
  have hcur := encFields_cur rawxHead (s := s) (by rw [rawxHead_width]; omega)
  have hsl := encFields_slots rawxHead s
  have hcnt := encFields_rawxHead_cnt h5
  rw [rawxHead_width] at ho hcur
  rw [hcz] at ho hb hcur
  generalize encFields rawxHead s = u at *
  refine ⟨u, h1, ?_, by omega, hcnt, hsl, ho, hb, he⟩
  have hlt := u.dix.isLt
  have := congrArg List.length h2
  simp [rawxEntries, rawxHead, rawxBody] at this
  apply BitVec.eq_of_toNat_eq
  simp; omega

/-- END on encode. -/
theorem encode_end {s : State} (n : Nat) (hmt : s.mt = .rawx) (hdir : s.dir = .enc) (hd : s.dix = 25) : microLoop
    (n+1) s = .next { s with bits := s.cur, running := false } := by
  have hword : decodeLayout s.words = some rawxEntries := by unfold State.words; rw [hmt]; exact decodeLayout_rawx
  have hs : entryStep .endDesc s = .next { s with bits := s.cur, running := false } := by
    simp only [entryStep, execEnd]; split
    · rfl
    · simp_all
  exact microLoop_last (fetchEntry_of_drop hword (xs := []) (by rw [hd]; decide)) hs rfl

/-- REPB with records enters the block. -/
theorem repb_enter {s : State} (n : Nat) (hmt : s.mt = .rawx) (hrun : s.running = true) (hd : s.dix = 9)
    (h1 : s.cnt ≠ 0) (h2 : s.cnt.toNat ≤ s.params.maxsat.toNat) :
    microLoop (n+1) s = microLoop n { s with recIx := 0, rpt := 10, inrep := true, dix := 10 } := by
  have hword : decodeLayout s.words = some rawxEntries := by unfold State.words; rw [hmt]; exact decodeLayout_rawx
  refine microLoop_step (i := .repb) (fetchEntry_of_drop hword (xs := rawxBody ++ [.repe,
      .endDesc]) (by rw [hd]; decide)) ?_ hrun
  simp only [entryStep, execRepb]; rw [if_neg (by omega), if_neg h1, hd]; rfl

/-- REPB with no records goes to END. -/
theorem repb_skip {s : State} (n : Nat) (hmt : s.mt = .rawx) (hrun : s.running = true) (hd : s.dix = 9)
    (h1 : s.cnt = 0) :
    microLoop (n+1) s = microLoop n { s with recIx := 0, rpt := 10, dix := 25 } := by
  have hword : decodeLayout s.words = some rawxEntries := by unfold State.words; rw [hmt]; exact decodeLayout_rawx
  have hww : s.words = rawxWords := by unfold State.words; rw [hmt]
  refine microLoop_step (i := .repb) (fetchEntry_of_drop hword (xs := rawxBody ++ [.repe,
      .endDesc]) (by rw [hd]; decide)) ?_ hrun
  simp only [entryStep, execRepb]; rw [if_neg (by rw [h1]; simp), if_pos h1, hww, rawx_findRepe, hd]; rfl

/-- REPB with a count above MAXSAT ends the command. -/
theorem repb_over {s : State} (n : Nat) (hmt : s.mt = .rawx) (hd : s.dix = 9)
    (h1 : s.params.maxsat.toNat < s.cnt.toNat) :
    microLoop (n+1) s = .next (match s.dir with | .enc => raise .count s | .dec => finish .invalidMessage s) := by
  have hword : decodeLayout s.words = some rawxEntries := by unfold State.words; rw [hmt]; exact decodeLayout_rawx
  refine microLoop_last (i := .repb) (fetchEntry_of_drop hword (xs := rawxBody ++ [.repe,
      .endDesc]) (by rw [hd]; decide)) ?_ ?_
  · simp only [entryStep, execRepb]; rw [if_pos h1]; cases s.dir <;> rfl
  · split <;> rfl

/-- A RAWX command that is not ignored is the loop from its start. -/
theorem exec_rawx {i mt dir} (s : State) (h0 : s.fault = 0) (hi : (i, mt, dir) ∈ [(Instr.encRawx, MsgType.rawx,
    Direction.enc), (.decRawx, .rawx, .dec)]) :
    exec i s = microLoop (12 + 15 * s.params.maxsat.toNat) (startCommand mt dir s) := by
  have hd : ∀ dir, (startCommand .rawx dir s).descriptor = rawxEntries :=
      by intro dir; unfold State.descriptor; show (decodeLayout rawxWords).getD [] = _; rw [decodeLayout_rawx]; rfl
  simp only [List.mem_cons, Prod.mk.injEq, List.not_mem_nil, or_false] at hi
  rcases hi with ⟨rfl, rfl, rfl⟩ | ⟨rfl, rfl, rfl⟩ <;> simp only [exec, execEncRawx,
      execDecRawx] <;> rw [unlessHalted_of_ok h0] <;> unfold runCommand <;> simp only [hd, microBound_rawx] <;> rfl

/-- Every field of the header table is an entry of the descriptor, at its place. -/
theorem rawxHead_table : ∀ f ∈ rawxHeader, ∃ p ∈ placed 0 rawxHead, p.1 = f.bit ∧ p.2.width = f.width ∧
    p.2.isSigned = f.signed ∧ p.2.slot? = some f.slot := by decide

/-- Every field of the record table is an entry of the body, at its place. -/
theorem rawxBody_table : ∀ f ∈ rawxRecord, ∃ p ∈ placed 0 rawxBody, p.1 = f.bit ∧ p.2.width = f.width ∧
    p.2.isSigned = f.signed ∧ p.2.slot? = some f.slot := by decide

theorem body_tagless : ∀ e ∈ rawxBody, Descriptor.isTag e = false := by decide

theorem body_decodable_field {s : State} (hr : s.recIx.toNat < s.params.maxsat.toNat) {pos : Nat} {e : Instr}
    (he : e ∈ rawxBody) (hw : e.slot?.isSome → BitsWritten s.mem pos (pos + e.width)) : Decodable s pos e := by
  have ht := body_tagless _ he
  refine ⟨rawxBody_isField _ he, body_reaches hr he, hw, fun w a h => ?_, fun w a h => ?_⟩ <;>
    rw [h] at ht <;> simp [Descriptor.isTag] at ht

theorem body_decodable {s : State} (hr : s.recIx.toNat < s.params.maxsat.toNat) {c}
    (hw : ∀ p ∈ placed c rawxBody, p.2.slot?.isSome → BitsWritten s.mem p.1 (p.1 + p.2.width)) :
    ∀ p ∈ placed c rawxBody, Decodable s p.1 p.2 :=
  fun p hp => body_decodable_field hr (mem_of_placed _ _ _ hp) (hw p hp)

theorem body_nodup {s : State} (hin : s.inrep = true) : ((rawxBody.filter fun i => i.slot?.isSome).map
    (slotAddress s)).Nodup := by
  have : (rawxBody.filter fun i => i.slot?.isSome).map (slotAddress s) = (List.range 13).map
      (recordAddress s.recIx.toNat) := by
    simp only [rawxBody, List.filter, Instr.slot?, Option.isSome, List.map, slotAddress, hin, if_true, List.range,
        List.range.loop]
    rfl
  rw [this]
  refine List.Nodup.map (fun a b h => ?_) List.nodup_range
  simp only [recordAddress] at h; omega

/-- One record decoded: its fields, then REPE. -/
theorem decode_record {s : State} {r k} (n : Nat) (h : InBlock s .dec r (k+1))
    (hw : ∀ p ∈ placed s.cur.toNat rawxBody, p.2.slot?.isSome → BitsWritten s.mem p.1 (p.1 + p.2.width))
    (hc : s.cur.toNat + 256 ≤ s.capBits) : ∃ u, microLoop (n + 15) s = microLoop n (afterRepe u) ∧
     rawxEntries.drop u.dix.toNat = .repe :: [.endDesc] ∧ u = { s with
      mem := u.mem, cur := u.cur, dix := u.dix, cnt := u.cnt } ∧
     u.cnt = s.cnt ∧ SameBuffer s.mem u.mem ∧ u.cur.toNat = s.cur.toNat + 256 ∧ 
     (∀ a, (∀ j < 13, a ≠ recordAddress r j) → u.mem.slot? a = s.mem.slot? a) ∧
     (∀ p ∈ placed s.cur.toNat rawxBody, ∀ a, p.2.slot? = some a → u.mem.slot? (recordAddress r a) = some
         (decodedSlot s.mem p.1 p.2)) := by
  have hm := h.max
  obtain ⟨h1, h2⟩ := microLoop_decode (d := rawxEntries) (by decide) rawxBody (s := s) (n+1) h.words h.drop h.dir h.run
    (body_decodable (by rw [h.recIx]; omega) hw) (by rw [rawxBody_width]; exact hc)
  have he := decFields_eq rawxBody s
  have hcnt := decFields_cnt rawxBody_noCount s
  obtain ⟨hk, hb⟩ := decFields_slots rawxBody (s := s) (by rw [rawxBody_width]; omega)
  have hb := hb (body_nodup h.inrep)
  have hcur := decFields_cur rawxBody (s := s) (by rw [rawxBody_width]; omega)
  have hbuf := decFields_buffer rawxBody s
  rw [rawxBody_width] at hcur
  generalize decFields rawxBody s = u at *
  refine ⟨u, ?_, h2, he, hcnt, hbuf, hcur, fun a ha => ?_, fun p hp a ha => ?_⟩
  · have hrun : u.running = true := by rw [he]; exact h.run
    have hword : decodeLayout u.words = some rawxEntries := by rw [he]; exact h.words
    rw [← microLoop_repe n hword h2 hrun, ← h1]; rfl
  · apply hk
    intro i hi hs
    obtain ⟨b, hb⟩ := Option.isSome_iff_exists.1 hs
    rw [body_address h.inrep hi hb, h.recIx]; exact ha b (body_slots i hi b hb)
  · have := hb p hp (by rw [ha]; rfl)
    rwa [body_address h.inrep (mem_of_placed _ _ _ hp) ha, h.recIx] at this

/-- All records decoded, in order (41 R90). -/
theorem decode_records : ∀ (k : Nat) {s : State} {r : Nat} (m K : Nat), K = k + 1 → InBlock s .dec r K →
    (∀ i < K, ∀ p ∈ placed (s.cur.toNat + 256*i) rawxBody, p.2.slot?.isSome →
        BitsWritten s.mem p.1 (p.1 + p.2.width)) → s.cur.toNat + 256*K ≤ s.capBits →
    ∃ t, microLoop (m + 15*K) s = microLoop m t ∧ t.dix = 25 ∧ t.running = true ∧ t.dir = .dec ∧ t.mt = .rawx ∧ 
      SameBuffer s.mem t.mem ∧ (∀ a, (∀ i < K, ∀ j < 13, a ≠ recordAddress (r+i) j) → t.mem.slot? a = s.mem.slot? a) ∧
      (∀ i < K, ∀ p ∈ placed (s.cur.toNat + 256*i) rawxBody, ∀ a, p.2.slot? = some a →
          t.mem.slot? (recordAddress (r+i) a) = some (decodedSlot s.mem p.1 p.2)) ∧
      t = { s.sequencedAs t with mem := t.mem } := by
  intro k
  induction k with
  | zero =>
    intro s r m K hK h hw hc
    obtain rfl : K = 1 := hK
    obtain ⟨u, h1, h2, he, hcnt, hbuf, hcur, hk, hb⟩ := decode_record m h (hw 0 (by omega)) (by omega)
    have hl := InBlock.afterRepe_last h he hcnt h2
    refine ⟨afterRepe u, h1, by rw [hl], ?_, ?_, ?_, by rw [afterRepe_mem]; exact hbuf, ?_, ?_, ?_⟩
    · rw [afterRepe_running, he]; exact h.run
    · rw [hl, he]; exact h.dir
    · rw [hl, he]; exact h.mt
    · intro a ha; rw [afterRepe_mem]; exact hk a (ha 0 (by omega))
    · intro i hi p hp
      obtain rfl : i = 0 := by omega
      rw [afterRepe_mem]
      exact hb p hp
    · rw [hl, he]; rfl
  | succ k ih =>
    intro s r m K hK h hw hc
    obtain ⟨J, hJ⟩ : ∃ J, J = k + 1 := ⟨_, rfl⟩
    have hKJ : K = J + 1 := by omega
    have h' : InBlock s .dec r (k+1+1) := hK ▸ h
    obtain ⟨u, h1, h2, he, hcnt, hbuf, hcur, hk, hb⟩ := decode_record (m + 15*J) (hKJ ▸ h) (hw 0 (by omega)) (by omega)
    have hn := InBlock.afterRepe_next h' he hcnt
    rw [← hJ] at hn
    have hbuf' : SameBuffer s.mem (afterRepe u).mem := by rw [afterRepe_mem]; exact hbuf
    have hcap : (afterRepe u).capBits = s.capBits := by rw [afterRepe_sequenced, he]; rfl
    have hcur' : (afterRepe u).cur.toNat = s.cur.toNat + 256 := by rw [afterRepe_cur]; exact hcur
    have hsh : ∀ i, s.cur.toNat + 256 + 256 * i = s.cur.toNat + 256*(i+1) := by intro i; rw [Nat.mul_succ,
        Nat.add_assoc, Nat.add_comm 256]
    obtain ⟨t, ht, t1, t2, t3, t3', t5, t6, t7, t8⟩ := ih m J hJ hn (fun i hi p hp hs q hq hq' => by
      rw [hbuf'.bit?_eq]; rw [hcur', hsh] at hp; exact hw (i+1) (by omega) p hp hs q hq hq') (by omega)
    rw [hcur'] at t7
    have e : m + 15 * K = m + 15 * J + 15 := by omega
    refine ⟨t, by rw [e, h1, ht], t1, t2, t3, t3', hbuf'.trans t5, ?_, ?_, ?_⟩
    · intro a ha
      rw [t6 a (fun i hi j hj => by have := ha (i+1) (by omega) j hj; rwa [← Nat.add_assoc,
          Nat.add_right_comm] at this), afterRepe_mem]
      exact hk a (ha 0 (by omega))
    · intro i hi p hp a ha
      rcases Nat.eq_zero_or_pos i with rfl | hpos
      · rw [t6, afterRepe_mem]
        · exact hb p hp a ha
        · intro i' hi' j hj heq
          have := body_slots _ (mem_of_placed _ _ _ hp) a ha
          have hj2 := j
          simp only [recordAddress, recStride] at heq; omega
      · obtain ⟨i', rfl⟩ : ∃ i', i = i' + 1 := ⟨i - 1, by omega⟩
        have := t7 i' (by omega) p (by rw [hsh]; exact hp) a ha
        rw [show r + 1 + i' = r + (i' + 1) by omega, decodedSlot_congr hbuf'] at this
        exact this
    · rw [t8, afterRepe_sequenced, he]; rfl

theorem head_nodup {s : State} (hin : s.inrep = false) : ((rawxHead.filter fun i => i.slot?.isSome).map
    (slotAddress s)).Nodup := by
  have : (rawxHead.filter fun i => i.slot?.isSome).map (slotAddress s) = List.range 8 := by
    simp only [rawxHead, List.filter, Instr.slot?, Option.isSome, List.map, slotAddress, hin, List.range,
        List.range.loop]
    rfl
  rw [this]; exact List.nodup_range

theorem decFields_rawxHead_cnt {s : State} (hcz : s.cur.toNat = 0) (hcap : 140 ≤ s.capBits) {n : Slot}
    (h5 : s.mem.readField 8 112 0 = .ok n) : (decFields rawxHead s).cnt = n := by
  rw [show rawxHead = rawxHead.take 5 ++ (.cntf 7 5 :: rawxHead.drop 6) by decide, decFields_append]
  have hw : Descriptor.totalWidth (rawxHead.take 5) = 112 := by decide
  have h1 := decFields_buffer (rawxHead.take 5) s
  have h2 := decFields_cur (rawxHead.take 5) (s := s) (by rw [hw]; omega)
  rw [hw] at h2
  generalize decFields (rawxHead.take 5) s = u at *
  rw [decFields, decFields_cnt (by decide), decOne_cnt]
  show decodedSlot u.mem u.cur.toNat (.cntf 7 5) = n
  rw [decodedSlot_congr h1, h2, hcz]
  unfold decodedSlot
  show (Except.toOption (s.mem.readField 8 (0 + 112) 0)).getD 0 = n
  rw [Nat.zero_add, h5]; rfl

/-- A field of the header whose bits hold values and whose tag, if it is one, matches. -/
theorem head_decodable_field {s : State} (hin : s.inrep = false) {p : Nat × Instr} (hp : p ∈ placed 0 rawxHead)
    (hw : p.2.slot?.isSome → BitsWritten s.mem p.1 (p.1 + p.2.width))
    (hcls : p = (0, .tagc 7 0) → s.mem.readField 8 0 0 = .ok (s.expClass.setWidth 64))
    (hid : p = (8, .tagi 7 1) → s.mem.readField 8 8 0 = .ok (s.expId.setWidth 64)) : Decodable s p.1 p.2 := by
  refine ⟨rawxHead_isField _ (mem_of_placed _ _ _ hp), head_reaches hin _, hw, fun w a h => ?_, fun w a h => ?_⟩
  · have : p = (0, .tagc 7 0) := by
      simp [placed, rawxHead, Instr.width] at hp
      rcases hp with rfl | rfl | rfl | rfl | rfl | rfl | rfl | rfl | rfl <;> simp at h ⊢
    subst this; exact hcls rfl
  · have : p = (8, .tagi 7 1) := by
      simp [placed, rawxHead, Instr.width] at hp
      rcases hp with rfl | rfl | rfl | rfl | rfl | rfl | rfl | rfl | rfl <;> simp at h ⊢
    subst this; exact hid rfl

theorem head_decodable {s : State} (hin : s.inrep = false)
    (hw : ∀ p ∈ placed 0 rawxHead, p.2.slot?.isSome → BitsWritten s.mem p.1 (p.1 + p.2.width))
    (hcls : s.mem.readField 8 0 0 = .ok (s.expClass.setWidth 64)) (hid : s.mem.readField 8 8 0 = .ok
        (s.expId.setWidth 64)) :
    ∀ p ∈ placed 0 rawxHead, Decodable s p.1 p.2 :=
  fun p hp => head_decodable_field hin hp (hw p hp) (fun _ => hcls) fun _ => hid

/-- The fixed header decoded. -/
theorem decode_head {s : State} (n : Nat) {c} (hmt : s.mt = .rawx) (hdir : s.dir = .dec) (hrun : s.running = true)
    (hin : s.inrep = false) (hdix : s.dix = 0) (hcur0 : s.cur = 0)
    (hw : ∀ p ∈ placed 0 rawxHead, p.2.slot?.isSome → BitsWritten s.mem p.1 (p.1 + p.2.width))
    (hcls : s.mem.readField 8 0 0 = .ok (s.expClass.setWidth 64)) (hid : s.mem.readField 8 8 0 = .ok
        (s.expId.setWidth 64)) (h5 : s.mem.readField 8 112 0 = .ok c) (hc : 140 ≤ s.capBits) :
    ∃ u, microLoop (n + 9) s = microLoop n u ∧ u.dix = 9 ∧ u.cur.toNat = 140 ∧ u.cnt = c ∧ SameBuffer s.mem u.mem ∧
        (∀ a, 8 ≤ a → u.mem.slot? a = s.mem.slot? a) ∧
      (∀ p ∈ placed 0 rawxHead, ∀ a, p.2.slot? = some a → u.mem.slot? a = some (decodedSlot s.mem p.1 p.2)) ∧
          u = { s with
      mem := u.mem, cur := u.cur, dix := u.dix, cnt := u.cnt } := by
  have hword : decodeLayout s.words = some rawxEntries := by unfold State.words; rw [hmt]; exact decodeLayout_rawx
  have hcz : s.cur.toNat = 0 := by rw [hcur0]; rfl
  obtain ⟨h1, h2⟩ := microLoop_decode (d := rawxEntries) (y := .repb) (ys := rawxBody ++ [.repe,
      .endDesc]) (by decide) rawxHead (s := s) n hword (by rw [hdix]; decide) hdir hrun
    (by rw [hcz]; exact head_decodable hin hw hcls hid) (by rw [rawxHead_width]; omega)
  have he := decFields_eq rawxHead s
  obtain ⟨ho, hb⟩ := decFields_slots rawxHead (s := s) (by rw [rawxHead_width]; omega)
  have hb := hb (head_nodup hin)
  have hcur := decFields_cur rawxHead (s := s) (by rw [rawxHead_width]; omega)
  have hbuf := decFields_buffer rawxHead s
  have hcnt := decFields_rawxHead_cnt hcz hc h5
  rw [rawxHead_width] at hcur
  rw [hcz] at hb hcur
  generalize decFields rawxHead s = u at *
  refine ⟨u, h1, ?_, by omega, hcnt, hbuf, fun a ha => ho a fun i hi hs heq => ?_, fun p hp a ha => ?_, he⟩
  · have hlt := u.dix.isLt
    have := congrArg List.length h2
    simp [rawxEntries, rawxHead, rawxBody] at this
    apply BitVec.eq_of_toNat_eq
    simp; omega
  · obtain ⟨b, hb⟩ := Option.isSome_iff_exists.1 hs
    rw [head_plain s hin i hi b hb] at heq
    have := head_slots i hi b hb; omega
  · have := hb p hp (by rw [ha]; rfl)
    rwa [head_plain s hin _ (mem_of_placed _ _ _ hp) a ha] at this

/-- END on decode. -/
theorem decode_end {s : State} (n : Nat) (hmt : s.mt = .rawx) (hdir : s.dir = .dec) (hd : s.dix = 25) : microLoop
    (n+1) s = .next (finish .ok s) := by
  have hword : decodeLayout s.words = some rawxEntries := by unfold State.words; rw [hmt]; exact decodeLayout_rawx
  have hs : entryStep .endDesc s = .next (finish .ok s) := by
    simp only [entryStep, execEnd]; split
    · simp_all
    · rfl
  exact microLoop_last (fetchEntry_of_drop hword (xs := []) (by rw [hd]; decide)) hs rfl

/-- A slot that holds a field's decoded value. -/
theorem slotDecodes_of_decodedSlot {m m' : Memory} {pos} {i : Instr} {a} (h1 : 1 ≤ i.width ∧
    i.width ≤ 64) (hw : BitsWritten m pos (pos + i.width))
    (h : m'.slot? a = some (decodedSlot m pos i)) : SlotDecodes m m' pos i.width i.isSigned a := by
  obtain ⟨v, hv⟩ := readField_of_bitsWritten hw
  refine ⟨v, Memory.readField_lt hv, fieldHolds_of_readField h1.2 hv, ?_⟩
  rw [h]; unfold decodedSlot; rw [hv]; rfl

/-- The records encoded where they do not all fit: BOUNDS (60 R127). -/
theorem encode_records_bounds : ∀ (k : Nat) {s : State} {r : Nat} (m K : Nat), K = k + 1 → InBlock s .enc r K →
    (∀ i < K, ∀ j < 13, (s.mem.slot? (recordAddress (r + i) j)).isSome) → s.cur.toNat ≤ s.capBits →
    s.capBits < s.cur.toNat + 256 * K →
    ∃ t, microLoop (m + 15 * K) s = .next t ∧ t.fault = s.fault ||| 0x2 := by
  intro k
  induction k with
  | zero =>
    intro s r m K hK h hw h0 hc
    obtain rfl : K = 1 := hK
    have hm := h.max
    obtain ⟨zs, i, _, _, hl⟩ := microLoop_encode_bounds (d := rawxEntries) (by decide) rawxBody (s := s) (m + 1)
      h.words h.drop h.dir h.run
      (body_encodable h.inrep (by rw [h.recIx]; omega) (by rw [h.recIx]; exact hw 0 (by omega))) h0
      (by rw [rawxBody_width]; omega)
    exact ⟨_, hl, by rw [encFields_eq]; rfl⟩
  | succ k ih =>
    intro s r m K hK h hw h0 hc
    obtain ⟨J, hJ⟩ : ∃ J, J = k + 1 := ⟨_, rfl⟩
    have hKJ : K = J + 1 := by omega
    have h' : InBlock s .enc r (k + 1 + 1) := hK ▸ h
    have hm := h.max
    have e : m + 15 * K = m + 15 * J + 15 := by omega
    by_cases hfit : s.cur.toNat + 256 ≤ s.capBits
    · obtain ⟨u, h1, h2, he, hcnt, hsl', hcur, _⟩ := encode_record (m + 15 * J) (hKJ ▸ h) (hw 0 (by omega)) hfit
      have hn := InBlock.afterRepe_next h' he hcnt
      rw [← hJ] at hn
      have hsl : (afterRepe u).mem.slots = s.mem.slots := by rw [afterRepe_mem]; exact hsl'
      have hcap : (afterRepe u).capBits = s.capBits := by rw [afterRepe_sequenced, he]; rfl
      have hcur' : (afterRepe u).cur.toNat = s.cur.toNat + 256 := by rw [afterRepe_cur]; exact hcur
      obtain ⟨t, ht, hf⟩ := ih m J hJ hn (fun i hi j hj => by
        unfold Memory.slot?; rw [hsl]; have := hw (i + 1) (by omega) j hj
        rwa [← Nat.add_assoc, Nat.add_right_comm] at this) (by omega) (by omega)
      exact ⟨t, by rw [e, h1, ht], by rw [hf, afterRepe_sequenced, he]; rfl⟩
    · obtain ⟨zs, i, _, _, hl⟩ := microLoop_encode_bounds (d := rawxEntries) (by decide) rawxBody (s := s)
        (m + 15 * J + 1) h.words h.drop h.dir h.run
        (body_encodable h.inrep (by rw [h.recIx]; omega) (by rw [h.recIx]; exact hw 0 (by omega))) h0
        (by rw [rawxBody_width]; omega)
      exact ⟨_, by rw [e]; exact hl, by rw [encFields_eq]; rfl⟩

/-- Fields of the body, decoded, leave every slot but their record's. -/
theorem body_decFields_keep {s : State} (hin : s.inrep = true) {zs : List Instr} (hz : ∀ i ∈ zs, i ∈ rawxBody)
    (hc : s.cur.toNat + Descriptor.totalWidth zs ≤ s.capBits) {a : Nat}
    (ha : ∀ j < 13, a ≠ recordAddress s.recIx.toNat j) : (decFields zs s).mem.slot? a = s.mem.slot? a := by
  refine (decFields_slots zs hc).1 a fun i hi hs => ?_
  obtain ⟨b, hb⟩ := Option.isSome_iff_exists.1 hs
  rw [body_address hin (hz i hi) hb]; exact ha b (body_slots i (hz i hi) b hb)

/-- The records decoded where they do not all fit: BOUNDS (60 R127), and no slot but the records' has changed. -/
theorem decode_records_bounds : ∀ (k : Nat) {s : State} {r : Nat} (m K : Nat), K = k + 1 → InBlock s .dec r K →
    (∀ i < K, ∀ p ∈ placed (s.cur.toNat + 256 * i) rawxBody, p.2.slot?.isSome → p.1 + p.2.width ≤ s.capBits →
      BitsWritten s.mem p.1 (p.1 + p.2.width)) → s.cur.toNat ≤ s.capBits →
    s.capBits < s.cur.toNat + 256 * K →
    ∃ t, microLoop (m + 15 * K) s = .next t ∧ t.fault = s.fault ||| 0x2 ∧
      ∀ a, (∀ i < K, ∀ j < 13, a ≠ recordAddress (r + i) j) → t.mem.slot? a = s.mem.slot? a := by
  intro k
  have last : ∀ {s : State} {r K : Nat} (n : Nat), InBlock s .dec r K → 0 < K →
      (∀ p ∈ placed s.cur.toNat rawxBody, p.2.slot?.isSome → p.1 + p.2.width ≤ s.capBits →
        BitsWritten s.mem p.1 (p.1 + p.2.width)) → s.cur.toNat ≤ s.capBits → s.capBits < s.cur.toNat + 256 →
      ∃ t, microLoop (n + 14) s = .next t ∧ t.fault = s.fault ||| 0x2 ∧
        ∀ a, (∀ j < 13, a ≠ recordAddress r j) → t.mem.slot? a = s.mem.slot? a := by
    intro s r K n h hK hw h0 hc
    have hm := h.max
    obtain ⟨zs, i, hpre, hz, hl⟩ := microLoop_decode_bounds (d := rawxEntries) (by decide) rawxBody (s := s) n
      h.words h.drop h.dir h.run rawxBody_isField
      (fun p hp hfit => body_decodable_field (by rw [h.recIx]; omega) (mem_of_placed _ _ _ hp) fun hs => hw p hp hs hfit)
      h0 (by rw [rawxBody_width]; omega)
    refine ⟨_, hl, by rw [decFields_eq]; rfl, fun a ha => ?_⟩
    exact body_decFields_keep h.inrep
      (fun i hi => hpre.subset (List.mem_append_left _ hi)) hz (by rw [h.recIx]; exact ha)
  induction k with
  | zero =>
    intro s r m K hK h hw h0 hc
    obtain rfl : K = 1 := hK
    obtain ⟨t, h1, h2, h3⟩ := last (m + 1) h (by omega) (hw 0 (by omega)) h0 (by omega)
    exact ⟨t, h1, h2, fun a ha => h3 a (ha 0 (by omega))⟩
  | succ k ih =>
    intro s r m K hK h hw h0 hc
    obtain ⟨J, hJ⟩ : ∃ J, J = k + 1 := ⟨_, rfl⟩
    have hKJ : K = J + 1 := by omega
    have h' : InBlock s .dec r (k + 1 + 1) := hK ▸ h
    have e : m + 15 * K = m + 15 * J + 15 := by omega
    by_cases hfit : s.cur.toNat + 256 ≤ s.capBits
    · obtain ⟨u, h1, h2, he, hcnt, hbuf, hcur, hk, _⟩ := decode_record (m + 15 * J) (hKJ ▸ h)
        (fun p hp hs => hw 0 (by omega) p hp hs (by
          have := (placed_within _ _ _ hp).2; rw [rawxBody_width] at this; omega)) hfit
      have hn := InBlock.afterRepe_next h' he hcnt
      rw [← hJ] at hn
      have hbuf' : SameBuffer s.mem (afterRepe u).mem := by rw [afterRepe_mem]; exact hbuf
      have hcap : (afterRepe u).capBits = s.capBits := by rw [afterRepe_sequenced, he]; rfl
      have hcur' : (afterRepe u).cur.toNat = s.cur.toNat + 256 := by rw [afterRepe_cur]; exact hcur
      have hsh : ∀ i, s.cur.toNat + 256 + 256 * i = s.cur.toNat + 256 * (i + 1) := fun i => by
        rw [Nat.mul_succ, Nat.add_assoc, Nat.add_comm 256]
      obtain ⟨t, ht, hf, hs⟩ := ih m J hJ hn (fun i hi p hp hs hfit q hq hq' => by
        rw [hbuf'.bit?_eq]; rw [hcur', hsh] at hp; rw [hcap] at hfit
        exact hw (i + 1) (by omega) p hp hs hfit q hq hq') (by omega) (by omega)
      refine ⟨t, by rw [e, h1, ht], by rw [hf, afterRepe_sequenced, he]; rfl, fun a ha => ?_⟩
      rw [hs a fun i hi j hj => by
        have := ha (i + 1) (by omega) j hj; rwa [← Nat.add_assoc, Nat.add_right_comm] at this, afterRepe_mem]
      exact hk a (ha 0 (by omega))
    · obtain ⟨t, h1, h2, h3⟩ := last (m + 15 * J + 1) h (by omega) (hw 0 (by omega)) h0 (by omega)
      exact ⟨t, by rw [e]; exact h1, h2, fun a ha => h3 a (ha 0 (by omega))⟩

/-- The header decoded where it does not all fit: BOUNDS (60 R127), and no slot but its eight has changed. -/
theorem decode_head_bounds {s : State} (n : Nat) (hmt : s.mt = .rawx) (hdir : s.dir = .dec) (hrun : s.running = true)
    (hin : s.inrep = false) (hdix : s.dix = 0) (hcur0 : s.cur = 0)
    (hw : ∀ p ∈ placed 0 rawxHead, p.2.slot?.isSome → p.1 + p.2.width ≤ s.capBits →
      BitsWritten s.mem p.1 (p.1 + p.2.width))
    (hcls : 8 ≤ s.capBits → s.mem.readField 8 0 0 = .ok (s.expClass.setWidth 64))
    (hid : 16 ≤ s.capBits → s.mem.readField 8 8 0 = .ok (s.expId.setWidth 64)) (hc : s.capBits < 140) :
    ∃ t, microLoop (n + 9) s = .next t ∧ t.fault = s.fault ||| 0x2 ∧ ∀ a, 8 ≤ a → t.mem.slot? a = s.mem.slot? a := by
  have hword : decodeLayout s.words = some rawxEntries := by unfold State.words; rw [hmt]; exact decodeLayout_rawx
  have hcz : s.cur.toNat = 0 := by rw [hcur0]; rfl
  obtain ⟨zs, i, hpre, hz, hl⟩ := microLoop_decode_bounds (d := rawxEntries) (y := .repb)
    (ys := rawxBody ++ [.repe, .endDesc]) (by decide) rawxHead (s := s) n hword (by rw [hdix]; decide) hdir hrun
    rawxHead_isField
    (fun p hp hfit => by
      rw [hcz] at hp
      exact head_decodable_field hin hp (fun hs => hw p hp hs hfit)
        (fun h => hcls (by rw [h] at hfit; exact hfit)) (fun h => hid (by rw [h] at hfit; exact hfit)))
    (by omega) (by rw [rawxHead_width]; omega)
  refine ⟨_, hl, by rw [decFields_eq]; rfl, fun a ha => (decFields_slots zs hz).1 a fun j hj hs => ?_⟩
  have hj' : j ∈ rawxHead := hpre.subset (List.mem_append_left _ hj)
  obtain ⟨b, hb⟩ := Option.isSome_iff_exists.1 hs
  rw [head_plain s hin j hj' b hb]
  have := head_slots j hj' b hb; omega

/-- Past the header, the entry at DIX is REPB, a field of the body, REPE or END. -/
theorem rawxEntries_tail : ∀ k < 26, 9 ≤ k →
    (rawxEntries[k]? = some .repb ∧ k = 9) ∨ (9 < k ∧ k < 24 ∧ ∃ i ∈ rawxBody, rawxEntries[k]? = some i) ∨
    (rawxEntries[k]? = some .repe ∧ k = 24) ∨ (rawxEntries[k]? = some .endDesc ∧ k = 25) := by decide

/-- A decode past the RAWX header whose count is at most MAXSAT never ends with INVALID_MESSAGE (60 R123). -/
theorem decode_tail_valid : ∀ (n : Nat) {s t : State}, microLoop n s = .next t → s.mt = .rawx → s.dir = .dec →
    s.running = true → 9 ≤ s.dix.toNat → s.dix.toNat < 26 → (s.dix.toNat = 9 ∨ s.rpt = 10) →
    s.cnt.toNat ≤ s.params.maxsat.toNat → t.fault ≠ 0 ∨ t.status ≠ .invalidMessage := by
  intro n
  induction n with
  | zero => intro s t h; cases h
  | succ n ih =>
    intro s t h hmt hdir hrun h9 h26 hrpt hcnt
    have hword : decodeLayout s.words = some rawxEntries := by unfold State.words; rw [hmt]; exact decodeLayout_rawx
    have hfetch := fetchEntry_eq hword
    have hinc : ∀ x : BitVec 6, x.toNat < 26 → (x + 1).toNat = x.toNat + 1 := fun x hx => by
      rw [BitVec.toNat_add]; simp; omega
    have hx := hinc _ h26
    rcases rawxEntries_tail _ h26 h9 with ⟨hi, hk⟩ | ⟨hk, hk', i, hb, hi⟩ | ⟨hi, hk⟩ | ⟨hi, hk⟩ <;> rw [hi] at hfetch
    · have hd9 : s.dix = 9 := BitVec.eq_of_toNat_eq (by rw [hk]; rfl)
      by_cases hz : s.cnt = 0
      · rw [repb_skip n hmt hrun hd9 hz] at h
        exact ih h hmt hdir hrun (show 9 ≤ (25 : BitVec 6).toNat by decide) (show (25 : BitVec 6).toNat < 26 by decide)
          (.inr rfl) hcnt
      · rw [repb_enter n hmt hrun hd9 hz hcnt] at h
        exact ih h hmt hdir hrun (show 9 ≤ (10 : BitVec 6).toNat by decide) (show (10 : BitVec 6).toNat < 26 by decide)
          (.inr rfl) hcnt
    · have hr10 : s.rpt = 10 := hrpt.resolve_left (by omega)
      cases hs : entryStep i s with
      | fault r => simp [microLoop, microStep, hfetch, hs] at h
      | refused r => simp [microLoop, microStep, hfetch, hs] at h
      | next u =>
        rcases entryStep_decode_next (rawxBody_isField i hb) hdir hs with rfl | rfl | ⟨_, _, rfl⟩
        · rw [microLoop_last hfetch hs rfl] at h
          rw [← Host.Outcome.next.inj h]
          have : ∀ b : BitVec 4, b ||| 2 ≠ 0 := by decide
          exact .inl (this _)
        · rw [microLoop_last hfetch hs rfl] at h
          rw [← Host.Outcome.next.inj h]
          exact .inr (by simp [finish])
        · have hr' : (decOne i s).running = true := by rw [decOne_eq]; exact hrun
          rw [microLoop_step hfetch hs hr'] at h
          have hc : (decOne i s).cnt = s.cnt := by rw [decOne_cnt, rawxBody_noCount i hb]; rfl
          have hdx : (decOne i s).dix.toNat = s.dix.toNat + 1 := by rw [decOne_eq]; exact hx
          exact ih h (by rw [decOne_eq]; exact hmt) (by rw [decOne_eq]; exact hdir) hr' (by omega) (by omega)
            (.inr (by rw [decOne_eq]; exact hr10)) (by rw [hc, decOne_eq]; exact hcnt)
    · have hr10 : s.rpt = 10 := hrpt.resolve_left (by omega)
      rw [microLoop_step hfetch (entryStep_repe s) ((afterRepe_running s).trans hrun)] at h
      have hdx : (afterRepe s).dix.toNat = 10 ∨ (afterRepe s).dix.toNat = 25 := by
        unfold afterRepe; split
        · exact .inl (by rw [hr10]; rfl)
        · exact .inr (by show (s.dix + 1).toNat = 25; omega)
      refine ih h (by rw [afterRepe_sequenced]; unfold afterRepe; split <;> exact hmt)
        (by unfold afterRepe; split <;> exact hdir) ((afterRepe_running s).trans hrun) (by omega) (by omega)
        (.inr (by unfold afterRepe; split <;> exact hr10)) (by rw [afterRepe_cnt, afterRepe_sequenced]; exact hcnt)
    · have hd : s.dix = 25 := BitVec.eq_of_toNat_eq (by rw [hk]; rfl)
      rw [decode_end n hmt hdir hd] at h
      rw [← Host.Outcome.next.inj h]
      exact .inr (by simp [finish])

end Sys2Proof.Machine
end

