-- ==== Sys2Proof/Tests/Slice0.lean ====
section
/-!
SUPPORT. Tests of the model. Expected values are the vectors of spec/95_test_vectors.md (their ids in the comments) and
words written out from spec/30_encoding.md; after them, for every statement with hypotheses, a witness that meets them.
-/

namespace Sys2Proof.Tests

open Sys2Proof Sys2Proof.Machine

set_option Elab.async false

/-! ### Small states -/

/-- The bytes of a buffer, from byte 0 on. -/
def bytesFrom (l : List Nat) : List Host.Cell := l.zipIdx.map fun p => (p.2, BitVec.ofNat 8 p.1)

/-- Slots from address `a` on. -/
def slotsAt (a : Nat) (l : List Nat) : List (Nat × Slot) := l.zipIdx.map fun p => (a + p.2, BitVec.ofNat 64 p.1)

/-- The block after reset with the reference parameters, CAP, a buffer and slots. -/
def block (cap : Nat) (buf : List Nat) (slots : List (Nat × Slot)) : State :=
  { State.reset with
    params := Params.reference, cap := BitVec.ofNat 29 cap, mem := ⟨bytesFrom buf, [], slots⟩ }

/-- A block inside a command of RAWX at its first entry. -/
def inside (dir : Direction) (s : State) : State := { s with dir := dir, running := true }

/-- The result is this fault. -/
def faultIs (r : Result) (f : Fault) : Bool :=
  match r with
  | .fault g => g == f
  | _ => false

/-- The result is this refusal. -/
def refusedWith (r : Result) (f : Refusal) : Bool :=
  match r with
  | .refused g => g == f
  | _ => false

/-- What holds of the next state, if the result is one. -/
def nextHas (r : Result) (f : State → Bool) : Bool :=
  match r with
  | .next t => f t
  | _ => false

/-! ### Well-formedness: each check refuses an ill-formed descriptor (30 R52, R55) -/

/-- 95, section 2.2: the layout T1 of words 61C0 81C1 32C2 41C0 24C3 0000. -/
def t1 : List EntryWord := [0x61C0, 0x81C1, 0x32C2, 0x41C0, 0x24C3, 0x0000]

theorem test_t1_admitted :
    ({ Params.reference with ephLayout := t1 } : Params).ok = true := by decide

theorem test_reference_admitted : Params.reference.ok = true := by decide +kernel

theorem test_malformed_word_refused :
    decodeLayout [0x61C0, 0x81C1, 0x7000, 0x0000] = none := by decide

theorem test_no_end_refused : Descriptor.endsOnce [.tagc 7 0, .tagi 7 1, .fld false 7 2] = false := by decide

theorem test_second_end_refused : Descriptor.endsOnce [.tagc 7 0, .endDesc, .tagi 7 1, .endDesc] = false := by decide

theorem test_command_refused : Descriptor.endsOnce [.encRawx, .endDesc] = false := by decide

theorem test_tags_not_first_refused : Descriptor.tagsFirst [.tagi 7 1, .tagc 7 0, .endDesc] = false := by decide

theorem test_wide_tag_refused : Descriptor.tagsFirst [.tagc 8 0, .tagi 7 1, .endDesc] = false := by decide

theorem test_repe_alone_refused :
    Descriptor.repeatOnce [.tagc 7 0, .tagi 7 1, .cntf 7 2, .repe, .endDesc] = false := by decide

theorem test_empty_block_refused :
    Descriptor.repeatOnce [.tagc 7 0, .tagi 7 1, .cntf 7 2, .repb, .repe, .endDesc] = false := by decide

theorem test_count_in_block_refused :
    Descriptor.bodyPlain [.repb, .cntf 7 2, .repe, .endDesc] = false := by decide

theorem test_same_slot_refused :
    Descriptor.slotsDistinct [.tagc 7 0, .tagi 7 0, .endDesc] = false := by decide

theorem test_slot_16_in_block_refused :
    Descriptor.slotsDistinct [.repb, .fld false 7 16, .repe, .endDesc] = false := by decide

theorem test_oversize_refused : Descriptor.sizeOk [.repb, .fld false 63 0, .repe] (2 ^ 26) = false := by decide

theorem test_eph_repeat_refused : Descriptor.noRepeat [.repb, .fld false 7 2, .repe, .endDesc] = false := by decide

theorem test_eph_width_7_refused : Descriptor.widthsEph [.fld false 6 2, .endDesc] = false := by decide

theorem test_eph_width_33_refused : Descriptor.widthsEph [.fld false 32 2, .endDesc] = false := by decide

theorem test_eph_no_reserved_refused : Descriptor.oneReserved [.tagc 7 0, .tagi 7 1, .endDesc] = false := by decide

theorem test_eph_last_reserved_refused :
    Descriptor.oneReserved [.tagc 7 0, .tagi 7 1, .rsv 7, .endDesc] = false := by decide

/-! ### Decoding: a word written out from 30 R46 to R51 for every instruction -/

/-- 30 R48 and 95: OP 1 to 4, LEN at bits 103..96, POS at 95..64, VAL at 63..0. -/
theorem test_decode_primitives :
    decodeCommand 0x10000008000000040000000000000_0A5 = .ok (.setu 4 8 0xA5) ∧
    decodeCommand 0x2000000500000_00DFFFFFFFFFFFFFFFB = .ok (.sets 13 5 0xFFFFFFFFFFFFFFFB) ∧
    decodeCommand 0x30000040_00000000_00000000_00000000 = .ok (.getu 0 64) ∧
    decodeCommand 0x40000005_0000000D_00000000_00000000 = .ok (.gets 13 5) := by decide

/-- 30 R48 and 95: the four message words. -/
theorem test_decode_messages :
    decodeCommand 0x80000000_00000000_00000000_00000000 = .ok .encRawx ∧
    decodeCommand 0x90000000_00000000_00000000_00000000 = .ok .decRawx ∧
    decodeCommand 0xA0000000_00000000_00000000_00000000 = .ok .encEph ∧
    decodeCommand 0xB0000000_00000000_00000000_00000000 = .ok .decEph := by decide

/-- 95, section 2.2: the descriptor words. -/
theorem test_decode_entries :
    decodeEntry 0x0000 = .ok .endDesc ∧ decodeEntry 0x33C4 = .ok (.fld true 15 4) ∧
    decodeEntry 0x2FC2 = .ok (.fld false 63 2) ∧ decodeEntry 0x40C0 = .ok (.rsv 3) ∧
    decodeEntry 0x61C0 = .ok (.tagc 7 0) ∧ decodeEntry 0x81C1 = .ok (.tagi 7 1) ∧
    decodeEntry 0xA1C5 = .ok (.cntf 7 5) ∧ decodeEntry 0xC000 = .ok .repb ∧ decodeEntry 0xE000 = .ok .repe := by
  decide

/-- 95: the malformed entry words. -/
theorem test_malformed_entries :
    decodeEntry 0x0001 = .error (.malformedEntry 0x0001) ∧ decodeEntry 0x4001 = .error (.malformedEntry 0x4001) ∧
    decodeEntry 0x7000 = .error (.malformedEntry 0x7000) ∧ decodeEntry 0xC040 = .error (.malformedEntry 0xC040) ∧
    decodeEntry 0xE001 = .error (.malformedEntry 0xE001) := by decide

/-- 95: the illegal command words. -/
theorem test_illegal_words :
    decodeCommand 0 = .error (.illegalOp 0) ∧
    decodeCommand 0x50000000_00000000_00000000_00000000 = .error (.illegalOp 5) ∧
    decodeCommand 0x10100008_00000004_00000000_000000A5 = .error .nonzeroZero ∧
    decodeCommand 0x30000010_00000004_00000000_00000001 = .error .nonzeroUnused ∧
    decodeCommand 0x80000000_00000001_00000000_00000000 = .error .nonzeroUnused := by decide

/-- The numbering of the opcode table: an entry row has 16 bits, a command row 128. -/
theorem test_table_words :
    decodeTableWord 16 0xA1C5 = some (.cntf 7 5) ∧
      decodeTableWord 128 0x90000000_00000000_00000000_00000000 = some .decRawx := by decide +kernel

/-- 30 R54, R56: both descriptors end with END and have 26 and 32 entries. -/
theorem test_descriptor_lengths :
    (decodeLayout rawxWords).map List.length = some 26 ∧ (decodeLayout ephReference).map List.length = some 32 := by
  decide

/-! ### Primitives (95, section 2.1) -/

/-- B8. -/
theorem test_setu_unaligned_64 :
    nextHas (exec (.setu 4 64 0x0123456789ABCDEF) (block 9 (List.replicate 9 0xFF) []))
      (fun t => t.mem.bytes == bytesFrom [0xF0, 0x12, 0x34, 0x56, 0x78, 0x9A, 0xBC, 0xDE, 0xFF]) = true := by
  decide +kernel

/-- B28: 33 bits of 32. -/
theorem test_setu_bounds :
    nextHas (exec (.setu 29 4 1) (block 4 [0, 0, 0, 0] [])) (fun t => t.fault == 2 && t.mem.bytes == bytesFrom [0, 0, 0, 0])
      = true := by decide +kernel

/-- B11. -/
theorem test_sets_5_bits :
    nextHas (exec (.sets 2 5 (BitVec.ofInt 64 (-5))) (block 4 [0, 0, 0, 0] []))
      (fun t => t.mem.bytes == bytesFrom [0x36, 0, 0, 0]) = true := by decide +kernel

/-- B24: out of range, the sign lost. -/
theorem test_sets_truncates :
    nextHas (exec (.sets 0 8 (BitVec.ofInt 64 (-129))) (block 4 [0, 0, 0, 0] []))
      (fun t => t.mem.bytes == bytesFrom [0x7F, 0, 0, 0]) = true := by decide +kernel

/-- B16. -/
theorem test_getu_straddles :
    nextHas (exec (.getu 4 16) (block 4 [0x12, 0x34, 0x56, 0x78] [])) (fun t => t.res == 0x2345) = true := by
  decide +kernel

/-- B30: the sum does not wrap. -/
theorem test_getu_bounds_no_wrap :
    nextHas (exec (.getu 0xFFFFFFFF 64) (block 4 [0, 0, 0, 0] [])) (fun t => t.fault == 2 && t.res == 0) = true := by
  decide +kernel

/-- B14. -/
theorem test_gets_most_negative :
    nextHas (exec (.gets 0 8) (block 4 [0x80, 0, 0, 0] [])) (fun t => t.res == 0xFFFFFFFFFFFFFF80) = true := by
  decide +kernel

/-- B20: sign bit 0. -/
theorem test_gets_positive :
    nextHas (exec (.gets 20 7) (block 4 [0x12, 0x34, 0x56, 0x78] [])) (fun t => t.res == 0x33) = true := by
  decide +kernel

/-- B31: WIDTH before BOUNDS. -/
theorem test_width_before_bounds :
    nextHas (exec (.setu 40 70 1) (block 4 [0, 0, 0, 0] [])) (fun t => t.fault == 1) = true := by decide +kernel

/-! ### Descriptor operations (95, section 2.2) -/

/-- Q13. -/
theorem test_end_encode :
    nextHas (exec .endDesc { inside .enc (block 96 [] []) with cur := 652 }) (fun t => t.bits == 652 && !t.running)
      = true := by decide +kernel

/-- Q14. -/
theorem test_end_decode :
    nextHas (exec .endDesc { inside .dec (block 96 [] []) with status := .invalidMessage })
      (fun t => t.status == .ok && t.bits == 0 && !t.running) = true := by decide +kernel

/-- Q1. -/
theorem test_fld_decode_signed :
    nextHas (exec (.fld true 15 4) (inside .dec (block 2 [0xFF, 0xFB] [])))
      (fun t => t.mem.slot? 4 == some 0xFFFFFFFFFFFFFFFB && t.cur == 16 && t.dix == 1) = true := by decide +kernel

/-- Q4, in a record: the slot R[1][6] of a repeated block. -/
theorem test_fld_encode_truncates :
    nextHas (exec (.fld true 7 6) { inside .enc (block 1 [0] [(86, 0x1FF)]) with inrep := true, recIx := 1 })
      (fun t => t.mem.bytes == bytesFrom [0xFF]) = true := by decide +kernel

/-- Q5. -/
theorem test_rsv_encode :
    nextHas (exec (.rsv 3) { inside .enc (block 18 (List.replicate 18 0xFF) []) with cur := 136 })
      (fun t => t.mem.readByte 17 == some 0x0F && t.cur == 140) = true := by decide +kernel

/-- Q6, over bits nothing has written: they are not read. -/
theorem test_rsv_decode :
    nextHas (exec (.rsv 7) (inside .dec (block 1 [] []))) (fun t => t.cur == 8 && t.dix == 1) = true := by
  decide +kernel

/-- Q7, with the reference class 0x02 and a first byte of 12; the second byte is not read. -/
theorem test_tagc_mismatch :
    nextHas (exec (.tagc 7 0) (inside .dec (block 2 [0x12] [])))
      (fun t => t.status == .typeMismatch && t.fault == 0 && !t.running) = true := by decide +kernel

/-- Q8: no comparison on encode. -/
theorem test_tagc_encode :
    nextHas (exec (.tagc 7 0) (inside .enc (block 1 [0] [(0, 0x102)])))
      (fun t => t.mem.bytes == bytesFrom [0x02] && t.running) = true := by decide +kernel

/-- P3: id byte 0x14 is not 0x15. -/
theorem test_tagi_mismatch :
    nextHas (exec (.tagi 7 1) { inside .dec (block 2 [0x02, 0x14] []) with cur := 8, dix := 1 })
      (fun t => t.status == .typeMismatch && t.dix == 1) = true := by decide +kernel

/-- 41 R87: a matching id is stored. -/
theorem test_tagi_match :
    nextHas (exec (.tagi 7 1) { inside .dec (block 2 [0x02, 0x15] []) with cur := 8, dix := 1 })
      (fun t => t.mem.slot? 1 == some 0x15 && t.running && t.dix == 2) = true := by decide +kernel

/-- Q9, first half: CNT is the whole slot. -/
theorem test_cntf_encode :
    nextHas (exec (.cntf 7 5) (inside .enc (block 1 [0] [(5, 300)])))
      (fun t => t.mem.bytes == bytesFrom [0x2C] && t.cnt == 300) = true := by decide +kernel

/-- 41 R88: the byte 03. -/
theorem test_cntf_decode :
    nextHas (exec (.cntf 7 5) (inside .dec (block 1 [0x03] [])))
      (fun t => t.mem.slot? 5 == some 3 && t.cnt == 3) = true := by decide +kernel

/-- Q9, second half. -/
theorem test_repb_count :
    nextHas (exec .repb { inside .enc (block 1 [] []) with cnt := 300, dix := 9 })
      (fun t => t.fault == 8 && !t.running) = true := by decide +kernel

/-- Q10: the entry after REPE is entry 25. -/
theorem test_repb_empty :
    nextHas (exec .repb { inside .dec (block 1 [] []) with dix := 9 })
      (fun t => t.dix == 25 && !t.inrep && t.running) = true := by decide +kernel

/-- Q11. -/
theorem test_repe_loops :
    nextHas (exec .repe { inside .enc (block 1 [] []) with cnt := 2, rpt := 10, dix := 24, inrep := true })
      (fun t => t.recIx == 1 && t.dix == 10 && t.inrep) = true := by decide +kernel

/-- Q12. -/
theorem test_repe_leaves :
    nextHas (exec .repe
      { inside .enc (block 1 [] []) with cnt := 2, rpt := 10, dix := 24, inrep := true, recIx := 1 })
      (fun t => t.recIx == 0 && t.dix == 25 && !t.inrep) = true := by decide +kernel

/-! ### Message commands (95, sections 2.2 and 2.3) -/

/-- The slots S[0..7] of M1. -/
def m1Slots : List (Nat × Slot) := slotsAt 0 [0x02, 0x15, 0x41B8C21AB0000000, 2015, 15, 0, 7, 9]

/-- The 18 header bytes of M1. -/
def m1Bytes : List Nat :=
  [0x02, 0x15, 0x41, 0xB8, 0xC2, 0x1A, 0xB0, 0x00, 0x00, 0x00, 0x07, 0xDF, 0x00, 0x0F, 0x00, 0x07, 0x09, 0x0F]

/-- M1, with the low nibble of byte 17 kept. -/
theorem test_encRawx_no_records :
    nextHas (exec .encRawx (block 24 (List.replicate 24 0xFF) m1Slots))
      (fun t => t.mem.bytes == bytesFrom (m1Bytes ++ List.replicate 6 0xFF) && t.bits == 140 && t.fault == 0)
      = true := by decide +kernel

/-- M11: a count of 32 with MAXSAT 31. -/
theorem test_encRawx_count :
    nextHas (exec .encRawx (block 1024 [] (slotsAt 0 [0x02, 0x15, 0, 2015, 15, 32, 7, 9])))
      (fun t => t.mem.readByte 14 == some 0x20 && t.fault == 8 && t.bits == 0) = true := by decide +kernel

/-- M2. -/
theorem test_decRawx_no_records :
    nextHas (exec .decRawx (block 24 m1Bytes [])) (fun t => t.status == .ok && t.mem.slots == m1Slots) = true := by
  decide +kernel

/-- M10: the class matches, the id byte does not fit. -/
theorem test_decRawx_bounds :
    nextHas (exec .decRawx (block 1 [0x02] [])) (fun t => t.fault == 2 && t.status == .ok) = true := by decide +kernel

/-- T1: 56 bits, no field on a byte boundary behind the reserved one. -/
theorem test_encEph_t1 :
    nextHas (exec .encEph
      { block 8 (List.replicate 8 0xFF) (slotsAt 0 [0x13, 0x00, 0xFFFFFFFFFFFFFFFD, 0xABCDE]) with
        params := ⟨31, 0x02, 0x15, t1⟩ })
      (fun t => t.mem.bytes == bytesFrom [0x13, 0x00, 0xFF, 0xD0, 0x0A, 0xBC, 0xDE, 0xFF] && t.bits == 56) = true := by
  decide +kernel

/-- T1 with the 12 wire bits 801. -/
theorem test_decEph_t1 :
    nextHas (exec .decEph { block 8 [0x13, 0x00, 0x80, 0x10, 0x0A, 0xBC, 0xDE] [] with params := ⟨31, 0x02, 0x15, t1⟩ })
      (fun t => t.status == .ok && t.mem.slot? 2 == some 0xFFFFFFFFFFFFF801 && t.mem.slot? 3 == some 0xABCDE)
      = true := by decide +kernel

/-- 30 R52: an EPH layout with a malformed word is refused. -/
theorem test_encEph_refused :
    refusedWith (exec .encEph { block 8 [] [] with params := ⟨31, 0x02, 0x15, [0x7000]⟩ }) .malformedDescriptor = true
      := by decide +kernel

/-! ### The machine -/

/-- P5: after a WIDTH fault the next legal command is ignored. -/
theorem test_halted_ignores :
    nextHas (exec (.setu 0 8 0xFF) { block 4 [0, 0, 0, 0] [] with fault := 1 })
      (fun t => t.mem.bytes == bytesFrom [0, 0, 0, 0] && t.fault == 1) = true := by decide +kernel

/-- 95: an illegal word on the command port. -/
theorem test_illegal_step :
    nextHas (step { block 4 [] [] with pending := [.command 0, .reset] })
      (fun t => t.fault == 4 && t.pending == [.reset]) = true := by decide +kernel

/-- 70 R140: reset clears the halted state and leaves BUF. -/
theorem test_reset_step :
    nextHas (step { block 4 [1, 2] [] with fault := 2, pending := [.reset] })
      (fun t => t.fault == 0 && t.cap == 0 && t.mem.bytes == bytesFrom [1, 2]) = true := by decide +kernel

/-- 10 R22: bits 31..29 of a write of CAP are ignored. -/
theorem test_cap_write :
    nextHas (step { block 4 [] [] with pending := [.writeReg 0 0xE0000010] })
      (fun t => readReg t 0 == 0x10) = true := by decide +kernel

/-- 10 R22: a write of a read-only register is ignored. -/
theorem test_readonly_write :
    nextHas (step { block 4 [] [] with pending := [.writeReg 4 0xF] }) (fun t => readReg t 4 == 0) = true := by
  decide +kernel

/-- Every row's word placed by `withFetchWord` after reset is run by the next step: with CAP 0 every command and entry
with a field raises BOUNDS, REPB skips to the REPE placed after it, REPE moves on, END ends. -/
theorem test_fetch_words :
    (∀ w ∈ [0x10000001 * 2 ^ 96, 0x20000001 * 2 ^ 96, 0x30000001 * 2 ^ 96, 0x40000001 * 2 ^ 96, 0x80000000 * 2 ^ 96,
        0x90000000 * 2 ^ 96],
      nextHas (step (State.reset.withFetchWord 128 w)) (fun t => t.fault == 2) = true) ∧
    (∀ w ∈ [0x2000, 0x4000, 0x6000, 0x8000, 0xA000],
      nextHas (step (State.reset.withFetchWord 16 w)) (fun t => t.fault == 2) = true) ∧
    nextHas (step (State.reset.withFetchWord 16 0x0000)) (fun t => !t.running) = true ∧
    nextHas (step (State.reset.withFetchWord 16 0xC000)) (fun t => t.dix == 2) = true ∧
    nextHas (step (State.reset.withFetchWord 16 0xE000)) (fun t => t.dix == 1) = true := by decide +kernel

/-- 10 R24: a slot nothing has written holds no value. -/
theorem test_unwritten_slot_stops :
    faultIs (exec (.tagc 7 0) (inside .enc (block 1 [0] []))) (.unwrittenSlot 0) = true := by decide +kernel

/-! ### Witnesses: states and operands that meet the hypotheses of each statement, clause by clause -/

theorem next_of_nextHas {r : Result} {f : State → Bool} (h : nextHas r f = true) : ∃ t, r = .next t ∧ f t = true := by
  unfold nextHas at h
  split at h
  · exact ⟨_, rfl, h⟩
  · cases h

/-- A field read back as `v` holds `v`. -/
theorem holds {m : Memory} {pos w : Nat} {v : Slot} (hw : w ≤ 64) (h : (m.readField w pos 0).toOption = some v) :
    FieldHolds m pos w v := by
  cases hr : m.readField w pos 0 with
  | error e => rw [hr] at h; cases h
  | ok u =>
    rw [hr] at h
    have : u = v := Option.some.inj h
    subst this
    exact fieldHolds_of_readField hw hr

/-- Sixteen bytes of 0. -/
def sixteen : State := block 16 (List.replicate 16 0) []

theorem written_of_all {m : Memory} {n : Nat} (h : ∀ q < n, (m.bit? q).isSome) {lo hi : Nat} (hn : hi ≤ n) :
    BitsWritten m lo hi := fun q _ hq => h q (by omega)

theorem sixteen_written : ∀ q < 128, (sixteen.mem.bit? q).isSome := by decide +kernel

theorem witness_EncodeOfDecode : decode (.entry 0x2FC2) = .ok (.fld false 63 2) := by decide

theorem witness_CommandWordsSelectRows :
    decodeCommand 0x80000000_00000000_00000000_00000000 = .ok .encRawx ∧
    ∃ r ∈ commandRows, (0x80000000_00000000_00000000_00000000 : CommandWord) &&& r.mask = r.pattern := by decide

theorem witness_EntryWordsSelectRows :
    decodeEntry 0x5000 = .error (.malformedEntry 0x5000) ∧ decodeEntry 0x4FC0 = .ok (.rsv 63) ∧
    ∃ r ∈ entryRows, (0x4FC0 : EntryWord) &&& r.mask = r.pattern := by decide

theorem witness_OperandsAreTheWordsFields :
    decodeCommand 0x100000FF_FFFFFFFF_FFFFFFFF_FFFFFFFF = .ok (.setu 0xFFFFFFFF 0xFF 0xFFFFFFFFFFFFFFFF) ∧
    decodeCommand 0x200000FF_FFFFFFFF_FFFFFFFF_FFFFFFFF = .ok (.sets 0xFFFFFFFF 0xFF 0xFFFFFFFFFFFFFFFF) ∧
    decodeCommand 0x300000FF_FFFFFFFF_00000000_00000000 = .ok (.getu 0xFFFFFFFF 0xFF) ∧
    decodeCommand 0x400000FF_FFFFFFFF_00000000_00000000 = .ok (.gets 0xFFFFFFFF 0xFF) := by decide

/-- The contract of the primitives, at LEN 64 and at LEN 1, ending at the capacity: SetuWritesItsField,
SetsWritesTwosComplement and UnsignedAndMixedRoundTrips. -/
theorem witness_SetuWritesItsField :
    sixteen.fault = 0 ∧
    (1 ≤ (64 : BitVec 8).toNat ∧ (64 : BitVec 8).toNat ≤ 64 ∧
      (64 : BitVec 32).toNat + (64 : BitVec 8).toNat ≤ sixteen.capBits) ∧
    (1 ≤ (1 : BitVec 8).toNat ∧ (1 : BitVec 8).toNat ≤ 64 ∧
      (127 : BitVec 32).toNat + (1 : BitVec 8).toNat ≤ sixteen.capBits) := by decide +kernel

theorem witness_GetuReadsItsField :
    sixteen.fault = 0 ∧ (64 : BitVec 32).toNat + (64 : BitVec 8).toNat ≤ sixteen.capBits ∧
    BitsWritten sixteen.mem 64 (64 + 64) :=
  ⟨by decide, by decide, written_of_all sixteen_written (by decide)⟩

theorem witness_PrimitivesCheckTheirOperands :
    ({ sixteen with fault := 1 } : State).fault ≠ 0 ∧ sixteen.fault = 0 ∧ (0 : BitVec 8).toNat < 1 ∧
    64 < (65 : BitVec 8).toNat ∧ 8 * sixteen.cap.toNat < (128 : BitVec 32).toNat + (1 : BitVec 8).toNat := by
  decide +kernel

/-- A byte of the buffer, and the byte-aligned field of eight bytes that ends at the capacity. -/
theorem witness_FieldsAreBigEndian :
    (block 1 [0xA5] []).mem.readByte 0 = some 0xA5 ∧ sixteen.fault = 0 ∧ (64 : BitVec 32).toNat = 8 * 8 ∧
    (64 : BitVec 8).toNat = 8 * 8 ∧ (64 : BitVec 32).toNat + (64 : BitVec 8).toNat ≤ sixteen.capBits := by decide +kernel

theorem witness_SignedRoundTrip :
    sixteen.fault = 0 ∧ (64 : BitVec 32).toNat + (64 : BitVec 8).toNat ≤ sixteen.capBits ∧
    (-(2 ^ (64 - 1)) : Int) ≤ -9223372036854775808 ∧ (9223372036854775807 : Int) < 2 ^ (64 - 1) := by decide +kernel

theorem witness_SignExtensionUndoesTruncation :
    1 ≤ 1 ∧ 1 ≤ 64 ∧ (0x8000000000000000 : Slot).toNat < 2 ^ 64 ∧ 2 ^ (64 - 1) ≤ (0x8000000000000000 : Slot).toNat ∧
    (-(2 ^ (1 - 1)) : Int) ≤ -1 ∧ (-1 : Int) < 2 ^ (1 - 1) := by decide

/-- One bit split off a 64-bit field that ends at the capacity. -/
theorem witness_FieldsSplit :
    sixteen.fault = 0 ∧ 1 ≤ (1 : BitVec 8).toNat ∧ (1 : BitVec 8).toNat < (64 : BitVec 8).toNat ∧
    (64 : BitVec 32).toNat + (64 : BitVec 8).toNat ≤ sixteen.capBits ∧ BitsWritten sixteen.mem 64 (64 + 64) :=
  ⟨by decide, by decide, by decide, by decide, written_of_all sixteen_written (by decide)⟩

theorem witness_ReadOfUnwrittenBitStops :
    (block 2 [0xFF] []).fault = 0 ∧ (4 : BitVec 32).toNat + (8 : BitVec 8).toNat ≤ (block 2 [0xFF] []).capBits ∧
    BitsWritten (block 2 [0xFF] []).mem 4 (4 + 4) ∧ (block 2 [0xFF] []).mem.bit? (4 + 4) = none :=
  ⟨by decide, by decide, written_of_all (n := 8) (by decide +kernel) (by decide), by decide +kernel⟩

theorem witness_AccessesCheckTheCapacity :
    (sixteen.fault = 0 ∧ 8 * sixteen.cap.toNat < (65 : BitVec 32).toNat + (64 : BitVec 8).toNat) ∧
    8 * (block 0 [] []).cap.toNat < (block 0 [] []).cur.toNat + ((0 : BitVec 6).toNat + 1) := by decide +kernel

theorem witness_EndCompletesTheCommand :
    (inside .enc sixteen).dir = .enc ∧ (inside .dec sixteen).dir = .dec := by decide +kernel

/-- A state inside the repeated block, at the last record. -/
def lastRecord (dir : Direction) (slots : List (Nat × Slot)) : State :=
  { inside dir (block 8 (List.replicate 8 0) slots) with inrep := true, recIx := 30 }

/-- Outside the block at the last scalar slot, inside it at the last slot of the last record, a 64-bit field ending at the
capacity: the encode clause of FldMovesItsField. -/
theorem witness_FldMovesItsField :
    NamesSlot (inside .enc sixteen) 63 63 ∧ NamesSlot (lastRecord .enc [(559, 7)]) 15 559 ∧
    (lastRecord .enc [(559, 7)]).dir = .enc ∧ (lastRecord .enc [(559, 7)]).mem.slot? 559 = some 7 ∧
    (lastRecord .enc [(559, 7)]).cur.toNat + ((63 : BitVec 6).toNat + 1) ≤ (lastRecord .enc [(559, 7)]).capBits :=
  ⟨.inl (by decide +kernel), .inr (by decide +kernel), by decide, by decide +kernel, by decide +kernel⟩

/-- The decode clause. -/
theorem witness_FldMovesItsField_decode :
    NamesSlot (lastRecord .dec []) 15 559 ∧ (lastRecord .dec []).dir = .dec ∧
    (lastRecord .dec []).cur.toNat + ((63 : BitVec 6).toNat + 1) ≤ (lastRecord .dec []).capBits ∧
    BitsWritten (lastRecord .dec []).mem 0 (0 + 64) :=
  ⟨.inr (by decide +kernel), by decide, by decide +kernel, written_of_all (n := 64) (by decide +kernel) (by decide)⟩

theorem witness_RsvWritesZerosAndSkips : ∀ dir ∈ [Direction.enc, .dec],
    (inside dir sixteen).dir = dir ∧
    ({ inside dir sixteen with cur := 64 } : State).cur.toNat + ((63 : BitVec 6).toNat + 1) ≤ sixteen.capBits := by
  decide +kernel

/-- The encode clauses of TagsAreCheckedOnDecodeAlone and CntfLatchesTheCount. -/
theorem witness_TagsAreCheckedOnDecodeAlone :
    (inside .enc (block 1 [] [(63, 300)])).dir = .enc ∧ (block 1 [] [(63, 300)]).mem.slot? 63 = some 300 ∧
    (inside .enc (block 1 [] [(63, 300)])).cur.toNat + ((7 : BitVec 6).toNat + 1) ≤ (block 1 [] []).capBits := by
  decide +kernel

/-- A matching class byte and id byte: the second decode clause. -/
theorem witness_TagsAreCheckedOnDecodeAlone_match :
    (inside .dec (block 2 [0x02, 0x15] [])).expClass.toNat = 0x02 ∧
    (inside .dec (block 2 [0x02, 0x15] [])).expId.toNat = 0x15 ∧
    FieldHolds (block 2 [0x02, 0x15] []).mem 0 (7 + 1) 0x02 ∧ FieldHolds (block 2 [0x02, 0x15] []).mem 8 (7 + 1) 0x15 :=
  ⟨by decide, by decide, holds (by decide) (by decide +kernel), holds (by decide) (by decide +kernel)⟩

/-- A differing class byte and id byte: the third. -/
theorem witness_TagsAreCheckedOnDecodeAlone_mismatch :
    (inside .dec (block 2 [0x03, 0x14] [])).expClass.toNat ≠ 0x03 ∧
    (inside .dec (block 2 [0x03, 0x14] [])).expId.toNat ≠ 0x14 ∧
    FieldHolds (block 2 [0x03, 0x14] []).mem 0 (7 + 1) 0x03 ∧ FieldHolds (block 2 [0x03, 0x14] []).mem 8 (7 + 1) 0x14 :=
  ⟨by decide, by decide, holds (by decide) (by decide +kernel), holds (by decide) (by decide +kernel)⟩

theorem witness_CntfLatchesTheCount :
    (inside .dec (block 1 [0xFF] [])).dir = .dec ∧ (0xFF : Slot).toNat < 2 ^ (7 + 1) ∧
    FieldHolds (block 1 [0xFF] []).mem 0 (7 + 1) 0xFF :=
  ⟨by decide, by decide, holds (by decide) (by decide +kernel)⟩

theorem witness_RepbTestsTheCount :
    (sixteen.params.maxsat.toNat < (32 : BitVec 64).toNat ∧ (31 : BitVec 64).toNat ≤ sixteen.params.maxsat.toNat) ∧
    (inside .enc sixteen).dir = .enc ∧ (inside .dec sixteen).dir = .dec ∧ sixteen.cnt = 0 ∧
    sixteen.words[24]? = some 0xE000 ∧ ∀ j < 24, sixteen.words[j]? ≠ some 0xE000 := by decide +kernel

theorem witness_RepeLoopsOrLeaves :
    ({ sixteen with cnt := 31, recIx := 29 } : State).recIx.toNat + 1 < ({ sixteen with cnt := 31 } : State).cnt.toNat ∧
    ({ sixteen with cnt := 31 } : State).cnt.toNat ≤ ({ sixteen with recIx := 30 } : State).recIx.toNat + 1 := by
  decide +kernel

/-- An entry that loops back, and a host action that is neither a command nor a reset. -/
theorem witness_DixMovesByOne :
    Instr.isCommand .repe = false ∧ (∃ t, exec .repe { sixteen with cnt := 2, rpt := 10 } = .next t ∧ (t.dix == 10) = true) ∧
    ({ sixteen with pending := [.writeReg 0 1] } : State).pending = .writeReg 0 1 :: [] ∧ sixteen.running = false ∧
    HostAction.writeReg 0 1 ≠ .reset :=
  ⟨rfl, next_of_nextHas (by decide +kernel), rfl, rfl, by decide⟩

theorem witness_EntriesStopWhereNoValueIs :
    NamesSlot (inside .enc sixteen) 0 0 ∧ sixteen.mem.slot? 0 = none ∧
    (block 2 [0] []).mem.bit? (0 + 8) = none ∧ BitsWritten (block 2 [0] []).mem 0 (0 + 8) ∧
    (inside .dec (block 2 [0] [])).cur.toNat + ((8 : BitVec 6).toNat + 1) ≤ (block 2 [0] []).capBits ∧
    (lastRecord .enc []).inrep = true ∧ 16 ≤ (16 : BitVec 6).toNat ∧
    sixteen.params.maxsat.toNat ≤ ({ lastRecord .enc [] with recIx := 31 } : State).recIx.toNat :=
  ⟨.inl (by decide +kernel), by decide +kernel, by decide +kernel,
    written_of_all (n := 8) (by decide +kernel) (by decide), by decide +kernel, by decide, by decide, by decide +kernel⟩

/-- A struct of one record, all fields 0 but the class, the id and the count. -/
def oneRecord : List (Nat × Slot) := slotsAt 0 [0x02, 0x15, 0, 0, 0, 1, 0, 0] ++ slotsAt 64 (List.replicate 13 0)

/-- A wire message of one record, all fields 0 but the class, the id and the count. -/
def oneRecordBytes : List Nat :=
  [0x02, 0x15, 0, 0, 0, 0, 0, 0, 0, 0, 0, 0, 0, 0, 1, 0] ++ List.replicate 34 0

/-- For EncRawxWritesTheMessage with one record at the smallest capacity that holds it. -/
theorem witness_EncRawxWritesTheMessage :
    (block 50 [] oneRecord).fault = 0 ∧ (block 50 [] oneRecord).mem.slot? 5 = some 1 ∧
    RawxStructWritten (block 50 [] oneRecord).mem 1 ∧ 140 + 256 * 1 ≤ (block 50 [] oneRecord).capBits :=
  ⟨by decide, by decide +kernel, ⟨by decide +kernel, by decide +kernel⟩, by decide +kernel⟩

theorem oneRecordBytes_written : ∀ q < 400, ((block 50 oneRecordBytes []).mem.bit? q).isSome := by decide +kernel

theorem witness_DecRawxReadsTheMessage :
    FieldHolds (block 50 oneRecordBytes []).mem 0 8 (Params.reference.rawxClass.setWidth 64) ∧
    FieldHolds (block 50 oneRecordBytes []).mem 8 8 (Params.reference.rawxId.setWidth 64) ∧
    FieldHolds (block 50 oneRecordBytes []).mem 112 8 (BitVec.ofNat 64 1) ∧
    140 + 256 * 1 ≤ (block 50 oneRecordBytes []).capBits ∧
    (∀ f ∈ rawxHeader, BitsWritten (block 50 oneRecordBytes []).mem f.bit (f.bit + f.width)) ∧
    (∀ f ∈ rawxRecord,
      BitsWritten (block 50 oneRecordBytes []).mem (recordBit 0 + f.bit) (recordBit 0 + f.bit + f.width)) :=
  ⟨holds (by decide) (by decide +kernel), holds (by decide) (by decide +kernel), holds (by decide) (by decide +kernel),
    by decide +kernel,
    fun f hf => written_of_all oneRecordBytes_written
      ((by decide : ∀ f ∈ rawxHeader, f.bit + f.width ≤ 400) f hf),
    fun f hf => written_of_all oneRecordBytes_written
      ((by decide : ∀ f ∈ rawxRecord, recordBit 0 + f.bit + f.width ≤ 400) f hf)⟩

/-- The block with the layout T1. -/
def t1Block (buf : List Nat) (slots : List (Nat × Slot)) : State :=
  { block 7 buf slots with params := ⟨31, 0x02, 0x15, t1⟩ }

/-- The entries of T1. -/
def t1Entries : Descriptor := [.tagc 7 0, .tagi 7 1, .fld true 11 2, .rsv 7, .fld false 19 3, .endDesc]

theorem witness_EncEphWritesTheMessage :
    (t1Block [] (slotsAt 0 [0x13, 0, 5, 6])).params.ok = true ∧ decodeLayout t1 = some t1Entries ∧
    (∀ i ∈ t1Entries, ∀ a ∈ i.slot?, ((t1Block [] (slotsAt 0 [0x13, 0, 5, 6])).mem.slot? a).isSome) ∧
    Descriptor.totalWidth t1Entries ≤ (t1Block [] []).capBits := by decide +kernel

theorem t1_written : ∀ q < 56, ((t1Block [0x13, 0, 0, 0, 0, 0, 0] []).mem.bit? q).isSome := by decide +kernel

theorem witness_DecEphReadsTheMessage :
    (t1Block [0x13, 0, 0, 0, 0, 0, 0] []).params.ok = true ∧ decodeLayout t1 = some t1Entries ∧
    FieldHolds (t1Block [0x13, 0, 0, 0, 0, 0, 0] []).mem 0 8 0x13 ∧
    FieldHolds (t1Block [0x13, 0, 0, 0, 0, 0, 0] []).mem 8 8 0x00 ∧
    (∀ p ∈ placed 0 t1Entries, BitsWritten (t1Block [0x13, 0, 0, 0, 0, 0, 0] []).mem p.1 (p.1 + p.2.width)) ∧
    Descriptor.totalWidth t1Entries ≤ (t1Block [] []).capBits :=
  ⟨by decide, by decide, holds (by decide) (by decide +kernel), holds (by decide) (by decide +kernel),
    fun p hp => written_of_all t1_written ((by decide : ∀ p ∈ placed 0 t1Entries, p.1 + p.2.width ≤ 56) p hp),
    by decide +kernel⟩

theorem witness_EncRawxCountFault :
    (block 18 [] (slotsAt 0 [2, 0x15, 0, 0, 0, 32, 0, 0])).mem.slot? 5 = some 32 ∧
    Params.reference.maxsat.toNat < (32 : Slot).toNat ∧
    (∀ k < 8, ((block 18 [] (slotsAt 0 [2, 0x15, 0, 0, 0, 32, 0, 0])).mem.slot? k).isSome) ∧
    140 ≤ (block 18 [] []).capBits := by decide +kernel

/-- ENC_RAWX: a header cut at 136 bits with a count above MAXSAT, and a record cut at 392. -/
theorem witness_LongMessagesRaiseBounds :
    ((∀ k < 8, ((block 17 [] (slotsAt 0 [2, 0x15, 0, 0, 0, 32, 0, 0])).mem.slot? k).isSome) ∧
      (block 17 [] (slotsAt 0 [2, 0x15, 0, 0, 0, 32, 0, 0])).capBits < 140) ∧
    (block 49 [] oneRecord).mem.slot? 5 = some 1 ∧ (1 : Slot).toNat ≤ Params.reference.maxsat.toNat ∧
    RawxStructWritten (block 49 [] oneRecord).mem 1 ∧ (block 49 [] oneRecord).capBits < 140 + 256 * 1 :=
  ⟨by decide +kernel, by decide +kernel, by decide, ⟨by decide +kernel, by decide +kernel⟩, by decide +kernel⟩

theorem cutRecord_written : ∀ q < 392, ((block 49 oneRecordBytes []).mem.bit? q).isSome := by decide +kernel

/-- DEC_RAWX of a record cut at 392 bits; of a header cut before its class byte. -/
theorem witness_LongMessagesRaiseBounds_decRawx :
    FieldHolds (block 49 oneRecordBytes []).mem 0 8 (Params.reference.rawxClass.setWidth 64) ∧
    FieldHolds (block 49 oneRecordBytes []).mem 8 8 (Params.reference.rawxId.setWidth 64) ∧
    FieldHolds (block 49 oneRecordBytes []).mem 112 8 (BitVec.ofNat 64 1) ∧
    (block 49 oneRecordBytes []).capBits < 140 + 256 * 1 ∧
    (∀ f ∈ rawxHeader, f.bit + f.width ≤ (block 49 oneRecordBytes []).capBits →
      BitsWritten (block 49 oneRecordBytes []).mem f.bit (f.bit + f.width)) ∧
    (∀ f ∈ rawxRecord, recordBit 0 + f.bit + f.width ≤ (block 49 oneRecordBytes []).capBits →
      BitsWritten (block 49 oneRecordBytes []).mem (recordBit 0 + f.bit) (recordBit 0 + f.bit + f.width)) ∧
    (block 0 [] []).capBits = 0 :=
  ⟨holds (by decide) (by decide +kernel), holds (by decide) (by decide +kernel), holds (by decide) (by decide +kernel),
    by decide +kernel, fun _ _ h => written_of_all cutRecord_written h, fun _ _ h => written_of_all cutRecord_written h,
    by decide +kernel⟩

/-- The layout T1 with a capacity that cuts its last field. -/
def t1Cut (buf : List Nat) (slots : List (Nat × Slot)) : State := { t1Block buf slots with cap := 6 }

theorem t1Cut_written : ∀ q < 48, ((t1Cut [0x13, 0, 0, 0, 0, 0] []).mem.bit? q).isSome := by decide +kernel

/-- ENC_EPH and DEC_EPH. -/
theorem witness_LongMessagesRaiseBounds_eph :
    (t1Cut [] []).params.ok = true ∧ decodeLayout (t1Cut [] []).params.ephLayout = some t1Entries ∧
    (t1Cut [] []).capBits < Descriptor.totalWidth t1Entries ∧
    (∀ i ∈ t1Entries, ∀ a ∈ i.slot?, ((t1Cut [] (slotsAt 0 [0x13, 0, 5, 6])).mem.slot? a).isSome) ∧
    FieldHolds (t1Cut [0x13, 0, 0, 0, 0, 0] []).mem 0 8 0x13 ∧
    FieldHolds (t1Cut [0x13, 0, 0, 0, 0, 0] []).mem 8 8 0x00 ∧
    (∀ p ∈ placed 0 t1Entries, p.1 + p.2.width ≤ (t1Cut [] []).capBits →
      BitsWritten (t1Cut [0x13, 0, 0, 0, 0, 0] []).mem p.1 (p.1 + p.2.width)) :=
  ⟨by decide, by decide, by decide +kernel, by decide +kernel, holds (by decide) (by decide +kernel),
    holds (by decide) (by decide +kernel), fun _ _ h => written_of_all t1Cut_written h⟩

/-- The three capacities of 42 R109, for both decoders' constants. -/
theorem witness_WrongFirstBytesGiveTypeMismatch :
    (2 ≤ (block 2 [0x02, 0x14] []).cap.toNat ∧ (block 2 [0x02, 0x14] []).mem.readByte 0 = some 0x02 ∧
      (block 2 [0x02, 0x14] []).mem.readByte 1 = some 0x14 ∧ (0x14 : Byte) ≠ Params.reference.rawxId) ∧
    ((block 1 [0x03] []).cap = 1 ∧ (block 1 [0x03] []).mem.readByte 0 = some 0x03 ∧
      (0x03 : Byte) ≠ Params.reference.rawxClass) ∧
    ((block 1 [0x02] []).cap = 1 ∧ (block 1 [0x02] []).mem.readByte 0 = some Params.reference.rawxClass) ∧
    (block 0 [] []).cap = 0 ∧ (t1Block [0x12] []).params.ok = true ∧
    (t1Block [0x12] []).mem.readByte 0 = some 0x12 := by decide +kernel

/-- A class byte that differs, and a command that is no decode. -/
theorem witness_TypeMismatchIsDecidedByTheTags :
    (∃ t, exec .decRawx (block 1 [0x03] []) = .next t ∧ (t.fault == 0 && t.status == .typeMismatch) = true) ∧
    ∃ t, exec (.setu 0 8 1) sixteen = .next t ∧ (t.fault == 0) = true :=
  ⟨next_of_nextHas (by decide +kernel), next_of_nextHas (by decide +kernel)⟩

/-- A block with MAXSAT = 0 and a header whose count byte is the given one. -/
def headerBlock (count : Nat) : State :=
  { block 18 ([0x02, 0x15] ++ List.replicate 12 0 ++ [count, 0, 0, 0]) [] with params := ⟨0, 0x02, 0x15, ephReference⟩ }

theorem headerBlock_written : ∀ q < 144, ((headerBlock 0).mem.bit? q).isSome ∧ ((headerBlock 1).mem.bit? q).isSome := by
  decide +kernel

theorem witness_CountBoundaryIsMaxsat :
    140 + 256 * (headerBlock 0).params.maxsat.toNat ≤ (headerBlock 0).capBits ∧
    BitsWritten (headerBlock 0).mem 0 (140 + 256 * 0) ∧ BitsWritten (headerBlock 1).mem 0 (140 + 256 * 0) ∧
    FieldHolds (headerBlock 0).mem 112 8 (BitVec.ofNat 64 0) ∧ FieldHolds (headerBlock 1).mem 112 8 (BitVec.ofNat 64 1) :=
  ⟨by decide +kernel, fun q _ hq => (headerBlock_written q (by omega)).1,
    fun q _ hq => (headerBlock_written q (by omega)).2, holds (by decide) (by decide +kernel),
    holds (by decide) (by decide +kernel)⟩

theorem countAbove_written :
    ∀ q < 144, ((block 18 ([0x02, 0x15] ++ List.replicate 12 0 ++ [32, 0, 0, 0]) []).mem.bit? q).isSome := by
  decide +kernel

theorem witness_CountAboveCapacityIsInvalid :
    FieldHolds (block 18 ([0x02, 0x15] ++ List.replicate 12 0 ++ [32, 0, 0, 0]) []).mem 112 8 (BitVec.ofNat 64 32) ∧
    Params.reference.maxsat.toNat < 32 ∧ 140 ≤ (block 18 [] []).capBits ∧
    (∀ f ∈ rawxHeader, BitsWritten (block 18 ([0x02, 0x15] ++ List.replicate 12 0 ++ [32, 0, 0, 0]) []).mem f.bit
      (f.bit + f.width)) :=
  ⟨holds (by decide) (by decide +kernel), by decide, by decide +kernel,
    fun f hf => written_of_all countAbove_written ((by decide : ∀ f ∈ rawxHeader, f.bit + f.width ≤ 144) f hf)⟩

theorem headerAlone_written :
    ∀ q < 136, ((block 17 ([0x02, 0x15] ++ List.replicate 12 0 ++ [32, 0, 0]) []).mem.bit? q).isSome := by
  decide +kernel

/-- The clause of a capacity that cuts the header, at 136 bits of it, and the one of DEC_EPH, on a halted block. -/
theorem witness_CountAboveCapacityIsInvalid_bounds :
    FieldHolds (block 17 ([0x02, 0x15] ++ List.replicate 12 0 ++ [32, 0, 0]) []).mem 112 8 (BitVec.ofNat 64 32) ∧
    (block 17 [] []).capBits < 140 ∧
    (∀ f ∈ rawxHeader, BitsWritten (block 17 ([0x02, 0x15] ++ List.replicate 12 0 ++ [32, 0, 0]) []).mem f.bit
      (f.bit + f.width)) ∧
    ∃ t, exec .decEph { sixteen with status := .invalidMessage, fault := 1 } = .next t ∧
      (t.status == .invalidMessage) = true :=
  ⟨holds (by decide) (by decide +kernel), by decide +kernel,
    fun f hf => written_of_all headerAlone_written ((by decide : ∀ f ∈ rawxHeader, f.bit + f.width ≤ 136) f hf),
    next_of_nextHas (by decide +kernel)⟩

/-- A DEC_RAWX that ends with INVALID_MESSAGE, and a command that is no decode. -/
theorem witness_CountAboveCapacityIsInvalid_converse :
    (∃ t, exec .decRawx (block 18 ([0x02, 0x15] ++ List.replicate 12 0 ++ [32, 0, 0, 0]) []) = .next t ∧
      (t.fault == 0 && t.status == .invalidMessage) = true) ∧
    ∃ t, exec (.setu 0 8 1) sixteen = .next t ∧ (t.fault == 0) = true :=
  ⟨next_of_nextHas (by decide +kernel), next_of_nextHas (by decide +kernel)⟩

theorem witness_FailedDecodeKeepsTheRest :
    (∃ t, exec .decRawx (block 1 [0x03] []) = .next t ∧ (t.fault == 0 && t.status != .ok) = true) ∧
    (∃ t, exec .decEph (t1Block [0x12] []) = .next t ∧ (t.fault == 0 && t.status != .ok) = true) ∧
    decodeLayout (t1Block [0x12] []).params.ephLayout = some t1Entries :=
  ⟨next_of_nextHas (by decide +kernel), next_of_nextHas (by decide +kernel), by decide⟩

/-- A canonical struct of one record encodes without a fault. -/
theorem witness_RawxRoundTrip :
    (∀ f ∈ rawxHeader, ∃ v, (block 50 [] oneRecord).mem.slot? f.slot = some v ∧ Canonical f.width f.signed v) ∧
    (∀ f ∈ rawxRecord,
      ∃ v, (block 50 [] oneRecord).mem.slot? (recordAddress 0 f.slot) = some v ∧ Canonical f.width f.signed v) ∧
    ∃ t, exec .encRawx (block 50 [] oneRecord) = .next t ∧ (t.fault == 0) = true := by
  refine ⟨fun f hf => ?_, fun f hf => ?_, next_of_nextHas (by decide +kernel)⟩
  · simp only [rawxHeader, List.mem_cons, List.not_mem_nil, or_false] at hf
    rcases hf with rfl | rfl | rfl | rfl | rfl | rfl | rfl | rfl <;>
      exact ⟨_, rfl, by unfold Canonical; decide +kernel⟩
  · simp only [rawxRecord, List.mem_cons, List.not_mem_nil, or_false] at hf
    rcases hf with rfl | rfl | rfl | rfl | rfl | rfl | rfl | rfl | rfl | rfl | rfl | rfl | rfl <;>
      exact ⟨_, rfl, by unfold Canonical; decide +kernel⟩

theorem witness_EphRoundTrip :
    (∀ i ∈ t1Entries, ∀ a, i.slot? = some a →
      ∃ v, (t1Block [] (slotsAt 0 [0x13, 0, 5, 6])).mem.slot? a = some v ∧ Canonical i.width i.isSigned v) ∧
    (t1Block [] (slotsAt 0 [0x13, 0, 5, 6])).mem.slot? 0 = some 0x13 ∧
    (t1Block [] (slotsAt 0 [0x13, 0, 5, 6])).mem.slot? 1 = some 0x00 ∧
    ∃ t, exec .encEph (t1Block [] (slotsAt 0 [0x13, 0, 5, 6])) = .next t ∧ (t.fault == 0) = true := by
  refine ⟨fun i hi a ha => ?_, by decide +kernel, by decide +kernel, next_of_nextHas (by decide +kernel)⟩
  simp only [t1Entries, List.mem_cons, List.not_mem_nil, or_false] at hi
  rcases hi with rfl | rfl | rfl | rfl | rfl | rfl <;> simp only [Instr.slot?, Option.some.injEq, reduceCtorEq] at ha <;>
    subst ha <;> exact ⟨_, rfl, by unfold Canonical; decide +kernel⟩

/-- For CommandsAreNeverRefused and CommandIsItsMicroSteps. -/
theorem witness_CommandsAreNeverRefused :
    (t1Block [] []).params.ok = true ∧ Instr.isCommand .decEph = true ∧ (t1Block [] []).fault = 0 := by decide

theorem witness_InadmissibleLayoutIsRefused :
    ({ sixteen with params := ⟨31, 0x02, 0x15, []⟩ } : State).params.ok = false ∧
    ({ sixteen with params := ⟨31, 0x02, 0x15, []⟩ } : State).fault = 0 := by decide

/-- One word for each way to be illegal (30 R57), for a block that is idle and not halted. -/
theorem witness_IllegalWordRaisesIllegal :
    sixteen.running = false ∧ sixteen.fault = 0 ∧
    ((0xF0000000_00000000_00000000_00000000 : CommandWord).extractLsb' 124 4).toNat = 0xF ∧
    (0x10100008_00000004_00000000_000000A5 : CommandWord).extractLsb' 104 20 ≠ 0 ∧
    (0x30000010_00000004_00000000_00000001 : CommandWord).extractLsb' 0 64 ≠ 0 ∧
    (0x80000000_00000001_00000000_00000000 : CommandWord).extractLsb' 0 104 ≠ 0 := by decide +kernel

theorem witness_HaltedBlockIgnoresCommands :
    ({ sixteen with fault := 8 } : State).fault ≠ 0 ∧ Instr.isCommand .decEph = true ∧
    ({ sixteen with pending := [.command 0] } : State).pending = [.command 0] ∧ 15 < sixteen.cap.toNat ∧
    559 < 64 + 16 * sixteen.params.maxsat.toNat := by decide +kernel

theorem witness_FaultEntryIsPrecise :
    (∃ t, exec (.getu 0 0) sixteen = .next t ∧ (t.fault != 0) = true) ∧
    ∃ t, exec .encRawx (block 0 [] []) = .next t ∧ (t.fault != 0) = true :=
  ⟨next_of_nextHas (by decide +kernel), next_of_nextHas (by decide +kernel)⟩

/-- For WidthIsRaisedByPrimitivesAlone, ReadersKeepBufferWritersKeepStruct and NothingPastTheCapacityChanges. -/
theorem witness_WidthIsRaisedByPrimitivesAlone :
    (sixteen.fault = 0 ∧ 65 ≤ (65 : BitVec 8).toNat) ∧
    (∃ t, exec .encRawx (block 0 [] []) = .next t ∧ (t.fault == 2) = true) ∧
    (∃ t, exec .decEph (t1Block [0x12] []) = .next t ∧ (t.fault == 0) = true) :=
  ⟨by decide, next_of_nextHas (by decide +kernel), next_of_nextHas (by decide +kernel)⟩

/-- A GETU that writes RES, a DEC that writes STATUS, an ENC that writes BITS. -/
theorem witness_ResultRegistersHaveTheirWriters :
    (∃ t, exec (.getu 4 16) (block 4 [0x12, 0x34, 0x56, 0x78] []) = .next t ∧ (t.res != 0) = true) ∧
    (∃ t, exec .decRawx (block 1 [0x03] []) = .next t ∧ (t.status != .ok) = true) ∧
    (∃ t, exec .encEph (t1Block [] (slotsAt 0 [0x13, 0, 5, 6])) = .next t ∧ (t.bits != 0) = true) :=
  ⟨next_of_nextHas (by decide +kernel), next_of_nextHas (by decide +kernel), next_of_nextHas (by decide +kernel)⟩

theorem witness_ResetClearsTheRegisters :
    ({ sixteen with pending := [.reset] } : State).pending = .reset :: [] ∧ sixteen.running = false := by decide

theorem witness_ZeroCapacityFaults :
    (block 0 [] []).cap = 0 ∧ (block 0 [] []).fault = 0 ∧ (block 0 [] []).params.ok = true ∧
    (block 0 [] []).running = false ∧ (block 0 [] []).pending = [] := by decide +kernel

theorem witness_RegisterPortReachesCapAlone :
    ({ sixteen with pending := [.writeReg 0 1, .writeReg 4 1] } : State).pending = .writeReg 0 1 :: [.writeReg 4 1] ∧
    sixteen.running = false := by decide

theorem witness_HostWritesLand :
    ({ sixteen with pending := [.writeBuf 0x1FFFFFFE 1] } : State).pending = .writeBuf 0x1FFFFFFE 1 :: [] ∧
    0x1FFFFFFE < 2 ^ 29 - 1 ∧ 559 < 64 + 16 * sixteen.params.maxsat.toNat ∧ sixteen.running = false := by decide +kernel

/-- An entry at DIX of a command in progress, and a word on the command port of an idle block. -/
theorem witness_StepRunsTheDecodedInstruction :
    (inside .enc sixteen).running = true ∧ (inside .enc sixteen).fault = 0 ∧
    (inside .enc sixteen).words[(inside .enc sixteen).dix.toNat]? = some 0x61C0 ∧
    decodeEntry 0x61C0 = .ok (.tagc 7 0) ∧ sixteen.running = false ∧
    decodeCommand 0x90000000_00000000_00000000_00000000 = .ok .decRawx := by decide +kernel

/-- A halted block with one byte in its buffer and nothing else. -/
def haltedByte : State := { block 1 [0xFF] [] with fault := 8, pending := [.command 0] }

theorem haltedByte_inv : haltedByte.Inv := by
  refine ⟨by decide +kernel, fun a v h => ?_, by decide +kernel, fun h => ?_⟩
  · have h' : (none : Option Slot) = some v := h
    cases h'
  · have h' : false = true := h
    cases h'

/-- A step from a state that meets the invariant, without a reset: EveryStepKeepsTheInvariant, and the clause of
ResetClearsTheRegisters on FAULT. -/
theorem witness_EveryStepKeepsTheInvariant :
    haltedByte.Inv ∧ (∃ t, step haltedByte = .next t ∧ (t.fault == 8) = true) ∧
    ∀ rest, haltedByte.pending ≠ .reset :: rest :=
  ⟨haltedByte_inv, next_of_nextHas (by decide +kernel), fun _ h => nomatch h⟩

theorem witness_CanonicalFormIsUnique : (⟨[(0, 0x80)], [(0, 0xC0)], [(5, 1)]⟩ : Memory).wf = true := by decide

end Sys2Proof.Tests
end

section
/-!
PROOFS. The register port (spec/10_state.md R22): what a read of each address returns, and what a write changes.
-/

namespace Sys2Proof.Machine

open Sys2Proof

/-! ### Reads of the register port -/

theorem readReg_cap (s : State) : readReg s 0x0 = BitVec.ofNat 64 s.cap.toNat := (BitVec.ofNat_toNat ..).symm

theorem readReg_status (s : State) :
    readReg s 0x1 = match s.status with | .ok => 0 | .typeMismatch => 1 | .invalidMessage => 2 := by
  have hcode : readReg s 0x1 = s.status.code.setWidth 64 := rfl
  rw [hcode]
  cases s.status <;> rfl

theorem readReg_bits (s : State) : readReg s 0x2 = BitVec.ofNat 64 s.bits.toNat := (BitVec.ofNat_toNat ..).symm

theorem readReg_res (s : State) : readReg s 0x3 = s.res := rfl

theorem readReg_fault (s : State) : readReg s 0x4 = BitVec.ofNat 64 s.fault.toNat := (BitVec.ofNat_toNat ..).symm

theorem readReg_of_five_le (s : State) {addr : Nat} (h : 5 ≤ addr) : readReg s addr = 0 := by
  obtain ⟨k, rfl⟩ := Nat.exists_eq_add_of_le' h
  rfl

/-- 10 R24: after power-up the host reads 0 at every address. -/
theorem readReg_powerUp (addr : Nat) : readReg State.reset addr = 0 := by
  match addr with
  | 0x0 | 0x1 | 0x2 | 0x3 | 0x4 => rfl
  | _ + 5 => rfl

/-! ### Writes of the register port -/

theorem writeReg_zero (v : BitVec 64) (s : State) : writeReg 0x0 v s = { s with cap := v.extractLsb' 0 29 } := rfl

theorem writeReg_of_ne_zero {addr : Nat} (h : addr ≠ 0x0) (v : BitVec 64) (s : State) : writeReg addr v s = s :=
  if_neg h

/-- After a host write of CAP the host reads back the low 29 bits of what it wrote. -/
theorem readReg_writeReg_cap (v : BitVec 64) (s : State) :
    readReg (writeReg 0x0 v s) 0x0 = BitVec.ofNat 64 (v.toNat % 2 ^ 29) := by
  rw [readReg_cap, writeReg_zero, BitVec.extractLsb'_toNat, Nat.shiftRight_zero]

/-- The step of an idle block that takes a host write off the list. -/
theorem step_of_writeReg {s : State} {addr : Nat} {v : BitVec 64} {rest : List HostAction}
    (hp : s.pending = .writeReg addr v :: rest) (hr : s.running = false) :
    step s = .next (writeReg addr v { s with pending := rest }) :=
  step_of_action hr hp

/-- Settles O55: the address map of the port read by read, then the one step that takes a host write, at CAP and at
every other address. -/
theorem registerPortReachesCapAlone : Obligations.RegisterPortReachesCapAlone := by
  unfold Obligations.RegisterPortReachesCapAlone
  refine ⟨fun s => ⟨readReg_cap s, readReg_status s, readReg_bits s, readReg_res s, readReg_fault s,
    fun _ => readReg_of_five_le s⟩, fun s addr v rest hp hr => ?_, readReg_powerUp⟩
  refine ⟨_, step_of_writeReg hp hr, fun h0 => ?_, fun h0 => writeReg_of_ne_zero h0 v _⟩
  subst h0
  exact ⟨readReg_writeReg_cap v _, rfl⟩

end Sys2Proof.Machine
end

section
/-!
PROOFS. The buffer as the primitives and the sequencer reach it (spec/20_memory.md): the bits of a field in their byte
order (R31, R32) and the check against the declared capacity (R36).
-/

namespace Sys2Proof.Machine

open Sys2Proof

/-! ### Bit addresses and bytes -/

/-- 20 R31: a byte reads as `b` exactly when its eight bit addresses, in rising order, read as the bits of `b` from the
most significant one down. -/
theorem Memory.readByte_eq_some_iff {m : Memory} {a : Nat} {b : Byte} :
    m.readByte a = some b ↔ ∀ j < 8, m.bit? (8 * a + j) = some (b.getLsbD (7 - j)) := by
  refine ⟨fun h j hj => ?_, Memory.readByte_of_bits⟩
  rw [Memory.bit?_of_readByte h (by omega : (8 * a + j) / 8 = a), inByte, Nat.mul_add_mod, Nat.mod_eq_of_lt hj]

/-- Bit `i` of a field is bit `w - 1 - i` of the value it holds, so its ends are the value's ends (20 R32). -/
theorem FieldHolds.first {m : Memory} {pos w : Nat} {v : Slot} (h : FieldHolds m pos w v) (hw : 1 ≤ w) :
    m.bit? pos = some (v.getLsbD (w - 1)) := h 0 hw

theorem FieldHolds.last {m : Memory} {pos w : Nat} {v : Slot} (h : FieldHolds m pos w v) (hw : 1 ≤ w) :
    m.bit? (pos + w - 1) = some (v.getLsbD 0) := by
  rw [Nat.add_sub_assoc hw, h (w - 1) (by omega), Nat.sub_self]

/-- 20 R32: a field of `n` whole bytes from byte `a` on holds its value most significant byte first. -/
theorem FieldHolds.readByte {m : Memory} {a n k : Nat} {v : Slot} (h : FieldHolds m (8 * a) (8 * n) v) (hk : k < n) :
    m.readByte (a + k) = some (v.extractLsb' (8 * (n - 1 - k)) 8) := by
  refine Memory.readByte_of_bits fun j hj => ?_
  have hbit : 8 * n - 1 - (8 * k + j) = 8 * (n - 1 - k) + (7 - j) := by omega
  rw [Nat.mul_add, Nat.add_assoc, h (8 * k + j) (by omega), hbit, BitVec.getLsbD_extractLsb',
    decide_eq_true (by omega), Bool.true_and]

/-! ### The primitives -/

/-- A primitive is its operand checks, then an access of its own (40 R65). -/
theorem exec_primitive {i : Instr} {pos : BitVec 32} {len : BitVec 8} {v : Slot}
    (hi : i ∈ [Instr.setu pos len v, .sets pos len v, .getu pos len, .gets pos len]) (s : State) :
    ∃ k, exec i s = withOperands pos len s k := by
  simp only [List.mem_cons, List.not_mem_nil, or_false] at hi
  rcases hi with rfl | rfl | rfl | rfl <;>
    simp only [exec, execSetu, execSets, execGetu, execGets] <;> exact ⟨_, rfl⟩

/-- SETU and SETS within their contract (40 R66, R67). -/
theorem exec_primitiveWrite {i : Instr} {pos : BitVec 32} {len : BitVec 8} {v : Slot} {s : State}
    (hi : i = .setu pos len v ∨ i = .sets pos len v) (h0 : s.fault = 0) (h1 : 1 ≤ len.toNat) (h64 : len.toNat ≤ 64)
    (hc : pos.toNat + len.toNat ≤ s.capBits) :
    exec i s = .next { s with mem := s.mem.writeField v len.toNat pos.toNat } := by
  rcases hi with rfl | rfl <;> simp only [exec, execSetu, execSets] <;> exact withOperands_of_ok h0 h1 h64 hc _

/-- Settles O13: a byte by its bits, and the ends and bytes of the field that SETU has written. -/
theorem fieldsAreBigEndian : Obligations.FieldsAreBigEndian := by
  unfold Obligations.FieldsAreBigEndian
  refine ⟨fun m a b => Memory.readByte_eq_some_iff, fun pos len v s h0 h1 h64 hc => ?_⟩
  have hfield := fieldHolds_writeField s.mem v (pos := pos.toNat) h1 h64
  refine ⟨_, exec_primitiveWrite (.inl rfl) h0 h1 h64 hc, hfield.first h1, hfield.last h1, fun a n hpos hlen k hk => ?_⟩
  rw [hpos, hlen] at hfield ⊢
  exact hfield.readByte hk

/-! ### The check against the capacity -/

/-- A primitive of legal width whose field passes the capacity (40 R65). -/
theorem withOperands_of_exceeds {pos : BitVec 32} {len : BitVec 8} {s : State} (h0 : s.fault = 0)
    (h1 : 1 ≤ len.toNat) (h64 : len.toNat ≤ 64) (hc : s.capBits < pos.toNat + len.toNat) (k : State → Result) :
    withOperands pos len s k = .next (raise .bounds s) := by
  unfold withOperands
  rw [unlessHalted_of_ok h0, if_neg (by omega), if_pos hc]

/-- Raised in a block that is not halted, the fault is the only one. -/
theorem raise_of_ok {s : State} (h0 : s.fault = 0) (c : Cause) :
    raise c s = { s with fault := c.mask, running := false } := by
  unfold raise
  rw [h0]
  exact congrArg (fun f => { s with fault := f, running := false }) BitVec.zero_or

/-- An entry with a field makes the check of 41 R82, in both directions. -/
theorem checksCapacity_of_isField {i : Instr} (hf : isField i = true) (s : State) : ChecksCapacity i i.width s := by
  intro hc
  have hcommand : i.isCommand = false := by cases i <;> first | rfl | cases hf
  rw [exec_entry hcommand, entryStep_exceeds hf hc]
  rfl

/-- Settles O19: the operand check for the four primitives, the check of the micro-step for the five entries. -/
theorem accessesCheckTheCapacity : Obligations.AccessesCheckTheCapacity := by
  unfold Obligations.AccessesCheckTheCapacity
  refine ⟨fun pos len val s h0 h1 h64 hc i hi => ?_, fun sgn wm1 slot s => ?_⟩
  · obtain ⟨k, hk⟩ := exec_primitive hi s
    rw [hk, withOperands_of_exceeds h0 h1 h64 hc, raise_of_ok h0, Cause.mask]
  · have hcheck : ∀ i, isField i = true → ChecksCapacity i i.width s := fun i hf => checksCapacity_of_isField hf s
    simp only [List.forall_mem_cons, List.not_mem_nil, false_implies, implies_true, and_true]
    exact ⟨hcheck _ rfl, hcheck _ rfl, hcheck _ rfl, hcheck _ rfl, hcheck _ rfl⟩

end Sys2Proof.Machine
end

section
/-!
PROOFS. What reading and writing commands leave as it is, and that a write repeated leaves the same buffer
(spec/20_memory.md R37). An encode repeated is a lockstep of two runs over the same struct, said by `Replays`.
-/

namespace Sys2Proof.Machine

open Sys2Proof

/-! ### The memory a command does not write -/

theorem MicroEffect.params_cap {s t : State} (h : MicroEffect s t) : t.params = s.params ∧ t.cap = s.cap := by
  cases h <;> simp

/-- What a message command in the direction `d` that started at `s` keeps: the parameters, CAP and the memory it reads,
which is FLD on encode and BUF on decode. -/
structure KeepsSource (d : Direction) (s u : State) : Prop where
  dir : u.dir = d
  params : u.params = s.params
  cap : u.cap = s.cap
  slots : d = .enc → u.mem.slots = s.mem.slots
  buffer : d = .dec → SameBuffer s.mem u.mem

theorem KeepsSource.of_effect {d : Direction} {s u v : State} (h : KeepsSource d s u) (he : MicroEffect u v) :
    KeepsSource d s v := by
  obtain ⟨hdir, hp, hc, hslots, hbuffer⟩ := h
  obtain ⟨hp', hc'⟩ := he.params_cap
  refine ⟨?_, hp'.trans hp, hc'.trans hc, fun hd => ?_, fun hd => ?_⟩
  · cases d
    · exact (he.encode_slots hdir).2
    · exact (he.decode_buffer hdir).2
  · exact (he.encode_slots (hdir.trans hd)).1.trans (hslots hd)
  · exact (hbuffer hd).trans (he.decode_buffer (hdir.trans hd)).1

theorem runCommand_keepsSource {mt : MsgType} {dir : Direction} {s t : State} (h : runCommand mt dir s = .next t) :
    KeepsSource dir s t :=
  (runCommand_induction h ⟨rfl, rfl, rfl, fun _ => rfl, fun _ => .refl _⟩ fun _ _ hu he => hu.of_effect he).1

/-- A command that reads leaves BUF. -/
theorem exec_reader_sameBuffer {i : Instr} {s t : State}
    (hi : (∃ pos len, i = .getu pos len ∨ i = .gets pos len) ∨ i = .decRawx ∨ i = .decEph)
    (h : exec i s = .next t) : SameBuffer s.mem t.mem := by
  rcases exec_next h with ⟨hc, _⟩ | ⟨_, _, rfl⟩ | ⟨_, _, _, rfl⟩ | ⟨_, _, _, hw, _⟩ | ⟨_, _, _, _, _, rfl⟩ |
    ⟨mt, dir, _, hr, _, hd⟩
  · rcases hi with ⟨_, _, rfl | rfl⟩ | rfl | rfl <;> cases hc
  · exact .refl _
  · exact .refl _
  · rcases hi with ⟨_, _, rfl | rfl⟩ | rfl | rfl <;> simp at hw
  · exact .refl _
  · have hdec : dir = .dec := by
      cases dir with
      | enc => rcases hi with ⟨_, _, rfl | rfl⟩ | rfl | rfl <;> simp at hd
      | dec => rfl
    exact (runCommand_keepsSource hr).buffer hdec

/-- A command that writes BUF leaves FLD. -/
theorem exec_writer_slots {i : Instr} {s t : State}
    (hi : (∃ pos len v, i = .setu pos len v ∨ i = .sets pos len v) ∨ i = .encRawx ∨ i = .encEph)
    (h : exec i s = .next t) : t.mem.slots = s.mem.slots := by
  rcases exec_next h with ⟨hc, _⟩ | ⟨_, _, rfl⟩ | ⟨_, _, _, rfl⟩ | ⟨_, _, _, _, _, _, _, _, rfl⟩ |
    ⟨_, _, _, _, _, rfl⟩ | ⟨mt, dir, _, hr, hm, hd⟩
  · rcases hi with ⟨_, _, _, rfl | rfl⟩ | rfl | rfl <;> cases hc
  · rfl
  · rfl
  · exact Memory.slots_writeField ..
  · rfl
  · have henc : i = .encRawx ∨ i = .encEph := hi.resolve_left fun ⟨_, _, _, hp⟩ => by
      rcases hp with rfl | rfl <;> simp at hm
    exact (runCommand_keepsSource hr).slots (hd.2 henc)

/-! ### A command repeated in a halted block, and a primitive repeated -/

/-- 60 R132: a halted block ignores every command. -/
theorem exec_of_halted {i : Instr} (hi : i.isCommand = true) {s : State} (h : s.fault ≠ 0) : exec i s = .next s := by
  cases i <;> simp only [Instr.isCommand, Bool.false_eq_true] at hi <;>
    simp only [exec, execSetu, execSets, execGetu, execGets, execEncRawx, execDecRawx, execEncEph, execDecEph,
      withOperands, unlessHalted_of_halted h]

theorem raise_fault_ne_zero (c : Cause) (s : State) : (raise c s).fault ≠ 0 := by
  have hmask : ∀ f : BitVec 4, f ||| c.mask ≠ 0 := by cases c <;> decide
  exact hmask _

/-- A SETU or SETS that has left no fault was within its contract. -/
theorem primitiveWrite_next {i : Instr} {pos : BitVec 32} {len : BitVec 8} {v : Slot} {s t : State}
    (hi : i = .setu pos len v ∨ i = .sets pos len v) (h : exec i s = .next t) (h0 : t.fault = 0) :
    1 ≤ len.toNat ∧ len.toNat ≤ 64 ∧ pos.toNat + len.toNat ≤ s.capBits ∧
      t = { s with mem := s.mem.writeField v len.toNat pos.toNat } := by
  rcases hi with rfl | rfl <;> simp only [exec, execSetu, execSets] at h
  all_goals
    rcases withOperands_next h with ⟨hs, rfl⟩ | ⟨_, rfl⟩ | ⟨_, rfl⟩ | ⟨_, h1, h64, hc, h⟩
    · exact absurd h0 hs
    · exact absurd h0 (raise_fault_ne_zero _ s)
    · exact absurd h0 (raise_fault_ne_zero _ s)
    · exact ⟨h1, h64, hc, (Host.Outcome.next.inj h).symm⟩

/-- A field written twice holds what it held after the first write. -/
theorem Memory.bit?_writeField_again (m : Memory) (v : Slot) {n pos : Nat} (h1 : 1 ≤ n) (h64 : n ≤ 64) (q : Nat) :
    ((m.writeField v n pos).writeField v n pos).bit? q = (m.writeField v n pos).bit? q := by
  simp only [Memory.bit?_writeField _ _ h1 h64]
  split <;> rfl

/-! ### An encode repeated -/

/-- `u` with the sequencer registers, the parameters, CAP and FAULT of `s`: all that an encode goes by but FLD. -/
def State.steeredAs (u s : State) : State :=
  { u.sequencedAs s with params := s.params, cap := s.cap, fault := s.fault }

@[simp] theorem State.steeredAs_params (u s : State) : (u.steeredAs s).params = s.params := rfl
@[simp] theorem State.steeredAs_dir (u s : State) : (u.steeredAs s).dir = s.dir := rfl
@[simp] theorem State.steeredAs_cnt (u s : State) : (u.steeredAs s).cnt = s.cnt := rfl
@[simp] theorem State.steeredAs_words (u s : State) : (u.steeredAs s).words = s.words := rfl

/-- REPB on encode goes by the sequencer alone, and leaves CUR and the memories. -/
theorem execRepb_steeredAs (u : State) {s t : State} (hd : s.dir = .enc) (h : execRepb s = .next t) :
    execRepb (u.steeredAs s) = .next (u.steeredAs t) ∧ t.dir = .enc ∧ t.cur = s.cur ∧ t.mem = s.mem := by
  unfold execRepb at h ⊢
  simp only [State.steeredAs_params, State.steeredAs_cnt, State.steeredAs_dir, State.steeredAs_words, hd] at h ⊢
  split at h
  · rw [if_pos ‹_›]
    cases h
    exact ⟨rfl, hd, rfl, rfl⟩
  rw [if_neg ‹_›]
  split at h
  · rw [if_pos ‹_›]
    cases hk : s.words.findIdx? (· == 0xE000) <;> rw [hk] at h <;> cases h
    exact ⟨rfl, rfl, rfl, rfl⟩
  · rw [if_neg ‹_›]
    cases h
    exact ⟨rfl, rfl, rfl, rfl⟩

/-- So does REPE. -/
theorem afterRepe_steeredAs (u s : State) : afterRepe (u.steeredAs s) = u.steeredAs (afterRepe s) := by
  unfold afterRepe
  rw [apply_ite u.steeredAs]
  rfl

theorem afterRepe_dir (s : State) : (afterRepe s).dir = s.dir := by unfold afterRepe; split <;> rfl

/-- The run that has come to `u.steeredAs s` repeats, over the buffer `m`, the encode that has come to `s`: from the
same struct, it has written the same bits in front of CUR and none from CUR on. -/
structure Replays (m : Memory) (s u : State) : Prop where
  dir : s.dir = .enc
  slots : u.mem.slots = s.mem.slots
  written : ∀ q < s.cur.toNat, u.mem.bit? q = s.mem.bit? q
  ahead : ∀ q, s.cur.toNat ≤ q → u.mem.bit? q = m.bit? q

/-- An encode that ends in the buffer its repetition started from has been repeated without effect. -/
theorem Replays.bit?_eq {t u : State} (h : Replays t.mem t u) (q : Nat) : u.mem.bit? q = t.mem.bit? q := by
  rcases Nat.lt_or_ge q t.cur.toNat with hq | hq
  · exact h.written q hq
  · exact h.ahead q hq

/-- What moves neither CUR nor the memories keeps the lockstep. -/
theorem Replays.of_eq {m : Memory} {s s' u u' : State} (h : Replays m s u) (hd : s'.dir = .enc)
    (hc : s'.cur = s.cur) (hs : s'.mem = s.mem) (hu : u'.mem = u.mem) : Replays m s' u' := by
  obtain ⟨_, hslots, hwritten, hahead⟩ := h
  refine ⟨hd, ?_, ?_, ?_⟩
  · rw [hs, hu, hslots]
  · rwa [hc, hs, hu]
  · rwa [hc, hu]

/-- The slot of an FLD that has an address exists, at that address. -/
theorem reaches_of_fieldAddress {sgn : Bool} {wm1 slot : BitVec 6} {s : State} {a : Nat}
    (h : fieldAddress slot s = .ok a) :
    Reaches s (.fld sgn wm1 slot) ∧ slotAddress s (.fld sgn wm1 slot) = a := by
  rcases fieldAddress_ok h with ⟨hi, rfl⟩ | ⟨hi, h16, hr, rfl⟩ <;> simp [Reaches, slotAddress, recStride, *]

/-- The converse of `entryStep_encode`: a field that fits and is put was encodable. -/
theorem encodable_of_next {i : Instr} {s t : State} (hf : isField i = true) (hd : s.dir = .enc)
    (hc : s.cur.toNat + i.width ≤ s.capBits) (h : entryStep i s = .next t) : Encodable s i := by
  refine ⟨hf, ?_⟩
  cases i <;> simp only [isField, Bool.false_eq_true] at hf
  case rsv w => exact ⟨trivial, fun hs => by cases hs⟩
  case fld sgn w a =>
    simp only [entryStep, execFld, hd, check_of_fits (w := w.toNat + 1) hc] at h
    obtain ⟨b, hb, h⟩ := withAddress_next h
    obtain ⟨v, hv, _⟩ := readSlot_next h
    obtain ⟨hr, hb⟩ := reaches_of_fieldAddress (sgn := sgn) (wm1 := w) hb
    exact ⟨hr, fun _ => by rw [hb, hv]; rfl⟩
  all_goals
    simp only [entryStep, execTagc, execTagi, execCntf, hd, encodeScalar,
      check_of_fits (w := BitVec.toNat _ + 1) hc] at h
    obtain ⟨v, hv, _⟩ := readSlot_next h
    exact ⟨trivial, fun _ => Option.isSome_of_mem hv⟩

/-- A field put by both runs. -/
theorem Replays.of_encOne {m : Memory} {s u : State} (h : Replays m s u) {i : Instr} (hf : isField i = true)
    (hc : s.cur.toNat + i.width ≤ s.capBits) :
    encOne i (u.steeredAs s) = (encOne i (u.steeredAs s)).steeredAs (encOne i s) ∧
    Replays m (encOne i s) (encOne i (u.steeredAs s)) := by
  obtain ⟨h1, h64⟩ := width_of_isField hf
  have hv : fieldValue (u.steeredAs s) i = fieldValue s i :=
    fieldValue_congr (s := s) (t := u.steeredAs s) rfl rfl h.slots i
  have hmem : (encOne i s).mem = s.mem.writeField (fieldValue s i) i.width s.cur.toNat := rfl
  have hmem' : (encOne i (u.steeredAs s)).mem = u.mem.writeField (fieldValue s i) i.width s.cur.toNat := by
    rw [← hv]; rfl
  refine ⟨?_, h.dir, ?_, fun q hq => ?_, fun q hq => ?_⟩
  · unfold encOne
    rw [hv]
    rfl
  · rw [hmem, hmem', Memory.slots_writeField, Memory.slots_writeField, h.slots]
  · rw [encOne_cur hc] at hq
    rw [hmem, hmem', Memory.bit?_writeField _ _ h1 h64, Memory.bit?_writeField _ _ h1 h64]
    split
    · rfl
    · exact h.written q (by omega)
  · rw [encOne_cur hc] at hq
    rw [hmem', Memory.bit?_writeField _ _ h1 h64, if_neg (by omega), h.ahead q (by omega)]

/-- One micro-step of the encode is matched by one of its repetition. -/
theorem Replays.of_entryStep {m : Memory} {s s' u : State} (h : Replays m s u) {i : Instr}
    (hs : entryStep i s = .next s') :
    ∃ u', entryStep i (u.steeredAs s) = .next (u'.steeredAs s') ∧ Replays m s' u' := by
  by_cases hf : isField i = true
  · rcases Nat.lt_or_ge s.capBits (s.cur.toNat + i.width) with hc | hc
    · rw [entryStep_exceeds hf hc, Host.Outcome.next.injEq] at hs
      subst hs
      exact ⟨u, entryStep_exceeds (s := u.steeredAs s) hf hc, h.of_eq h.dir rfl rfl rfl⟩
    · have he := encodable_of_next hf h.dir hc hs
      rw [entryStep_encode h.dir he hc, Host.Outcome.next.injEq] at hs
      subst hs
      obtain ⟨hsteered, hnext⟩ := h.of_encOne hf hc
      refine ⟨_, ?_, hnext⟩
      rw [← hsteered]
      exact entryStep_encode h.dir (he.congr rfl rfl rfl h.slots) hc
  · cases i <;> simp only [isField, not_true_eq_false] at hf
    case endDesc =>
      simp only [entryStep, execEnd, h.dir, Host.Outcome.next.injEq] at hs
      subst hs
      refine ⟨{ u with bits := s.cur }, ?_, h.of_eq rfl rfl rfl rfl⟩
      simp only [entryStep, execEnd, State.steeredAs_dir, h.dir]
      rfl
    case repb =>
      obtain ⟨hstep, hd, hc, hm⟩ := execRepb_steeredAs u h.dir hs
      exact ⟨u, hstep, h.of_eq hd hc hm rfl⟩
    case repe =>
      simp only [entryStep_repe, Host.Outcome.next.injEq] at hs ⊢
      subst hs
      exact ⟨u, afterRepe_steeredAs u s,
        h.of_eq ((afterRepe_dir s).trans h.dir) (afterRepe_cur s) (afterRepe_mem s) rfl⟩
    all_goals cases hs

/-- A turn of the loop that answers a next state. -/
theorem microLoop_succ_next {n : Nat} {s t : State} (h : microLoop (n + 1) s = .next t) :
    ∃ i u, fetchEntry s = some i ∧ entryStep i s = .next u ∧
      ((u.running = true ∧ microLoop n u = .next t) ∨ (u.running = false ∧ u = t)) := by
  simp only [microLoop] at h
  split at h
  · rename_i u hu
    obtain ⟨i, hi, hstep⟩ := microStep_next hu
    refine ⟨i, u, hi, hstep, ?_⟩
    split at h
    · exact .inl ⟨‹_›, h⟩
    · exact .inr ⟨Bool.eq_false_iff.2 ‹_›, Host.Outcome.next.inj h⟩
  · cases h
  · cases h

/-- The loop of the encode is matched by that of its repetition. -/
theorem Replays.of_microLoop {m : Memory} : ∀ (n : Nat) {s t u : State}, Replays m s u → microLoop n s = .next t →
    ∃ u', microLoop n (u.steeredAs s) = .next (u'.steeredAs t) ∧ Replays m t u' := by
  intro n
  induction n with
  | zero => intro s t u _ hs; cases hs
  | succ n ih =>
    intro s t u h hs
    obtain ⟨i, s', hi, hstep, hrest⟩ := microLoop_succ_next hs
    obtain ⟨u', hstep', h'⟩ := h.of_entryStep hstep
    have hi' : fetchEntry (u.steeredAs s) = some i := hi
    rcases hrest with ⟨hr, hloop⟩ | ⟨hr, rfl⟩
    · rw [microLoop_step hi' hstep' hr]
      exact ih h' hloop
    · exact ⟨u', microLoop_last hi' hstep' hr, h'⟩

/-- An encode that has ended without a fault, repeated: it ends again, and no bit of BUF changes. -/
theorem runCommand_encode_again {mt : MsgType} {s t : State} (h : runCommand mt .enc s = .next t)
    (hf : t.fault = s.fault) :
    ∃ u, runCommand mt .enc t = .next u ∧ ∀ q, u.mem.bit? q = t.mem.bit? q := by
  obtain ⟨_, hp, hc, hslots, _⟩ := runCommand_keepsSource h
  have hstart : startCommand mt .enc t = t.steeredAs (startCommand mt .enc s) := by
    simp only [startCommand, State.steeredAs, State.sequencedAs, hp, hc, hf]
  have h0 : Replays t.mem (startCommand mt .enc s) t :=
    ⟨rfl, hslots rfl, fun q hq => absurd hq (Nat.not_lt_zero q), fun _ _ => rfl⟩
  obtain ⟨u, hu, h'⟩ := h0.of_microLoop _ h
  refine ⟨u.steeredAs t, ?_, h'.bit?_eq⟩
  unfold runCommand
  rw [hstart]
  exact hu

/-- A message command over an admissible layout that is not ignored is the sequencer's run. -/
theorem exec_of_runs {i : Instr} {mt : MsgType} {dir : Direction} (hi : Runs i mt dir) {s : State} (h0 : s.fault = 0)
    (hok : mt = .eph → s.params.ok = true) : exec i s = runCommand mt dir s := by
  simp only [Runs, List.mem_cons, Prod.mk.injEq, List.not_mem_nil, or_false] at hi
  rcases hi with ⟨rfl, rfl, rfl⟩ | ⟨rfl, rfl, rfl⟩ | ⟨rfl, rfl, rfl⟩ | ⟨rfl, rfl, rfl⟩ <;>
    simp only [exec, execEncRawx, execDecRawx, execEncEph, execDecEph, unlessHalted_of_ok h0]
  all_goals
    unfold withEphLayout
    rw [if_pos (hok rfl)]

/-- An encode that has ended without a fault was the sequencer's run, over an admissible layout. -/
theorem encode_next {i : Instr} {s t : State} (hi : i = .encRawx ∨ i = .encEph) (h : exec i s = .next t)
    (h0 : t.fault = 0) :
    ∃ mt, Runs i mt .enc ∧ s.fault = 0 ∧ (mt = .eph → s.params.ok = true) ∧ runCommand mt .enc s = .next t := by
  rcases message_next (by rcases hi with rfl | rfl <;> simp) h with ⟨hs, rfl⟩ | ⟨hs, mt, dir, hr, hd, hm, hok⟩
  · exact absurd h0 hs
  · obtain rfl : dir = .enc := hd.2 hi
    refine ⟨mt, ?_, hs, hok, hr⟩
    rcases hi with rfl | rfl <;> cases mt <;> simp [Runs] at hm ⊢

/-- A command that writes BUF, repeated, changes no bit of it. -/
theorem exec_writer_again {i : Instr} {s t : State}
    (hi : (∃ pos len v, i = .setu pos len v ∨ i = .sets pos len v) ∨ i = .encRawx ∨ i = .encEph)
    (h : exec i s = .next t) : Answers (exec i t) fun u => ∀ q, u.mem.bit? q = t.mem.bit? q := by
  have hcommand : i.isCommand = true := by rcases hi with ⟨_, _, _, rfl | rfl⟩ | rfl | rfl <;> rfl
  by_cases h0 : t.fault = 0
  · rcases hi with ⟨pos, len, v, hi⟩ | hi
    · obtain ⟨h1, h64, hc, rfl⟩ := primitiveWrite_next hi h h0
      exact ⟨_, exec_primitiveWrite hi h0 h1 h64 hc, Memory.bit?_writeField_again s.mem v h1 h64⟩
    · obtain ⟨mt, hi, hs0, hok, hr⟩ := encode_next hi h h0
      obtain ⟨u, hu, hbits⟩ := runCommand_encode_again hr (h0.trans hs0.symm)
      refine ⟨u, ?_, hbits⟩
      rwa [exec_of_runs hi h0 fun hmt => (runCommand_keepsSource hr).params ▸ hok hmt]
  · exact ⟨t, exec_of_halted hcommand h0, fun _ => rfl⟩

/-- Settles O51: readers by the frame of what they can do; writers likewise, and an encode repeated by the lockstep
`Replays` of the two runs. -/
theorem readersKeepBufferWritersKeepStruct : Obligations.ReadersKeepBufferWritersKeepStruct := by
  unfold Obligations.ReadersKeepBufferWritersKeepStruct
  exact fun s t i h => ⟨fun hi => exec_reader_sameBuffer hi h,
    fun hi => ⟨exec_writer_slots hi h, exec_writer_again hi h⟩⟩

end Sys2Proof.Machine
end

section
/-!
PROOFS. Which words are instructions (spec/30_encoding.md R48, R51, R57): the words that the decoders accept, told by
their fields; the fields that the rows of the opcode tables fix; and the RAWX descriptor of R54.
-/

namespace Sys2Proof.Machine

open Sys2Proof

/-! ### The words that decode -/

theorem exists_ite_ok_iff {p : Prop} [Decidable p] {i : Instr} {e : DecodeError} :
    (∃ j, (if p then Except.ok i else Except.error e) = Except.ok j) ↔ p := by
  split <;> simp [*]

/-- The operations and, for each, the fields it does not use, which must be 0 (30 R48). -/
theorem commandOf_ok_iff {op : Nat} {len : BitVec 8} {pos : BitVec 32} {val : Slot} :
    (∃ i, commandOf op len pos val = .ok i) ↔
      op ∈ [0x1, 0x2] ∨ (op ∈ [0x3, 0x4] ∧ val = 0) ∨
        (op ∈ [0x8, 0x9, 0xA, 0xB] ∧ len = 0 ∧ pos = 0 ∧ val = 0) := by
  unfold commandOf
  split
  case h_9 => simp_all
  all_goals simp [exists_ite_ok_iff]

/-- LEN, POS and VAL are the low 104 bits of a command word (30 R46). -/
theorem lowBits_eq_zero_iff (w : CommandWord) :
    w.extractLsb' 0 104 = 0 ↔ w.extractLsb' 96 8 = 0 ∧ w.extractLsb' 64 32 = 0 ∧ w.extractLsb' 0 64 = 0 := by
  simp only [← BitVec.toNat_inj, BitVec.extractLsb'_toNat, Nat.shiftRight_eq_div_pow, BitVec.ofNat_eq_ofNat,
    BitVec.toNat_ofNat, Nat.zero_mod]
  omega

theorem decodeCommand_ok_iff (w : CommandWord) :
    (∃ i, decodeCommand w = .ok i) ↔ w.extractLsb' 104 20 = 0 ∧
      ((w.extractLsb' 124 4).toNat ∈ [0x1, 0x2] ∨
        ((w.extractLsb' 124 4).toNat ∈ [0x3, 0x4] ∧ w.extractLsb' 0 64 = 0) ∨
        ((w.extractLsb' 124 4).toNat ∈ [0x8, 0x9, 0xA, 0xB] ∧ w.extractLsb' 0 104 = 0)) := by
  rw [decodeCommand_eq, lowBits_eq_zero_iff, ← commandOf_ok_iff]
  split
  case isTrue hz => exact ⟨(nomatch ·.choose_spec), fun ⟨h, _⟩ => absurd h hz⟩
  case isFalse hz => rw [and_iff_right (not_not.1 hz)]

/-- The entry kinds and, for each, the fields it does not use, which must be 0 (30 R51). -/
theorem entryOf_ok_iff {kind : Nat} (hk : kind < 8) {sgn : Bool} {wm1 slot : BitVec 6} {w : EntryWord} :
    (∃ i, entryOf kind sgn wm1 slot w = .ok i) ↔
      kind = 1 ∨ (kind ∈ [3, 4, 5] ∧ sgn = false) ∨ (kind = 2 ∧ sgn = false ∧ slot = 0) ∨
      (kind ∈ [0, 6, 7] ∧ sgn = false ∧ wm1 = 0 ∧ slot = 0) := by
  interval_cases kind <;> simp [entryOf, exists_ite_ok_iff]

theorem decodeEntry_ok_iff (w : EntryWord) :
    (∃ i, decodeEntry w = .ok i) ↔ (w.extractLsb' 13 3).toNat = 1 ∨
      ((w.extractLsb' 13 3).toNat ∈ [3, 4, 5] ∧ w.extractLsb' 12 1 = 0) ∨
      ((w.extractLsb' 13 3).toNat = 2 ∧ w.extractLsb' 12 1 = 0 ∧ w.extractLsb' 0 6 = 0) ∨
      ((w.extractLsb' 13 3).toNat ∈ [0, 6, 7] ∧ w.extractLsb' 12 1 = 0 ∧
        w.extractLsb' 6 6 = 0 ∧ w.extractLsb' 0 6 = 0) := by
  have hsgn : w.getLsbD 12 = false ↔ w.extractLsb' 12 1 = 0 := by
    simp [BitVec.eq_of_getLsbD_eq_iff]
  rw [decodeEntry_eq, entryOf_ok_iff (w.extractLsb' 13 3).isLt, hsgn]

/-! ### The rows that words select -/

theorem encode_of_decodeCommand {w : CommandWord} {i : Instr} (h : decodeCommand w = .ok i) :
    encode i = .command w := by
  rw [decodeCommand_eq] at h
  split at h
  · cases h
  · rw [encode_of_commandOf h, ← commandWord_eta w (not_not.1 ‹_›)]

theorem encode_of_decodeEntry {w : EntryWord} {i : Instr} (h : decodeEntry w = .ok i) : encode i = .entry w := by
  rw [decodeEntry_eq] at h
  rw [encode_of_entryOf (w.extractLsb' 13 3).isLt h, ← entryWord_eta w]

/-- The word of every instruction selects the row with the instruction's mnemonic. -/
theorem encode_selectsRow (i : Instr) : Laws.WordSelectsRow.Statement i := by
  open Laws.WordSelectsRow in
  cases i with
  | setu pos len val => exact setu pos len val
  | sets pos len val => exact sets pos len val
  | getu pos len => exact getu pos len
  | gets pos len => exact gets pos len
  | encRawx => exact encRawx
  | decRawx => exact decRawx
  | encEph => exact encEph
  | decEph => exact decEph
  | endDesc => exact endDesc
  | fld sgn wm1 slot => exact fld sgn wm1 slot
  | rsv wm1 => exact rsv wm1
  | tagc wm1 slot => exact tagc wm1 slot
  | tagi wm1 slot => exact tagi wm1 slot
  | cntf wm1 slot => exact cntf wm1 slot
  | repb => exact repb
  | repe => exact repe

theorem commandRow_of_decode {w : CommandWord} {i : Instr} (h : decodeCommand w = .ok i) :
    ∃ r ∈ commandRows, r.mnemonic = mnemonicOf i ∧ w &&& r.mask = r.pattern := by
  have hrow := encode_selectsRow i
  rwa [Laws.WordSelectsRow.Statement, encode_of_decodeCommand h] at hrow

theorem entryRow_of_decode {w : EntryWord} {i : Instr} (h : decodeEntry w = .ok i) :
    ∃ r ∈ entryRows, r.mnemonic = mnemonicOf i ∧ w &&& r.mask = r.pattern := by
  have hrow := encode_selectsRow i
  rwa [Laws.WordSelectsRow.Statement, encode_of_decodeEntry h] at hrow

/-- The row fixes the field of `len` bits from bit `start` on: its mask has all of it, and its pattern has `v` there. -/
abbrev OpcodeRow.Fixes {n len : Nat} (r : OpcodeRow n) (start : Nat) (v : BitVec len) : Prop :=
  r.mask.extractLsb' start len = BitVec.allOnes len ∧ r.pattern.extractLsb' start len = v

/-- A word that selects a row has the fields that the row fixes. -/
theorem OpcodeRow.Fixes.field_eq {n len start : Nat} {r : OpcodeRow n} {v : BitVec len} (h : r.Fixes start v)
    {w : BitVec n} (hw : w &&& r.mask = r.pattern) : w.extractLsb' start len = v := by
  obtain ⟨hmask, hpattern⟩ := h
  rw [← hpattern, ← hw, BitVec.extractLsb'_and, hmask, BitVec.and_allOnes]

/-- Every command row fixes OP, and 0 in the field ZERO and in the fields that its operation does not use. -/
theorem commandRows_fixes : ∀ r ∈ commandRows,
    r.Fixes 124 (r.pattern.extractLsb' 124 4) ∧ r.Fixes 104 (0 : BitVec 20) ∧
      ((r.pattern.extractLsb' 124 4).toNat ∈ [0x1, 0x2] ∨
        ((r.pattern.extractLsb' 124 4).toNat ∈ [0x3, 0x4] ∧ r.Fixes 0 (0 : BitVec 64)) ∨
        ((r.pattern.extractLsb' 124 4).toNat ∈ [0x8, 0x9, 0xA, 0xB] ∧ r.Fixes 0 (0 : BitVec 104))) := by decide

/-- Every entry row fixes KIND, and 0 in the fields that its kind does not use. -/
theorem entryRows_fixes : ∀ r ∈ entryRows,
    r.Fixes 13 (r.pattern.extractLsb' 13 3) ∧
      ((r.pattern.extractLsb' 13 3).toNat = 1 ∨
        ((r.pattern.extractLsb' 13 3).toNat ∈ [3, 4, 5] ∧ r.Fixes 12 (0 : BitVec 1)) ∨
        ((r.pattern.extractLsb' 13 3).toNat = 2 ∧ r.Fixes 12 (0 : BitVec 1) ∧ r.Fixes 0 (0 : BitVec 6)) ∨
        ((r.pattern.extractLsb' 13 3).toNat ∈ [0, 6, 7] ∧ r.Fixes 12 (0 : BitVec 1) ∧
          r.Fixes 6 (0 : BitVec 6) ∧ r.Fixes 0 (0 : BitVec 6))) := by decide

/-- No two command rows have the same OP. -/
theorem commandRows_op_inj : ∀ r ∈ commandRows, ∀ r' ∈ commandRows,
    r.pattern.extractLsb' 124 4 = r'.pattern.extractLsb' 124 4 → r = r' := by decide

/-- No two entry rows have the same KIND. -/
theorem entryRows_kind_inj : ∀ r ∈ entryRows, ∀ r' ∈ entryRows,
    r.pattern.extractLsb' 13 3 = r'.pattern.extractLsb' 13 3 → r = r' := by decide

theorem decodeCommand_of_selects {w : CommandWord} {r : OpcodeRow 128} (hr : r ∈ commandRows)
    (hw : w &&& r.mask = r.pattern) : ∃ i, decodeCommand w = .ok i := by
  obtain ⟨hop, hzero, hunused⟩ := commandRows_fixes r hr
  rw [decodeCommand_ok_iff, hop.field_eq hw]
  refine ⟨hzero.field_eq hw, ?_⟩
  rcases hunused with h | ⟨h, hval⟩ | ⟨h, hlow⟩
  · exact .inl h
  · exact .inr (.inl ⟨h, hval.field_eq hw⟩)
  · exact .inr (.inr ⟨h, hlow.field_eq hw⟩)

theorem decodeEntry_of_selects {w : EntryWord} {r : OpcodeRow 16} (hr : r ∈ entryRows)
    (hw : w &&& r.mask = r.pattern) : ∃ i, decodeEntry w = .ok i := by
  obtain ⟨hkind, hunused⟩ := entryRows_fixes r hr
  rw [decodeEntry_ok_iff, hkind.field_eq hw]
  rcases hunused with h | ⟨h, hsgn⟩ | ⟨h, hsgn, hslot⟩ | ⟨h, hsgn, hwm1, hslot⟩
  · exact .inl h
  · exact .inr (.inl ⟨h, hsgn.field_eq hw⟩)
  · exact .inr (.inr (.inl ⟨h, hsgn.field_eq hw, hslot.field_eq hw⟩))
  · exact .inr (.inr (.inr ⟨h, hsgn.field_eq hw, hwm1.field_eq hw, hslot.field_eq hw⟩))

/-- Settles O3: a decoded word is the word of its instruction, which selects that instruction's row; a row fixes the
fields that make a word legal, and its OP tells it from the others. -/
theorem commandWordsSelectRows : Obligations.CommandWordsSelectRows := by
  unfold Obligations.CommandWordsSelectRows
  refine ⟨fun _ _ => commandRow_of_decode, fun _ ⟨_, hr, hw⟩ => decodeCommand_of_selects hr hw,
    fun w r hr r' hr' hw hw' => commandRows_op_inj r hr r' hr' ?_⟩
  rw [← (commandRows_fixes r hr).1.field_eq hw, (commandRows_fixes r' hr').1.field_eq hw']

/-- Settles O4: likewise, and the KIND of a row tells it from the others. -/
theorem entryWordsSelectRows : Obligations.EntryWordsSelectRows := by
  unfold Obligations.EntryWordsSelectRows
  refine ⟨fun _ _ => entryRow_of_decode, fun _ ⟨_, hr, hw⟩ => decodeEntry_of_selects hr hw,
    fun w r hr r' hr' hw hw' => entryRows_kind_inj r hr r' hr' ?_⟩
  rw [← (entryRows_fixes r hr).1.field_eq hw, (entryRows_fixes r' hr').1.field_eq hw']

/-! ### Illegal command words -/

/-- A word that is illegal in one of the ways of 30 R57 does not decode. -/
theorem decodeCommand_of_illegal {w : CommandWord}
    (h : (w.extractLsb' 124 4).toNat ∈ [0x0, 0x5, 0x6, 0x7, 0xC, 0xD, 0xE, 0xF] ∨ w.extractLsb' 104 20 ≠ 0 ∨
      ((w.extractLsb' 124 4).toNat ∈ [0x3, 0x4] ∧ w.extractLsb' 0 64 ≠ 0) ∨
      ((w.extractLsb' 124 4).toNat ∈ [0x8, 0x9, 0xA, 0xB] ∧ w.extractLsb' 0 104 ≠ 0)) :
    ∃ e, decodeCommand w = .error e := by
  cases hd : decodeCommand w with
  | error e => exact ⟨e, rfl⟩
  | ok i =>
    exfalso
    obtain ⟨hzero, hunused⟩ := (decodeCommand_ok_iff w).1 ⟨i, hd⟩
    simp only [List.mem_cons, List.not_mem_nil, or_false] at h hunused
    rcases h with hop | hz | ⟨hop, hval⟩ | ⟨hop, hlow⟩
    · omega
    · exact hz hzero
    · rcases hunused with h | ⟨_, hval'⟩ | ⟨h, _⟩
      · omega
      · exact hval hval'
      · omega
    · rcases hunused with h | ⟨h, _⟩ | ⟨_, hlow'⟩
      · omega
      · omega
      · exact hlow hlow'

/-- In an idle block that is not halted, a word that does not decode raises ILLEGAL and changes nothing else (60
R128). -/
theorem issue_of_error {w : CommandWord} {e : DecodeError} {s : State} (h : decodeCommand w = .error e)
    (hr : s.running = false) (h0 : s.fault = 0) : issue w s = .next { s with fault := 0x4 } := by
  rw [issue, h]
  show unlessHalted s _ = _
  rw [unlessHalted_of_ok h0, raise_of_ok h0, ← hr]
  rfl

/-- Settles O46: each of the ways to be illegal makes the decoder reject the word, and an idle block then raises
ILLEGAL alone. -/
theorem illegalWordRaisesIllegal : Obligations.IllegalWordRaisesIllegal := by
  unfold Obligations.IllegalWordRaisesIllegal
  intro s w rest hp hr h0 hw
  obtain ⟨e, he⟩ := decodeCommand_of_illegal hw
  rw [step_of_action hr hp]
  exact issue_of_error (s := { s with pending := rest }) he hr h0

/-! ### The RAWX descriptor -/

theorem rawxEntries_outside_width : Descriptor.totalWidth rawxEntries.outside = 140 := by decide

theorem rawxEntries_inside_width : Descriptor.totalWidth rawxEntries.inside = 256 := by decide

/-- The RAWX descriptor meets the conditions of 30 R52 for every count of records that MAXSAT can allow; only its size
depends on MAXSAT. -/
theorem rawxEntries_wf {maxsat : Nat} (h : maxsat ≤ 255) : rawxEntries.wf maxsat = true := by
  have hshape : (rawxEntries.endsOnce && rawxEntries.tagsFirst && rawxEntries.repeatOnce && rawxEntries.bodyPlain &&
      rawxEntries.slotsDistinct) = true := by decide
  have hsize : rawxEntries.sizeOk maxsat = true := by
    rw [Descriptor.sizeOk, rawxEntries_outside_width, rawxEntries_inside_width]
    exact decide_eq_true (by omega)
  rw [Descriptor.wf, hshape, hsize]
  rfl

/-- Settles O7: the words of the block decode to the entries of R54, the widths of the two parts are summed, and the
conditions of R52 are checked. -/
theorem rawxDescriptorIsWellFormed : Obligations.RawxDescriptorIsWellFormed := by
  unfold Obligations.RawxDescriptorIsWellFormed
  exact ⟨rawxEntries, decodeLayout_rawx, rfl, rawxEntries_outside_width, rawxEntries_inside_width,
    fun _ => rawxEntries_wf⟩

end Sys2Proof.Machine
end

section
/-!
PROOFS. The bit primitives (spec/40_bit_primitives.md): truncation and sign extension (R71), the operand checks (R65),
what SETU, SETS, GETU and GETS do within their contract (R66 to R69), and what follows from it for a field written and
then read (R72, R73) or moved in two parts (R74). The low `w` bits of a slot are written `v.setWidth w`, so that the
laws of bit vectors speak of them.
-/

namespace Sys2Proof.Machine

open Sys2Proof

/-! ### Truncation and sign extension -/

/-- `trunc_w` of a slot as a slot (00 R6). -/
theorem ofNat_toNat_mod_two_pow (w : Nat) (v : Slot) :
    BitVec.ofNat 64 (v.toNat % 2 ^ w) = (v.setWidth w).setWidth 64 := by
  rw [← BitVec.toNat_setWidth, BitVec.ofNat_toNat]

theorem toNat_setWidth_setWidth {w : Nat} (h64 : w ≤ 64) (v : Slot) :
    ((v.setWidth w).setWidth 64).toNat = v.toNat % 2 ^ w := by
  rw [BitVec.toNat_setWidth_of_le h64, BitVec.toNat_setWidth]

theorem setWidth_setWidth_of_lt {w : Nat} {v : Slot} (hv : v.toNat < 2 ^ w) : (v.setWidth w).setWidth 64 = v := by
  rw [← ofNat_toNat_mod_two_pow, Nat.mod_eq_of_lt hv, BitVec.ofNat_toNat, BitVec.setWidth_eq]

/-- 40 R71: sign extension by its formula. -/
theorem signExtend_toNat {w : Nat} (h64 : w ≤ 64) {v : Slot} (hv : v.toNat < 2 ^ w) :
    (signExtend w v).toNat = if v.toNat < 2 ^ (w - 1) then v.toNat else v.toNat + 2 ^ 64 - 2 ^ w := by
  have hpow : 2 ^ w ≤ 2 ^ 64 := Nat.pow_le_pow_right (by decide) h64
  unfold signExtend
  split
  · rfl
  · rw [BitVec.toNat_ofNat, ← Nat.add_sub_assoc hpow, Nat.mod_eq_of_lt (by omega)]

/-- Sign extension of a `w`-bit value is that of bit vectors of width `w`. -/
theorem signExtend_setWidth {w : Nat} (h64 : w ≤ 64) (x : BitVec w) :
    signExtend w (x.setWidth 64) = x.signExtend 64 := by
  have hx : (x.setWidth 64).toNat = x.toNat := BitVec.toNat_setWidth_of_le h64
  have hpow : 2 ^ w ≤ 2 ^ 64 := Nat.pow_le_pow_right (by decide) h64
  apply BitVec.eq_of_toNat_eq
  rw [signExtend_toNat h64 (hx ▸ x.isLt), BitVec.toNat_signExtend, hx, BitVec.msb_eq_decide]
  by_cases hneg : x.toNat < 2 ^ (w - 1)
  · rw [if_pos hneg, decide_eq_false (by omega)]
    rfl
  · rw [if_neg hneg, decide_eq_true (by omega), if_pos rfl]
    omega

/-- The low bits of a sign extension are those of the value. -/
theorem setWidth_signExtend {w : Nat} (h64 : w ≤ 64) (x : BitVec w) : (x.signExtend 64).setWidth w = x := by
  ext j hj
  rw [BitVec.getElem_setWidth, BitVec.getLsbD_signExtend, if_pos hj, decide_eq_true (by omega), Bool.true_and,
    BitVec.getLsbD_eq_getElem]

/-- The low `w` bits of an integer's 64-bit pattern are its `w`-bit pattern. -/
theorem setWidth_ofInt {w : Nat} (h64 : w ≤ 64) (n : Int) :
    (BitVec.ofInt 64 n).setWidth w = BitVec.ofInt w n := by
  apply BitVec.eq_of_toNat_eq
  have hmod : ((n % 2 ^ 64).toNat % 2 ^ w : Int) = (n % 2 ^ w).toNat := by
    rw [Int.toNat_of_nonneg (Int.emod_nonneg n (by decide)), Int.toNat_of_nonneg (Int.emod_nonneg n (by positivity)),
      Int.emod_emod_of_dvd n (pow_dvd_pow 2 h64)]
  rw [BitVec.toNat_setWidth, BitVec.toNat_ofInt, BitVec.toNat_ofInt]
  exact_mod_cast hmod

/-- The `w`-bit pattern of an integer depends on its residue alone (40 R67). -/
theorem ofInt_emod_two_pow (w : Nat) (n : Int) : BitVec.ofInt w (n % 2 ^ w) = BitVec.ofInt w n := by
  apply BitVec.eq_of_toNat_eq
  simp

/-- Sign extension undoes truncation on the integers representable in `w` bits (40 R71). -/
theorem signExtend_truncated_ofInt {w : Nat} (h1 : 1 ≤ w) (h64 : w ≤ 64) {n : Int} (hlo : -(2 ^ (w - 1)) ≤ n)
    (hhi : n < 2 ^ (w - 1)) : ((BitVec.ofInt 64 n).setWidth w).signExtend 64 = BitVec.ofInt 64 n := by
  rw [setWidth_ofInt h64, BitVec.signExtend, BitVec.toInt_ofInt_eq_self h1 hlo hhi]

/-- Settles O16: the formula by cases of the definition; the law by the integer that the `len`-bit pattern reads as. -/
theorem signExtensionUndoesTruncation : Obligations.SignExtensionUndoesTruncation := by
  unfold Obligations.SignExtensionUndoesTruncation
  refine fun len h1 h64 => ⟨fun v => signExtend_toNat h64, fun n hlo hhi => ?_⟩
  rw [ofNat_toNat_mod_two_pow, signExtend_setWidth h64, signExtend_truncated_ofInt h1 h64 hlo hhi]

/-! ### The operand checks -/

/-- A primitive with a LEN outside 1..64 (40 R65). -/
theorem withOperands_of_width {pos : BitVec 32} {len : BitVec 8} {s : State} (h0 : s.fault = 0)
    (hw : len.toNat < 1 ∨ 64 < len.toNat) (k : State → Result) :
    withOperands pos len s k = .next (raise .width s) := by
  unfold withOperands
  rw [unlessHalted_of_ok h0, if_pos hw]

theorem checksOperands_of_primitive {i : Instr} {pos : BitVec 32} {len : BitVec 8} {v : Slot}
    (hi : i ∈ [Instr.setu pos len v, .sets pos len v, .getu pos len, .gets pos len]) (s : State) :
    ChecksOperands i pos len s := by
  obtain ⟨k, hk⟩ := exec_primitive hi s
  rw [ChecksOperands, hk]
  refine ⟨fun h => ?_, fun h0 hw => ?_, fun h0 h1 h64 hc => ?_⟩
  · exact unlessHalted_of_halted h _
  · rw [withOperands_of_width h0 hw, raise_of_ok h0, Cause.mask]
  · rw [withOperands_of_exceeds h0 h1 h64 hc, raise_of_ok h0, Cause.mask]

/-- Settles O12: the primitive is its operand checks first, which have the three cases. -/
theorem primitivesCheckTheirOperands : Obligations.PrimitivesCheckTheirOperands := by
  unfold Obligations.PrimitivesCheckTheirOperands
  exact fun _ _ _ s _ hi => checksOperands_of_primitive hi s

/-! ### Fields of the buffer, and the values they hold -/

/-- A field that holds `v` holds every value with the low bits of `v`. -/
theorem FieldHolds.congr {m : Memory} {pos w : Nat} {u v : Slot} (h : FieldHolds m pos w v)
    (huv : u.setWidth w = v.setWidth w) : FieldHolds m pos w u := by
  intro i hi
  have hbit := congrArg (BitVec.getLsbD · (w - 1 - i)) huv
  simp only [BitVec.getLsbD_setWidth, show w - 1 - i < w by omega, decide_true, Bool.true_and] at hbit
  rw [h i hi, hbit]

/-- A field reads as the zero-extended low bits of any value it holds. -/
theorem FieldHolds.readField_eq {m : Memory} {pos w : Nat} {v : Slot} (h : FieldHolds m pos w v) (h64 : w ≤ 64) :
    m.readField w pos 0 = .ok ((v.setWidth w).setWidth 64) := by
  refine Memory.readField_eq h64 ?_ (h.congr ?_)
  · rw [toNat_setWidth_setWidth h64]
    exact Nat.mod_lt _ (Nat.two_pow_pos w)
  · rw [BitVec.setWidth_setWidth_of_le _ h64, BitVec.setWidth_eq]

/-- A field all of whose bits hold values holds a value of its width. -/
theorem BitsWritten.exists_fieldHolds {m : Memory} {pos w : Nat} (h : BitsWritten m pos (pos + w)) (h64 : w ≤ 64) :
    ∃ v : Slot, v.toNat < 2 ^ w ∧ FieldHolds m pos w v := by
  obtain ⟨v, hv⟩ := readField_of_bitsWritten h
  exact ⟨v, Memory.readField_lt hv, fieldHolds_of_readField h64 hv⟩

/-- The first bit of a field is the sign bit of its value (40 R69). -/
theorem FieldHolds.first_eq_msb {m : Memory} {pos w : Nat} {v : Slot} (h : FieldHolds m pos w v) (h1 : 1 ≤ w) :
    m.bit? pos = some (v.setWidth w).msb := by
  rw [h.first h1, BitVec.msb_setWidth, decide_eq_true (Nat.lt_of_succ_le h1), Bool.true_and]

/-- A field holds no two values of its width. -/
theorem FieldHolds.unique {m : Memory} {pos w : Nat} {u v : Slot} (h : FieldHolds m pos w u)
    (h' : FieldHolds m pos w v) (h64 : w ≤ 64) (hu : u.toNat < 2 ^ w) (hv : v.toNat < 2 ^ w) : u = v :=
  Except.ok.inj ((Memory.readField_eq h64 hu h).symm.trans (Memory.readField_eq h64 hv h'))

/-- Two adjacent fields are one field, which holds the concatenation of their values (40 R74). -/
theorem FieldHolds.append {m : Memory} {pos k l : Nat} {a b : Slot} (ha : FieldHolds m pos k a)
    (hb : FieldHolds m (pos + k) l b) (hlt : b.toNat < 2 ^ l) (h64 : k + l ≤ 64) :
    FieldHolds m pos (k + l) (a <<< l ||| b) := by
  intro i hi
  rw [BitVec.getLsbD_or, BitVec.getLsbD_shiftLeft, decide_eq_true (by omega : k + l - 1 - i < 64), Bool.true_and]
  rcases Nat.lt_or_ge i k with hik | hik
  · have hb0 : b.getLsbD (k + l - 1 - i) = false := by
      rw [← BitVec.testBit_toNat]
      exact Nat.testBit_lt_two_pow (hlt.trans_le (Nat.pow_le_pow_right (by decide) (by omega)))
    rw [ha i hik, hb0, decide_eq_false (by omega), Bool.or_false, Bool.not_false, Bool.true_and,
      show k + l - 1 - i - l = k - 1 - i by omega]
  · have hbit := hb (i - k) (by omega)
    rw [show pos + k + (i - k) = pos + i by omega, show l - 1 - (i - k) = k + l - 1 - i by omega] at hbit
    rw [hbit, decide_eq_true (by omega), Bool.not_true, Bool.false_and, Bool.false_or]

/-- The concatenation of values of `k` and `l` bits has `k + l` bits. -/
theorem toNat_shiftLeft_or_lt {k l : Nat} {a b : Slot} (ha : a.toNat < 2 ^ k) (hb : b.toNat < 2 ^ l) :
    (a <<< l ||| b).toNat < 2 ^ (k + l) := by
  have hshift : a.toNat <<< l < 2 ^ (k + l) := by
    rw [Nat.shiftLeft_eq, Nat.pow_add]
    exact Nat.mul_lt_mul_of_pos_right ha (Nat.two_pow_pos l)
  rw [BitVec.toNat_or, BitVec.toNat_shiftLeft]
  exact Nat.or_lt_two_pow ((Nat.mod_le ..).trans_lt hshift)
    (hb.trans_le (Nat.pow_le_pow_right (by decide) (Nat.le_add_left l k)))

/-- 40 R74: a field written in two parts holds what it holds written whole. -/
theorem Memory.bit?_writeField_split (m : Memory) (v : Slot) {k n : Nat} (h1 : 1 ≤ k) (hk : k < n) (h64 : n ≤ 64)
    (pos q : Nat) :
    ((m.writeField (v >>> (n - k)) k pos).writeField v (n - k) (pos + k)).bit? q =
      (m.writeField v n pos).bit? q := by
  rw [Memory.bit?_writeField _ _ (by omega) (by omega), Memory.bit?_writeField _ _ h1 (by omega),
    Memory.bit?_writeField _ _ (by omega) h64]
  by_cases hhead : pos ≤ q ∧ q < pos + k
  · rw [if_neg (by omega), if_pos hhead, if_pos (by omega), BitVec.getLsbD_ushiftRight,
      show n - k + (k - 1 - (q - pos)) = n - 1 - (q - pos) by omega]
  · by_cases htail : pos + k ≤ q ∧ q < pos + n
    · rw [if_pos (by omega), if_pos (by omega), show n - k - 1 - (q - (pos + k)) = n - 1 - (q - pos) by omega]
    · rw [if_neg (by omega), if_neg hhead, if_neg (by omega)]

/-! ### The primitives within their contract -/

section

variable {pos : BitVec 32} {len : BitVec 8} {s : State} (h0 : s.fault = 0) (h1 : 1 ≤ len.toNat)
  (h64 : len.toNat ≤ 64) (hc : pos.toNat + len.toNat ≤ s.capBits)

include h0 h1 h64 hc

/-- GETU of a field that holds `v` (40 R68). -/
theorem exec_getu_of_fieldHolds {v : Slot} (h : FieldHolds s.mem pos.toNat len.toNat v) :
    exec (.getu pos len) s = .next { s with res := (v.setWidth len.toNat).setWidth 64 } := by
  simp only [exec, execGetu, withOperands_of_ok h0 h1 h64 hc, readOperand, h.readField_eq h64]

/-- GETU over bits that hold values reads the field's value. -/
theorem exec_getu_of_bitsWritten (hw : BitsWritten s.mem pos.toNat (pos.toNat + len.toNat)) :
    ∃ v : Slot, v.toNat < 2 ^ len.toNat ∧ FieldHolds s.mem pos.toNat len.toNat v ∧
      exec (.getu pos len) s = .next { s with res := v } := by
  obtain ⟨v, hv, hfield⟩ := hw.exists_fieldHolds h64
  refine ⟨v, hv, hfield, ?_⟩
  rw [exec_getu_of_fieldHolds h0 h1 h64 hc hfield, setWidth_setWidth_of_lt hv]

/-- GETS of a field that holds `v` (40 R69). -/
theorem exec_gets_of_fieldHolds {v : Slot} (h : FieldHolds s.mem pos.toNat len.toNat v) :
    exec (.gets pos len) s = .next { s with res := (v.setWidth len.toNat).signExtend 64 } := by
  simp only [exec, execGets, withOperands_of_ok h0 h1 h64 hc, readOperand, h.readField_eq h64,
    signExtend_setWidth h64]

/-- SETU and SETS write their field and nothing else (40 R66, R67). -/
theorem exec_primitiveWrite_answers {i : Instr} {v : Slot} (hi : i = .setu pos len v ∨ i = .sets pos len v) :
    Answers (exec i s) fun t =>
      FieldHolds t.mem pos.toNat len.toNat v ∧ SameOutside s.mem t.mem pos.toNat (pos.toNat + len.toNat) ∧
        t.mem.slots = s.mem.slots ∧ t = { s with mem := t.mem } :=
  ⟨_, exec_primitiveWrite hi h0 h1 h64 hc, fieldHolds_writeField _ _ h1 h64, sameOutside_writeField _ _ h1 h64,
    Memory.slots_writeField .., rfl⟩

/-- After SETU or SETS of `v`, GETU and GETS at the same place read its low bits, extended (40 R72, R73). -/
theorem exec_primitiveWrite_then_read {i : Instr} {v : Slot} (hi : i = .setu pos len v ∨ i = .sets pos len v) :
    Answers (exec i s) fun t => SameOutside s.mem t.mem pos.toNat (pos.toNat + len.toNat) ∧
      exec (.getu pos len) t = .next { t with res := (v.setWidth len.toNat).setWidth 64 } ∧
      exec (.gets pos len) t = .next { t with res := (v.setWidth len.toNat).signExtend 64 } := by
  obtain ⟨t, ht, hfield, hframe, -, hrest⟩ := exec_primitiveWrite_answers h0 h1 h64 hc hi
  have h0' : t.fault = 0 := by rw [hrest]; exact h0
  have hc' : pos.toNat + len.toNat ≤ t.capBits := by rw [hrest]; exact hc
  exact ⟨t, ht, hframe, exec_getu_of_fieldHolds h0' h1 h64 hc' hfield, exec_gets_of_fieldHolds h0' h1 h64 hc' hfield⟩

end

/-- Settles O8: the operand checks, then the field by its bits and the frame of the write. -/
theorem setuWritesItsField : Obligations.SetuWritesItsField := by
  unfold Obligations.SetuWritesItsField
  exact fun pos len val s => ⟨checksOperands_of_primitive (v := val) (by simp) s,
    fun h0 h1 h64 hc => exec_primitiveWrite_answers h0 h1 h64 hc (.inl rfl)⟩

/-- The first bit of a field that holds an integer representable in its width is the sign (40 R67). -/
theorem FieldHolds.sign {m : Memory} {pos w : Nat} {n : Int} (h : FieldHolds m pos w (BitVec.ofInt 64 n))
    (h1 : 1 ≤ w) (h64 : w ≤ 64) (hlo : -(2 ^ (w - 1)) ≤ n) (hhi : n < 2 ^ (w - 1)) :
    m.bit? pos = some (decide (n < 0)) := by
  rw [h.first_eq_msb h1, setWidth_ofInt h64, BitVec.msb_eq_toInt, BitVec.toInt_ofInt_eq_self h1 hlo hhi]

/-- Settles O9: SETS is SETU on the same pattern; the field holds the residue because it holds the low bits alone. -/
theorem setsWritesTwosComplement : Obligations.SetsWritesTwosComplement := by
  unfold Obligations.SetsWritesTwosComplement
  refine fun pos len n s => ⟨checksOperands_of_primitive (v := BitVec.ofInt 64 n) (by simp) s, rfl,
    fun h0 h1 h64 hc => ?_⟩
  obtain ⟨t, ht, hfield, hframe⟩ := exec_primitiveWrite_answers h0 h1 h64 hc (.inr rfl)
  refine ⟨t, ht, hfield.congr ?_, hfield.sign h1 h64, hframe⟩
  rw [setWidth_ofInt h64, setWidth_ofInt h64, ofInt_emod_two_pow]

/-- Settles O10: the field holds some value of its width, which GETU reads. -/
theorem getuReadsItsField : Obligations.GetuReadsItsField := by
  unfold Obligations.GetuReadsItsField
  refine fun pos len s => ⟨checksOperands_of_primitive (v := 0) (by simp) s, fun h0 h1 h64 hc hw => ?_⟩
  obtain ⟨v, hv, hfield, hexec⟩ := exec_getu_of_bitsWritten h0 h1 h64 hc hw
  exact ⟨_, hexec, hfield, hv, rfl⟩

/-- Settles O11: the low bits of the sign extension are the field's, the others its first bit. -/
theorem getsReadsSigned : Obligations.GetsReadsSigned := by
  unfold Obligations.GetsReadsSigned
  refine fun pos len s => ⟨checksOperands_of_primitive (v := 0) (by simp) s, fun h0 h1 h64 hc hw => ?_⟩
  obtain ⟨v, -, hfield⟩ := hw.exists_fieldHolds h64
  refine ⟨_, exec_gets_of_fieldHolds h0 h1 h64 hc hfield, hfield.congr (setWidth_signExtend h64 _),
    fun j hj hj64 => ?_, rfl⟩
  rw [hfield.first_eq_msb h1, BitVec.getLsbD_signExtend, if_neg (by omega), decide_eq_true hj64, Bool.true_and]

/-! ### A field written and then read -/

/-- Settles O14: SETS leaves a field that holds the integer's pattern, and sign extension undoes its truncation. -/
theorem signedRoundTrip : Obligations.SignedRoundTrip := by
  unfold Obligations.SignedRoundTrip
  intro pos len n s h0 h1 h64 hc hlo hhi
  obtain ⟨t, ht, hframe, -, hgets⟩ := exec_primitiveWrite_then_read h0 h1 h64 hc (.inr rfl)
  exact ⟨t, ht, hframe, _, hgets, signExtend_truncated_ofInt h1 h64 hlo hhi, rfl⟩

/-- Settles O15: SETU and SETS leave a field that holds `v`, which either read truncates. -/
theorem unsignedAndMixedRoundTrips : Obligations.UnsignedAndMixedRoundTrips := by
  unfold Obligations.UnsignedAndMixedRoundTrips
  intro pos len v s h0 h1 h64 hc i hi
  obtain ⟨t, ht, -, hgetu, hgets⟩ := exec_primitiveWrite_then_read h0 h1 h64 hc (by simpa using hi)
  refine ⟨t, ht, ⟨_, hgetu, toNat_setWidth_setWidth h64 v⟩, ⟨_, hgets, ?_⟩⟩
  rw [ofNat_toNat_mod_two_pow, signExtend_setWidth h64]

/-! ### A field in two parts -/

/-- The bit address of the second part does not wrap: the field fits the capacity. -/
theorem toNat_add_setWidth_of_fits {pos : BitVec 32} {k : BitVec 8} {s : State}
    (h : pos.toNat + k.toNat ≤ s.capBits) : (pos + k.setWidth 32).toNat = pos.toNat + k.toNat := by
  have hcap := capBits_lt s
  rw [BitVec.toNat_add_of_lt] <;> rw [BitVec.toNat_setWidth_of_le (by decide)]
  omega

/-- Settles O17: the three writes by their bits; the three reads by the field that holds the concatenation. -/
theorem fieldsSplit : Obligations.FieldsSplit := by
  unfold Obligations.FieldsSplit
  intro pos k len v s h0 hk1 hk h64 hc
  have hpos : (pos + k.setWidth 32).toNat = pos.toNat + k.toNat := toNat_add_setWidth_of_fits (s := s) (by omega)
  have hlen : (len - k).toNat = len.toNat - k.toNat := BitVec.toNat_sub_of_le hk.le
  have hc' : (pos + k.setWidth 32).toNat + (len - k).toNat ≤ s.capBits := by omega
  refine ⟨?_, fun hw => ?_⟩
  · refine ⟨_, exec_primitiveWrite (.inl rfl) h0 (by omega) h64 hc,
      _, exec_primitiveWrite (.inl rfl) h0 hk1 (by omega) (by omega),
      _, exec_primitiveWrite (.inl rfl) h0 (by omega) (by omega) hc', fun q => ?_⟩
    rw [hpos, hlen]
    exact Memory.bit?_writeField_split s.mem v hk1 hk h64 pos.toNat q
  · obtain ⟨c, hclt, hc_field, hwhole⟩ := exec_getu_of_bitsWritten h0 (by omega) h64 hc hw
    obtain ⟨a, halt, ha_field, hfirst⟩ := exec_getu_of_bitsWritten (pos := pos) (len := k) h0 hk1 (by omega) (by omega)
      fun q hlo hhi => hw q hlo (by omega)
    obtain ⟨b, hblt, hb_field, hsecond⟩ := exec_getu_of_bitsWritten h0 (by omega) (by omega) hc'
      fun q hlo hhi => hw q (by omega) (by omega)
    refine ⟨_, hwhole, _, hfirst, _, hsecond, ?_⟩
    rw [hpos, hlen] at hb_field
    rw [hlen] at hblt
    have hparts := ha_field.append hb_field hblt (by omega)
    have hlt := toNat_shiftLeft_or_lt halt hblt
    rw [Nat.add_sub_cancel' hk.le] at hparts hlt
    exact hc_field.unique hparts h64 hclt hlt

end Sys2Proof.Machine
end

section
/-!
PROOFS. The descriptor operations (spec/41_sequencer_ops.md): what an entry with a field does on encode and on decode,
said once for FLD, RSV, TAGC, TAGI and CNTF (R84 to R88), the end of a decode that fails (60 R124), the cases of REPB
and REPE (R89, R90), and where DIX goes (R93).
-/

namespace Sys2Proof.Machine

open Sys2Proof

theorem enc_or_dec (d : Direction) : d = .enc ∨ d = .dec := by
  cases d
  · exact .inl rfl
  · exact .inr rfl

/-! ### Entries with a field, encoded -/

/-- An entry with a slot has a field. -/
theorem isField_of_slot {i : Instr} (hs : i.slot?.isSome = true) : isField i = true := by
  cases i <;> first | rfl | cases hs

theorem isCommand_of_isField {i : Instr} (hf : isField i = true) : i.isCommand = false := by
  cases i <;> first | rfl | cases hf

/-- The slot of a field that has one is what the field is encoded from. -/
theorem fieldValue_of_slot {i : Instr} {s : State} {v : Slot} (hs : i.slot?.isSome = true)
    (hv : s.mem.slot? (slotAddress s i) = some v) : fieldValue s i = v := by
  rw [fieldValue, if_pos hs, hv, Option.getD_some]

theorem encodable_of_slot {i : Instr} {s : State} {v : Slot} (hs : i.slot?.isSome = true) (hr : Reaches s i)
    (hv : s.mem.slot? (slotAddress s i) = some v) : Encodable s i :=
  ⟨isField_of_slot hs, hr, fun _ => Option.isSome_of_mem hv⟩

/-- RSV is encodable in every state. -/
theorem encodable_rsv (wm1 : BitVec 6) (s : State) : Encodable s (.rsv wm1) :=
  ⟨rfl, trivial, fun hs => (Bool.false_ne_true hs).elim⟩

/-- A field that fits and can be encoded: its bits are written, CUR and DIX move on, and a count is latched. -/
theorem exec_field_encode {i : Instr} {s : State} (he : Encodable s i) (hd : s.dir = .enc)
    (hc : s.cur.toNat + i.width ≤ s.capBits) :
    Answers (exec i s) fun t =>
      FieldHolds t.mem s.cur.toNat i.width (fieldValue s i) ∧
      SameOutside s.mem t.mem s.cur.toNat (s.cur.toNat + i.width) ∧ t.mem.slots = s.mem.slots ∧
      t.cur.toNat = s.cur.toNat + i.width ∧
      t = { s with
        mem := t.mem, cur := t.cur, dix := s.dix + 1,
        cnt := if Descriptor.isCount i then fieldValue s i else s.cnt } := by
  obtain ⟨h1, h64⟩ := width_of_isField he.1
  refine ⟨encOne i s, ?_, fieldHolds_writeField _ _ h1 h64, sameOutside_writeField _ _ h1 h64,
    Memory.slots_writeField .., encOne_cur hc, rfl⟩
  rw [exec_entry (isCommand_of_isField he.1), entryStep_encode hd he hc]

/-- The same for a field with a slot, which holds `v`. -/
theorem exec_slotField_encode {i : Instr} {s : State} {v : Slot} (hs : i.slot?.isSome = true) (hr : Reaches s i)
    (hv : s.mem.slot? (slotAddress s i) = some v) (hd : s.dir = .enc) (hc : s.cur.toNat + i.width ≤ s.capBits) :
    Answers (exec i s) fun t =>
      FieldHolds t.mem s.cur.toNat i.width v ∧
      SameOutside s.mem t.mem s.cur.toNat (s.cur.toNat + i.width) ∧ t.mem.slots = s.mem.slots ∧
      t.cur.toNat = s.cur.toNat + i.width ∧
      t = { s with
        mem := t.mem, cur := t.cur, dix := s.dix + 1, cnt := if Descriptor.isCount i then v else s.cnt } := by
  have h := exec_field_encode (encodable_of_slot hs hr hv) hd hc
  rwa [fieldValue_of_slot hs hv] at h

/-! ### Entries with a field, decoded -/

/-- A field that is no tag can be decoded where its slot exists and its bits hold values. -/
theorem decodable_of_untagged {i : Instr} {s : State} {pos : Nat} (hf : isField i = true)
    (ht : Descriptor.isTag i = false) (hr : Reaches s i) (hw : BitsWritten s.mem pos (pos + i.width)) :
    Decodable s pos i := by
  refine ⟨hf, hr, fun _ => hw, ?_, ?_⟩ <;> rintro w a rfl <;> cases ht

/-- A tag can be decoded where its field reads as the expected id. -/
theorem decodable_of_tag {wm1 slot : BitVec 6} {i : Instr} {expected : Byte} {s : State} {pos : Nat}
    (hi : (i = .tagc wm1 slot ∧ expected = s.expClass) ∨ (i = .tagi wm1 slot ∧ expected = s.expId))
    (hv : s.mem.readField (wm1.toNat + 1) pos 0 = .ok (expected.setWidth 64)) : Decodable s pos i := by
  have hw : BitsWritten s.mem pos (pos + (wm1.toNat + 1)) := bitsWritten_of_readField wm1.isLt hv
  rcases hi with ⟨rfl, rfl⟩ | ⟨rfl, rfl⟩
  · exact ⟨rfl, trivial, fun _ => hw, fun _ _ _ => hv, nofun⟩
  · exact ⟨rfl, trivial, fun _ => hw, nofun, fun _ _ _ => hv⟩

/-- The slot of an unsigned field is given the value its bits hold. -/
theorem decodedSlot_of_fieldHolds {m : Memory} {pos : Nat} {i : Instr} {v : Slot} (hsgn : i.isSigned = false)
    (h64 : i.width ≤ 64) (hlt : v.toNat < 2 ^ i.width) (hv : FieldHolds m pos i.width v) :
    decodedSlot m pos i = v := by
  unfold decodedSlot
  rw [Memory.readField_eq h64 hlt hv, hsgn]
  rfl

/-- A field with a slot that fits and can be decoded: its slot is written, CUR and DIX move on, and a count is
latched. -/
theorem exec_slotField_decode {i : Instr} {s : State} (hs : i.slot?.isSome = true)
    (he : Decodable s s.cur.toNat i) (hd : s.dir = .dec) (hc : s.cur.toNat + i.width ≤ s.capBits) :
    Answers (exec i s) fun t =>
      t.mem.slot? (slotAddress s i) = some (decodedSlot s.mem s.cur.toNat i) ∧
      (∀ b ≠ slotAddress s i, t.mem.slot? b = s.mem.slot? b) ∧ SameBuffer s.mem t.mem ∧
      t.cur.toNat = s.cur.toNat + i.width ∧
      t = { s with
        mem := t.mem, cur := t.cur, dix := s.dix + 1,
        cnt := if Descriptor.isCount i then decodedSlot s.mem s.cur.toNat i else s.cnt } := by
  refine ⟨decOne i s, ?_, ?_, fun b hb => ?_, decOne_buffer i s, decOne_cur hc, ?_⟩
  · rw [exec_entry (isCommand_of_isField he.1), entryStep_decode hd he hc]
  · rw [decOne_slot?, if_pos ⟨hs, rfl⟩]
  · rw [decOne_slot?, if_neg fun h => hb h.2]
  · rw [← decOne_cnt]
    unfold decOne
    split <;> rfl

/-- The same for an unsigned field, whose bits hold `v`. -/
theorem exec_unsignedField_decode {i : Instr} {s : State} {v : Slot} (hs : i.slot?.isSome = true)
    (hsgn : i.isSigned = false) (he : Decodable s s.cur.toNat i) (hlt : v.toNat < 2 ^ i.width)
    (hv : FieldHolds s.mem s.cur.toNat i.width v) (hd : s.dir = .dec) (hc : s.cur.toNat + i.width ≤ s.capBits) :
    Answers (exec i s) fun t =>
      t.mem.slot? (slotAddress s i) = some v ∧ (∀ b ≠ slotAddress s i, t.mem.slot? b = s.mem.slot? b) ∧
      SameBuffer s.mem t.mem ∧ t.cur.toNat = s.cur.toNat + i.width ∧
      t = { s with
        mem := t.mem, cur := t.cur, dix := s.dix + 1, cnt := if Descriptor.isCount i then v else s.cnt } := by
  have h := exec_slotField_decode hs he hd hc
  rwa [decodedSlot_of_fieldHolds hsgn (width_of_isField he.1).2 hlt hv] at h

/-! ### The entries one by one -/

/-- Settles O21: the slot that FLD names is the one its field is encoded from and decoded into. -/
theorem fldMovesItsField : Obligations.FldMovesItsField := by
  unfold Obligations.FldMovesItsField
  refine fun sgn wm1 slot s => ⟨checksCapacity_of_isField (i := .fld sgn wm1 slot) rfl s, fun hc a ha => ?_⟩
  obtain ⟨hr, rfl⟩ := reaches_of_fieldAddress (sgn := sgn) (wm1 := wm1) (fieldAddress_of_namesSlot ha)
  refine ⟨fun v hd hv => exec_slotField_encode rfl hr hv hd hc, fun hd hw => ?_⟩
  obtain ⟨t, ht, hslot, hrest⟩ := exec_slotField_decode rfl (decodable_of_untagged rfl rfl hr hw) hd hc
  exact ⟨t, ht, slotDecodes_of_decodedSlot (i := .fld sgn wm1 slot) (width_of_isField rfl) hw hslot, hrest⟩

/-- RSV on decode moves CUR and DIX alone, whatever BUF holds. -/
theorem exec_rsv_decode {wm1 : BitVec 6} {s : State} (hd : s.dir = .dec)
    (hc : s.cur.toNat + (wm1.toNat + 1) ≤ s.capBits) : exec (.rsv wm1) s = .next (advance (wm1.toNat + 1) s) := by
  simp only [exec, execRsv, hd, check_of_fits hc]

/-- Settles O22: on encode RSV is a field of value 0, on decode it moves on. -/
theorem rsvWritesZerosAndSkips : Obligations.RsvWritesZerosAndSkips := by
  unfold Obligations.RsvWritesZerosAndSkips
  refine fun wm1 s => ⟨checksCapacity_of_isField (i := .rsv wm1) rfl s, fun hc => ?_⟩
  rcases enc_or_dec s.dir with hd | hd
  · obtain ⟨t, ht, hfield, hframe, hslots, hcur, heq⟩ := exec_field_encode (encodable_rsv wm1 s) hd hc
    exact ⟨t, ht, fun _ => ⟨hfield, hframe, hslots⟩, by rw [hd]; nofun, hcur, heq⟩
  · exact ⟨_, exec_rsv_decode hd hc, by rw [hd]; nofun, fun _ => rfl, advance_cur_toNat hc, rfl⟩

/-- A decode that fails leaves BUF, the slots the descriptor does not name and every register but STATUS. -/
theorem finish_frame (st : Status) (s : State) :
    (finish st s).status = st ∧ (finish st s).running = false ∧ SameBuffer s.mem (finish st s).mem ∧
    (∀ b, b ∉ namedSlots s.descriptor s.params.maxsat.toNat → (finish st s).mem.slot? b = s.mem.slot? b) ∧
    finish st s = { s with
      mem := (finish st s).mem, status := (finish st s).status, running := (finish st s).running,
      freeCount := (finish st s).freeCount } :=
  ⟨finish_status st s, finish_running st s, finish_sameBuffer st s, finish_slot?_unnamed st s, by cases st <;> rfl⟩

/-- A tag whose field differs from the expected id ends the decode behind the field (41 R86, R87). -/
theorem exec_tag_mismatch {wm1 slot : BitVec 6} {i : Instr} {expected : Byte} {s : State} {v : Slot}
    (hi : (i = .tagc wm1 slot ∧ expected = s.expClass) ∨ (i = .tagi wm1 slot ∧ expected = s.expId))
    (hd : s.dir = .dec) (hc : s.cur.toNat + (wm1.toNat + 1) ≤ s.capBits)
    (hv : s.mem.readField (wm1.toNat + 1) s.cur.toNat 0 = .ok v) (hne : v ≠ expected.setWidth 64) :
    exec i s = .next (finish .typeMismatch (consume (wm1.toNat + 1) s)) := by
  rcases hi with ⟨rfl, rfl⟩ | ⟨rfl, rfl⟩
  · simp only [exec, execTagc, hd, decodeField_of_ok hc hv]
    exact if_pos hne
  · simp only [exec, execTagi, hd, decodeField_of_ok hc hv]
    exact if_pos hne

/-- Settles O23: a tag is an unsigned field, encoded unchecked and decoded where it matches. -/
theorem tagsAreCheckedOnDecodeAlone : Obligations.TagsAreCheckedOnDecodeAlone := by
  unfold Obligations.TagsAreCheckedOnDecodeAlone
  intro wm1 slot v i expected s hi
  have heq : v = expected.setWidth 64 ↔ v.toNat = expected.toNat := by
    rw [← BitVec.toNat_inj, BitVec.toNat_setWidth_of_le (by decide)]
  have hread (hlt : v.toNat < 2 ^ (wm1.toNat + 1)) (hv : FieldHolds s.mem s.cur.toNat (wm1.toNat + 1) v) :
      s.mem.readField (wm1.toNat + 1) s.cur.toNat 0 = .ok v := Memory.readField_eq wm1.isLt hlt hv
  have hmatch (hlt : v.toNat < 2 ^ (wm1.toNat + 1)) (hv : FieldHolds s.mem s.cur.toNat (wm1.toNat + 1) v)
      (h : v.toNat = expected.toNat) : Decodable s s.cur.toNat i :=
    decodable_of_tag hi (heq.2 h ▸ hread hlt hv)
  have hmismatch (hlt : v.toNat < 2 ^ (wm1.toNat + 1)) (hv : FieldHolds s.mem s.cur.toNat (wm1.toNat + 1) v)
      (h : v.toNat ≠ expected.toNat) (hd : s.dir = .dec) (hc : s.cur.toNat + (wm1.toNat + 1) ≤ s.capBits) :=
    exec_tag_mismatch hi hd hc (hread hlt hv) (mt heq.1 h)
  rcases hi with ⟨rfl, rfl⟩ | ⟨rfl, rfl⟩
  all_goals
    refine ⟨checksCapacity_of_isField rfl s, fun hc => ⟨fun hd hv => ?_, fun hd hlt hv h => ?_,
      fun hd hlt hv h => ?_⟩⟩
    · exact exec_slotField_encode rfl trivial hv hd hc
    · exact exec_unsignedField_decode rfl rfl (hmatch hlt hv h) hlt hv hd hc
    · exact ⟨_, hmismatch hlt hv h hd hc, finish_frame .typeMismatch (consume (wm1.toNat + 1) s)⟩

/-- Settles O24: CNTF is an unsigned field that is a count. -/
theorem cntfLatchesTheCount : Obligations.CntfLatchesTheCount := by
  unfold Obligations.CntfLatchesTheCount
  refine fun wm1 slot v s => ⟨checksCapacity_of_isField (i := .cntf wm1 slot) rfl s, fun hc => ⟨fun hd hv => ?_,
    fun hd hlt hv => ?_⟩⟩
  · exact exec_slotField_encode (i := .cntf wm1 slot) rfl trivial hv hd hc
  · exact exec_unsignedField_decode (i := .cntf wm1 slot) rfl rfl
      (decodable_of_untagged rfl rfl trivial hv.bitsWritten) hlt hv hd hc

/-- END on encode (41 R83). -/
theorem exec_endDesc_enc {s : State} (hd : s.dir = .enc) :
    exec .endDesc s = .next { s with bits := s.cur, running := false } := by
  simp only [exec, execEnd, hd]

/-- END on decode. -/
theorem exec_endDesc_dec {s : State} (hd : s.dir = .dec) : exec .endDesc s = .next (finish .ok s) := by
  simp only [exec, execEnd, hd]

/-- Settles O20: the two directions of END. -/
theorem endCompletesTheCommand : Obligations.EndCompletesTheCommand := by
  unfold Obligations.EndCompletesTheCommand
  exact fun s => ⟨exec_endDesc_enc, exec_endDesc_dec⟩

/-! ### The repeated block -/

/-- The index of the first word `x` of a list. -/
theorem findIdx?_beq_eq_some_iff {l : List EntryWord} {x : EntryWord} {k : Nat} :
    l.findIdx? (· == x) = some k ↔ l[k]? = some x ∧ ∀ j < k, l[j]? ≠ some x := by
  simp only [List.findIdx?_eq_some_iff_getElem, beq_iff_eq, List.getElem?_eq_some_iff, ne_eq, not_exists]
  exact ⟨fun ⟨hlt, hk, hfirst⟩ => ⟨⟨hlt, hk⟩, fun j hj _ => hfirst j hj⟩,
    fun ⟨⟨hlt, hk⟩, hfirst⟩ => ⟨hlt, hk, fun j hj => hfirst j hj (hj.trans hlt)⟩⟩

/-- REPB with a count above MAXSAT, on encode (41 R89). -/
theorem exec_repb_over_enc {s : State} (h : s.params.maxsat.toNat < s.cnt.toNat) (hd : s.dir = .enc) :
    exec .repb s = .next (raise .count s) := by
  simp only [exec, execRepb, if_pos h, hd]

/-- And on decode. -/
theorem exec_repb_over_dec {s : State} (h : s.params.maxsat.toNat < s.cnt.toNat) (hd : s.dir = .dec) :
    exec .repb s = .next (finish .invalidMessage s) := by
  simp only [exec, execRepb, if_pos h, hd]

/-- Everything REPB can do when it answers (41 R89). -/
theorem exec_repb_next {s t : State} (h : exec .repb s = .next t) :
    (s.params.maxsat.toNat < s.cnt.toNat ∧
      ((s.dir = .enc ∧ t = raise .count s) ∨ (s.dir = .dec ∧ t = finish .invalidMessage s))) ∨
    (s.cnt = 0 ∧ ∃ k, s.words.findIdx? (· == 0xE000) = some k ∧
      t = { s with recIx := 0, rpt := s.dix + 1, dix := BitVec.ofNat 6 (k + 1) }) ∨
    (s.cnt ≠ 0 ∧ s.cnt.toNat ≤ s.params.maxsat.toNat ∧
      t = { s with recIx := 0, rpt := s.dix + 1, inrep := true, dix := s.dix + 1 }) := by
  by_cases hover : s.params.maxsat.toNat < s.cnt.toNat
  · refine .inl ⟨hover, ?_⟩
    rcases enc_or_dec s.dir with hd | hd
    · exact .inl ⟨hd, Host.Outcome.next.inj (h.symm.trans (exec_repb_over_enc hover hd))⟩
    · exact .inr ⟨hd, Host.Outcome.next.inj (h.symm.trans (exec_repb_over_dec hover hd))⟩
  rw [exec, execRepb, if_neg hover] at h
  split at h
  · cases hk : s.words.findIdx? (· == 0xE000) <;> rw [hk] at h <;> cases h
    exact .inr (.inl ⟨‹_›, _, rfl, rfl⟩)
  · cases h
    exact .inr (.inr ⟨‹_›, not_lt.1 hover, rfl⟩)

/-- Settles O25: each clause is one case of the definition. -/
theorem repbTestsTheCount : Obligations.RepbTestsTheCount := by
  unfold Obligations.RepbTestsTheCount
  refine fun s => ⟨exec_repb_over_enc, fun hover hd => ?_, fun h0 k hk hfirst => ?_, fun h0 hle => ?_⟩
  · exact ⟨_, exec_repb_over_dec hover hd, finish_frame .invalidMessage s⟩
  · have hle : ¬ s.params.maxsat.toNat < s.cnt.toNat := by simp [h0]
    rw [exec, execRepb, if_neg hle, if_pos h0, findIdx?_beq_eq_some_iff.2 ⟨hk, hfirst⟩]
  · rw [exec, execRepb, if_neg hle.not_gt, if_neg h0]

theorem exec_repe (s : State) : exec .repe s = .next (afterRepe s) := entryStep_repe s

/-- Settles O26: the two cases of REPE. -/
theorem repeLoopsOrLeaves : Obligations.RepeLoopsOrLeaves := by
  unfold Obligations.RepeLoopsOrLeaves
  simp only [exec_repe, afterRepe]
  exact fun s => ⟨fun h => by rw [if_pos h], fun h => by rw [if_neg h.not_gt]⟩

/-! ### Where DIX goes -/

/-- A field that answers moves DIX to the next entry, or ends the command and leaves it. -/
theorem exec_field_dix {i : Instr} {s t : State} (hf : isField i = true) (h : exec i s = .next t) :
    t.dix = s.dix + 1 ∨ (t.running = false ∧ t.dix = s.dix) := by
  rw [exec_entry (isCommand_of_isField hf)] at h
  rcases enc_or_dec s.dir with hd | hd
  · rcases Nat.lt_or_ge s.capBits (s.cur.toNat + i.width) with hc | hc
    · rw [entryStep_exceeds hf hc] at h
      cases h
      exact .inr ⟨rfl, rfl⟩
    · rw [entryStep_encode hd (encodable_of_next hf hd hc h) hc] at h
      cases h
      exact .inl rfl
  · rcases entryStep_decode_next hf hd h with rfl | rfl | ⟨_, _, rfl⟩
    · exact .inr ⟨rfl, rfl⟩
    · exact .inr ⟨rfl, rfl⟩
    · exact .inl (by rw [decOne_eq])

/-- An entry that answers moves DIX to the next entry, past the block, back to RPT, or ends the command (41 R93). -/
theorem exec_entry_dix {i : Instr} {s t : State} (hi : i.isCommand = false) (h : exec i s = .next t) :
    t.dix = s.dix + 1 ∨
    (i = .repb ∧ s.cnt = 0 ∧ ∃ k, s.words[k]? = some 0xE000 ∧ t.dix = BitVec.ofNat 6 (k + 1)) ∨
    (i = .repe ∧ s.recIx.toNat + 1 < s.cnt.toNat ∧ t.dix = s.rpt) ∨
    (t.running = false ∧ t.dix = s.dix) := by
  by_cases hf : isField i = true
  · exact (exec_field_dix hf h).imp_right fun hend => .inr (.inr hend)
  cases i <;> simp only [isField, Instr.isCommand, not_true_eq_false, Bool.true_eq_false] at hf hi
  case endDesc =>
    refine .inr (.inr (.inr ?_))
    rcases enc_or_dec s.dir with hd | hd
    · cases (exec_endDesc_enc hd).symm.trans h
      exact ⟨rfl, rfl⟩
    · cases (exec_endDesc_dec hd).symm.trans h
      exact ⟨rfl, rfl⟩
  case repb =>
    rcases exec_repb_next h with ⟨_, ⟨_, rfl⟩ | ⟨_, rfl⟩⟩ | ⟨h0, k, hk, rfl⟩ | ⟨_, _, rfl⟩
    · exact .inr (.inr (.inr ⟨rfl, rfl⟩))
    · exact .inr (.inr (.inr ⟨rfl, rfl⟩))
    · exact .inr (.inl ⟨rfl, h0, k, (findIdx?_beq_eq_some_iff.1 hk).1, rfl⟩)
    · exact .inl rfl
  case repe =>
    rw [exec_repe, afterRepe] at h
    split at h <;> cases h
    · exact .inr (.inr (.inl ⟨rfl, ‹_›, rfl⟩))
    · exact .inl rfl

/-- A command that is no message command leaves DIX. -/
theorem exec_primitive_dix {i : Instr} {s t : State} (hi : i.isCommand = true)
    (hm : i ∉ [Instr.encRawx, .decRawx, .encEph, .decEph]) (h : exec i s = .next t) : t.dix = s.dix := by
  rcases exec_next h with ⟨hc, _⟩ | ⟨_, _, rfl⟩ | ⟨_, _, _, rfl⟩ | ⟨_, _, _, _, _, _, _, _, rfl⟩ |
    ⟨_, _, _, _, _, rfl⟩ | ⟨_, _, _, _, hmem, _⟩
  · rw [hi] at hc
    cases hc
  · rfl
  · rfl
  · rfl
  · rfl
  · exact absurd hmem hm

/-- A host action that neither starts a message command nor resets the block leaves DIX. -/
theorem perform_dix {a : HostAction} {s t : State} (h : perform a s = .next t) (hreset : a ≠ .reset)
    (hm : ∀ w i, a = .command w → i ∈ [Instr.encRawx, .decRawx, .encEph, .decEph] → decodeCommand w ≠ .ok i) :
    t.dix = s.dix := by
  cases a with
  | command w =>
    simp only [perform, issue] at h
    cases hw : decodeCommand w with
    | ok i =>
      rw [hw] at h
      exact exec_primitive_dix (isCommand_of_decodeCommand hw) (fun hi => hm w i rfl hi hw) h
    | error e =>
      rw [hw] at h
      rcases unlessHalted_next h with ⟨_, rfl⟩ | ⟨_, h⟩ <;> [rfl; (cases h; rfl)]
  | writeReg addr v =>
    cases h
    exact writeReg_dix addr v s
  | writeBuf b x =>
    simp only [perform] at h
    split at h <;> cases h
    rfl
  | writeFld b v =>
    simp only [perform] at h
    split at h <;> cases h
    rfl
  | reset => exact absurd rfl hreset

/-- Settles O27: an entry by its cases, a step of the idle block by the host's action. -/
theorem dixMovesByOne : Obligations.DixMovesByOne := by
  unfold Obligations.DixMovesByOne
  refine ⟨fun s t i => exec_entry_dix, fun s t a rest hr hp h hreset hm => ?_⟩
  rw [step_of_action hr hp] at h
  exact perform_dix (s := { s with pending := rest }) h hreset hm

end Sys2Proof.Machine
end

section
/-!
PROOFS. The ends of a decode (spec/42_message_codecs.md): the first two bytes decide TYPE_MISMATCH before anything
behind them is read (R109), and the count byte of DEC_RAWX decides between OK and INVALID_MESSAGE (R110).
-/

namespace Sys2Proof.Machine

open Sys2Proof

/-- A byte, zero-extended, is a value of eight bits. -/
theorem toNat_setWidth_byte_lt (b : Byte) : (b.setWidth 64).toNat < 2 ^ 8 := by
  rw [BitVec.toNat_setWidth_of_le (by decide)]
  exact b.isLt

/-- A byte that holds a value is a field of eight bits. -/
theorem Memory.readField_of_readByte {m : Memory} {a : Nat} {b : Byte} (h : m.readByte a = some b) :
    m.readField 8 (8 * a) 0 = .ok (b.setWidth 64) := by
  refine Memory.readField_eq (by decide) (toNat_setWidth_byte_lt b) fun i hi => ?_
  rw [Memory.readByte_eq_some_iff.1 h i hi, BitVec.getLsbD_setWidth, decide_eq_true (by omega), Bool.true_and]

/-- Two bytes zero-extended to a slot are the same only where the bytes are. -/
theorem setWidth_byte_inj {b c : Byte} : b.setWidth 64 = c.setWidth 64 ↔ b = c := by
  rw [← BitVec.toNat_inj, BitVec.toNat_setWidth_of_le (by decide), BitVec.toNat_setWidth_of_le (by decide),
    BitVec.toNat_inj]

/-! ### The two tags -/

/-- The start of a decode over a descriptor that begins with the two tags, each one byte wide (30 R52), for a message of
class `cls` and id `idn`. -/
structure AtTags (cls idn : Byte) (d : Descriptor) (s : State) : Prop where
  dir : s.dir = .dec
  running : s.running = true
  cur : s.cur.toNat = 0
  layout : decodeLayout s.words = some d
  length : d.length ≤ 64
  tags : ∃ a b y ys, d.drop s.dix.toNat = .tagc 7 a :: .tagi 7 b :: y :: ys
  expClass : s.expClass = cls
  expId : s.expId = idn

/-- A decode of a block that is not halted is the loop from the tags of its descriptor. -/
theorem exec_decode_atTags {s : State} {i : Instr} {cls idn : Byte}
    (hi : (i = .decRawx ∧ cls = s.params.rawxClass ∧ idn = s.params.rawxId) ∨
      (i = .decEph ∧ s.params.ok = true ∧ cls = 0x13 ∧ idn = 0x00)) (h0 : s.fault = 0) :
    ∃ mt d n, exec i s = microLoop (n + 2) (startCommand mt .dec s) ∧
      AtTags cls idn d (startCommand mt .dec s) := by
  rcases hi with ⟨rfl, rfl, rfl⟩ | ⟨rfl, hok, rfl, rfl⟩
  · exact ⟨.rawx, rawxEntries, 10 + 15 * s.params.maxsat.toNat,
      (exec_rawx (mt := .rawx) (dir := .dec) s h0 (by decide)).trans (by rw [Nat.add_right_comm]),
      rfl, rfl, rfl, decodeLayout_rawx, by decide, ⟨_, _, _, _, rfl⟩, rfl, rfl⟩
  · obtain ⟨d, hd⟩ : ∃ d, decodeLayout s.params.ephLayout = some d := by
      unfold Params.ok at hok
      split at hok
      · exact ⟨_, ‹_›⟩
      · cases hok
    obtain ⟨xs, M, rfl, hlen, _, _, _, ⟨a, b, rest, rfl, _⟩, _, hexec⟩ := exec_eph h0 hok hd
    obtain ⟨y, ys, hrest⟩ : ∃ y ys, rest ++ [.endDesc] = y :: ys :=
      List.exists_cons_of_ne_nil (List.append_ne_nil_of_right_ne_nil _ (List.cons_ne_nil _ _))
    exact ⟨.eph, _, M + 1 + rest.length, hexec,
      rfl, rfl, rfl, hd, hlen, ⟨a, b, y, ys, by rw [← hrest]; rfl⟩, rfl, rfl⟩

/-- A tag that differs ends the loop with TYPE_MISMATCH (41 R86, R87). -/
theorem microLoop_tag_mismatch {i : Instr} {a : BitVec 6} {expected : Byte} {s : State} {v : Slot} (n : Nat)
    (hi : (i = .tagc 7 a ∧ expected = s.expClass) ∨ (i = .tagi 7 a ∧ expected = s.expId))
    (hfetch : fetchEntry s = some i) (hd : s.dir = .dec) (hc : s.cur.toNat + 8 ≤ s.capBits)
    (hv : s.mem.readField 8 s.cur.toNat 0 = .ok v) (hne : v ≠ expected.setWidth 64) :
    Answers (microLoop (n + 1) s) fun t => t.status = .typeMismatch ∧ t.fault = s.fault := by
  have hcommand : i.isCommand = false := by rcases hi with ⟨rfl, _⟩ | ⟨rfl, _⟩ <;> rfl
  have hstep := exec_tag_mismatch hi hd hc hv hne
  rw [exec_entry hcommand] at hstep
  exact ⟨_, microLoop_last hfetch hstep (finish_running ..), finish_status .., finish_fault ..⟩

section
variable {cls idn : Byte} {d : Descriptor} {s : State} (h : AtTags cls idn d s) (n : Nat)
include h

/-- A class byte that differs ends the decode. -/
theorem AtTags.class_mismatch {c : Byte} (hcap : 8 ≤ s.capBits) (hc : s.mem.readByte 0 = some c) (hne : c ≠ cls) :
    Answers (microLoop (n + 2) s) fun t => t.status = .typeMismatch ∧ t.fault = s.fault := by
  obtain ⟨hdir, _, hcur, hlayout, _, ⟨a, b, y, ys, htags⟩, hcls, _⟩ := h
  refine microLoop_tag_mismatch (n + 1) (.inl ⟨rfl, rfl⟩) (fetchEntry_of_drop hlayout htags) hdir (by omega)
    (by rw [hcur]; exact Memory.readField_of_readByte hc) ?_
  rwa [hcls, Ne, setWidth_byte_inj]

/-- The class tag, which matches, can be decoded. -/
theorem AtTags.decodable_class (hc : s.mem.readByte 0 = some cls) (a : BitVec 6) : Decodable s 0 (.tagc 7 a) :=
  decodable_of_tag (.inl ⟨rfl, h.expClass.symm⟩) (Memory.readField_of_readByte hc)

/-- An id byte that differs behind a class byte that does not ends the decode. -/
theorem AtTags.id_mismatch {c : Byte} (hcap : 16 ≤ s.capBits) (hcls : s.mem.readByte 0 = some cls)
    (hc : s.mem.readByte 1 = some c) (hne : c ≠ idn) :
    Answers (microLoop (n + 2) s) fun t => t.status = .typeMismatch ∧ t.fault = s.fault := by
  have hclass := h.decodable_class hcls
  obtain ⟨hdir, hrun, hcur, hlayout, hlen, ⟨a, b, y, ys, htags⟩, _, hid⟩ := h
  have hwidth : Descriptor.totalWidth [.tagc 7 a] = 8 := rfl
  have hdec : ∀ p ∈ placed s.cur.toNat [.tagc 7 a], Decodable s p.1 p.2 := by
    rw [hcur]
    exact List.forall_mem_singleton.2 (hclass a)
  obtain ⟨hloop, hdrop⟩ := microLoop_decode hlen [.tagc 7 a] (n + 1) hlayout htags hdir hrun hdec (by omega)
  have hcur' := decFields_cur [.tagc 7 a] (s := s) (by omega)
  have hbuf := decFields_buffer [.tagc 7 a] s
  have heq := decFields_eq [.tagc 7 a] s
  rw [hwidth, hcur] at hcur'
  rw [List.length_singleton] at hloop
  rw [hloop]
  generalize decFields [.tagc 7 a] s = u at *
  have hv : u.mem.readField 8 u.cur.toNat 0 = .ok (c.setWidth 64) := by
    rw [hcur', hbuf.readField_eq]
    exact Memory.readField_of_readByte hc
  have hne' : c.setWidth 64 ≠ u.expId.setWidth 64 := by
    rw [heq]
    exact fun he => hne ((setWidth_byte_inj.1 he).trans hid)
  obtain ⟨t, ht, hstatus, hfault⟩ := microLoop_tag_mismatch n (.inr ⟨rfl, rfl⟩)
    (fetchEntry_of_drop (by rw [heq]; exact hlayout) hdrop) (by rw [heq]; exact hdir)
    (by rw [hcur', heq]; exact hcap) hv hne'
  exact ⟨t, ht, hstatus, by rw [hfault, heq]⟩

/-- Two tags that do not both fit, and a class byte that matches where it fits: BOUNDS. -/
theorem AtTags.bounds (hcap : s.capBits < 16) (hcls : 8 ≤ s.capBits → s.mem.readByte 0 = some cls) :
    Answers (microLoop (n + 2) s) fun t => t.fault = s.fault ||| 0x2 ∧ t.status = s.status := by
  have hclass := fun hfit => h.decodable_class (hcls hfit)
  obtain ⟨hdir, hrun, hcur, hlayout, hlen, ⟨a, b, y, ys, htags⟩, _, _⟩ := h
  have hwidth : Descriptor.totalWidth [.tagc 7 a, .tagi 7 b] = 16 := rfl
  have hdec : ∀ p ∈ placed s.cur.toNat [.tagc 7 a, .tagi 7 b], p.1 + p.2.width ≤ s.capBits →
      Decodable s p.1 p.2 := by
    rw [hcur]
    simp only [placed, List.forall_mem_cons]
    exact ⟨fun hfit => hclass hfit a, fun hfit => absurd hfit (Nat.not_le.2 hcap), by simp⟩
  obtain ⟨zs, _, _, _, hloop⟩ := microLoop_decode_bounds hlen [.tagc 7 a, .tagi 7 b] n hlayout htags hdir hrun
    (by simp [isField]) hdec (by omega) (by omega)
  exact ⟨_, hloop, by rw [decFields_eq]; rfl, by rw [decFields_eq]; rfl⟩

end

/-- Settles O35: by the capacity, and by the first of the two bytes that differs. -/
theorem wrongFirstBytesGiveTypeMismatch : Obligations.WrongFirstBytesGiveTypeMismatch := by
  unfold Obligations.WrongFirstBytesGiveTypeMismatch
  intro s i cls idn hi h0
  obtain ⟨mt, d, n, hexec, htags⟩ := exec_decode_atTags hi h0
  have hcapBits : (startCommand mt .dec s).capBits = 8 * s.cap.toNat := rfl
  have hbounds (hcap : s.cap.toNat < 2) (hcls : 1 ≤ s.cap.toNat → s.mem.readByte 0 = some cls) :
      Answers (exec i s) fun t => t.fault = 0x2 ∧ t.status = s.status := by
    have h := htags.bounds n (by omega) fun hfit => hcls (by omega)
    rwa [← hexec, startCommand_fault, h0, startCommand_status] at h
  have hclass {c : Byte} (hcap : 1 ≤ s.cap.toNat) (hc : s.mem.readByte 0 = some c) (hne : c ≠ cls) :
      Answers (exec i s) fun t => t.status = .typeMismatch ∧ t.fault = 0 := by
    have h := htags.class_mismatch n (by omega) hc hne
    rwa [← hexec, startCommand_fault, h0] at h
  refine ⟨fun c c' hcap hc hc' hne => ?_, fun c hcap hc => ?_, fun hcap => ?_⟩
  · by_cases heq : c = cls
    · have h := htags.id_mismatch n (by omega) (heq ▸ hc) hc' (hne.resolve_left (not_not_intro heq))
      rwa [← hexec, startCommand_fault, h0] at h
    · exact hclass (by omega) hc heq
  · have hcap1 : s.cap.toNat = 1 := by rw [hcap]; rfl
    exact ⟨hclass hcap1.ge hc, fun heq => hbounds (by omega) fun _ => heq ▸ hc⟩
  · have hcap0 : s.cap.toNat = 0 := by rw [hcap]; rfl
    exact hbounds (by omega) fun hfit => by omega

/-! ### The count of DEC_RAWX -/

/-- Where the bits of a whole run of fields hold values, those of each field do. -/
theorem BitsWritten.of_placed {m : Memory} {q : Nat} {xs : List Instr}
    (h : BitsWritten m q (q + Descriptor.totalWidth xs)) {p : Nat × Instr} (hp : p ∈ placed q xs) :
    BitsWritten m p.1 (p.1 + p.2.width) := by
  obtain ⟨hfirst, hlast⟩ := placed_within xs q p hp
  exact fun b hlo hhi => h b (hfirst.trans hlo) (hhi.trans_le hlast)

/-- DEC_RAWX of a message whose first bytes match and whose header fits and holds values is the loop from REPB, with the
count latched and the buffer as it was. -/
theorem exec_decRawx_head {s : State} {c : Slot} (h0 : s.fault = 0)
    (hcls : FieldHolds s.mem 0 8 (s.params.rawxClass.setWidth 64))
    (hid : FieldHolds s.mem 8 8 (s.params.rawxId.setWidth 64)) (hc : c.toNat < 2 ^ 8) (hcnt : FieldHolds s.mem 112 8 c)
    (hcap : 140 ≤ s.capBits) (hw : BitsWritten s.mem 0 140) :
    ∃ u, exec .decRawx s = microLoop (2 + 15 * s.params.maxsat.toNat + 1) u ∧ u.dix = 9 ∧ u.cur.toNat = 140 ∧
      u.cnt = c ∧ SameBuffer s.mem u.mem ∧
      u = { startCommand .rawx .dec s with mem := u.mem, cur := u.cur, dix := u.dix, cnt := u.cnt } := by
  have hw' : BitsWritten s.mem 0 (0 + Descriptor.totalWidth rawxHead) := by
    rwa [rawxHead_width, Nat.zero_add]
  obtain ⟨u, hloop, hdix, hcur, hcnt, hbuf, _, _, heq⟩ := decode_head (s := startCommand .rawx .dec s)
    (2 + 15 * s.params.maxsat.toNat + 1) rfl rfl rfl rfl rfl rfl (fun _ hp _ => hw'.of_placed hp)
    (Memory.readField_eq (by decide) (toNat_setWidth_byte_lt _) hcls)
    (Memory.readField_eq (by decide) (toNat_setWidth_byte_lt _) hid)
    (Memory.readField_eq (by decide) hc hcnt) hcap
  refine ⟨u, ?_, hdix, hcur, hcnt, hbuf, heq⟩
  rw [exec_rawx (mt := .rawx) (dir := .dec) s h0 (by decide), ← hloop]
  congr 1
  omega

/-- From REPB on, a count of at most MAXSAT whose records fit and hold values leads to END and OK. -/
theorem decode_records_end {s : State} (hmt : s.mt = .rawx) (hdir : s.dir = .dec) (hrun : s.running = true)
    (hdix : s.dix = 9) (hmax : s.cnt.toNat ≤ s.params.maxsat.toNat)
    (hcap : s.cur.toNat + 256 * s.cnt.toNat ≤ s.capBits)
    (hw : BitsWritten s.mem s.cur.toNat (s.cur.toNat + 256 * s.cnt.toNat)) :
    ∃ t, microLoop (2 + 15 * s.cnt.toNat + 1) s = .next (finish .ok t) := by
  by_cases hz : s.cnt = 0
  · rw [repb_skip _ hmt hrun hdix hz, hz]
    exact ⟨_, decode_end 1 hmt hdir rfl⟩
  · have hpos : s.cnt.toNat ≠ 0 := fun h => hz (BitVec.eq_of_toNat_eq h)
    rw [repb_enter _ hmt hrun hdix hz hmax]
    have hblock : InBlock { s with recIx := 0, rpt := 10, inrep := true, dix := 10 } .dec 0 s.cnt.toNat :=
      ⟨hmt, hdir, hrun, rfl, rfl, rfl, rfl, (Nat.zero_add _).symm, (Nat.zero_add _).le.trans hmax⟩
    have hwritten : ∀ i < s.cnt.toNat, ∀ p ∈ placed (s.cur.toNat + 256 * i) rawxBody, p.2.slot?.isSome →
        BitsWritten s.mem p.1 (p.1 + p.2.width) := fun i hi p hp _ =>
      BitsWritten.of_placed (fun q hlo hhi => hw q (by omega) (by rw [rawxBody_width] at hhi; omega)) hp
    obtain ⟨t, hloop, htdix, _, htdir, htmt, _⟩ :=
      decode_records (s.cnt.toNat - 1) 2 s.cnt.toNat (by omega) hblock hwritten hcap
    rw [hloop]
    exact ⟨t, decode_end 1 htmt htdir htdix⟩

/-- Settles O37: the header leads to REPB with the count latched; REPB goes on to END, or ends the decode. -/
theorem countBoundaryIsMaxsat : Obligations.CountBoundaryIsMaxsat := by
  unfold Obligations.CountBoundaryIsMaxsat
  intro s h0 hcls hid hcap hw
  have hmax := s.params.maxsat.isLt
  have head {c : Slot} (hc : c.toNat < 2 ^ 8) (hcnt : FieldHolds s.mem 112 8 c) :=
    exec_decRawx_head h0 hcls hid hc hcnt (by omega) fun q hlo hhi => hw q hlo (by omega)
  refine ⟨fun hcnt => ?_, fun hlt hcnt => ?_⟩
  · have hn : (s.params.maxsat.setWidth 64).toNat = s.params.maxsat.toNat :=
      BitVec.toNat_setWidth_of_le (by decide)
    obtain ⟨u, hexec, hdix, hcur, hucnt, hbuf, heq⟩ := head (hn.trans_lt hmax) hcnt
    have hparams : u.params = s.params := by rw [heq]; rfl
    have hucap : u.capBits = s.capBits := by rw [heq]; rfl
    rw [← hucnt] at hn
    obtain ⟨t, ht⟩ := decode_records_end (s := u) (by rw [heq]; rfl) (by rw [heq]; rfl) (by rw [heq]; rfl) hdix
      (by rw [hn, hparams]) (by rw [hcur, hn, hucap]; exact hcap)
      fun q _ hhi => by rw [hbuf.bit?_eq]; exact hw q (by omega) (by omega)
    rw [hn, ← hexec] at ht
    exact ⟨_, ht, finish_status ..⟩
  · have hn : (BitVec.ofNat 64 (s.params.maxsat.toNat + 1)).toNat = s.params.maxsat.toNat + 1 :=
      Nat.mod_eq_of_lt (by omega)
    obtain ⟨u, hexec, hdix, _, hucnt, _, heq⟩ := head (by omega) hcnt
    have hover : u.params.maxsat.toNat < u.cnt.toNat := by rw [hucnt, hn, heq]; exact Nat.lt_succ_self _
    have hdir : u.dir = .dec := by rw [heq]; rfl
    refine ⟨finish .invalidMessage u, ?_, finish_status ..⟩
    rw [hexec, repb_over _ (by rw [heq]; rfl) hdix hover, hdir]

end Sys2Proof.Machine
end

section
/-!
PROOFS. Raising a fault and the halted block (spec/60_exceptions.md): which primitive raises WIDTH (R126), what a fault
leaves as it was (R131), and what the block still does while FAULT is not 0 (R132).
-/

namespace Sys2Proof.Machine

open Sys2Proof

/-! ### WIDTH -/

/-- A micro-step never sets bit 0 of FAULT: it raises BOUNDS or COUNT (60 R126). -/
theorem MicroEffect.fault_width {s t : State} (h : MicroEffect s t) : t.fault.getLsbD 0 = s.fault.getLsbD 0 := by
  cases h with
  | raised c hc =>
    have hmask : c.mask.getLsbD 0 = false := by rcases hc with rfl | rfl <;> rfl
    rw [raise_fault, BitVec.getLsbD_or, hmask, Bool.or_false]
  | mismatch | invalid | finishedOk => exact congrArg (BitVec.getLsbD · 0) (finish_fault ..)
  | _ => rfl

/-- Settles O49: the operand check of a primitive, and the micro-steps of a message command. -/
theorem widthIsRaisedByPrimitivesAlone : Obligations.WidthIsRaisedByPrimitivesAlone := by
  unfold Obligations.WidthIsRaisedByPrimitivesAlone
  refine ⟨fun pos len val s h0 hlen i hi => ?_, fun s t i hi h => ?_⟩
  · have hwidth : len.toNat < 1 ∨ 64 < len.toNat := hlen.imp_left fun h => by rw [h]; decide
    obtain ⟨-, hraise, -⟩ := checksOperands_of_primitive hi s
    exact hraise h0 hwidth
  · rcases message_next hi h with ⟨_, rfl⟩ | ⟨_, mt, dir, hr, _⟩
    · rfl
    · exact (runCommand_induction (P := fun u => u.fault.getLsbD 0 = s.fault.getLsbD 0) hr rfl
        fun u v hu he => he.fault_width.trans hu).1

/-! ### What a fault leaves -/

/-- A micro-step that changes FAULT has raised a cause and done nothing else. -/
theorem MicroEffect.eq_raise {s t : State} (h : MicroEffect s t) (hf : t.fault ≠ s.fault) : ∃ c, t = raise c s := by
  cases h with
  | raised c => exact ⟨c, rfl⟩
  | mismatch | invalid | finishedOk => exact absurd (finish_fault ..) hf
  | _ => exact absurd rfl hf

/-- An instruction that is no message command and changes FAULT has raised a cause and done nothing else. -/
theorem exec_eq_raise {i : Instr} {s t : State} (hi : i ∉ [Instr.encRawx, .decRawx, .encEph, .decEph])
    (h : exec i s = .next t) (hf : t.fault ≠ s.fault) : ∃ c, t = raise c s := by
  rcases exec_next h with ⟨_, he⟩ | ⟨_, _, rfl⟩ | ⟨c, _, _, rfl⟩ | ⟨_, _, _, _, _, _, _, _, rfl⟩ |
    ⟨_, _, _, _, _, rfl⟩ | ⟨_, _, _, _, hmem, _⟩
  · exact he.eq_raise hf
  · exact absurd rfl hf
  · exact ⟨c, rfl⟩
  · exact absurd rfl hf
  · exact absurd rfl hf
  · exact absurd hmem hi

/-- A step of a command in progress, and the steps after it. -/
theorem run_of_microStep {s u : State} (hr : s.running = true) (h0 : s.fault = 0) (h : microStep s = .next u) (k : Nat) :
    core.run (k + 1) s = core.run k u := by
  have hstep : core.step s = .next u := (step_of_running hr h0).trans h
  simp only [Host.Core.run]
  rw [hstep]

/-- A loop that ends in a fault has come, step by step, to a state in which the command was in progress without one, and
there has raised it (60 R131). -/
theorem microLoop_fault_raised : ∀ (n : Nat) {s t : State}, microLoop n s = .next t → s.running = true →
    s.fault = 0 → t.fault ≠ 0 →
    ∃ k u, core.run k s = .next u ∧ u.running = true ∧ u.fault = 0 ∧ ∃ c, t = raise c u := by
  intro n
  induction n with
  | zero => intro s t h; cases h
  | succ n ih =>
    intro s t h hr h0 hf
    obtain ⟨i, u, hfetch, hi, hu⟩ := microLoop_succ_next h
    have hstep : microStep s = .next u := by rw [microStep, hfetch]; exact hi
    rcases hu with ⟨hru, hloop⟩ | ⟨_, rfl⟩
    · have hu0 : u.fault = 0 := by
        by_contra hne
        obtain ⟨c, rfl⟩ := (entryStep_effect hi).eq_raise (h0 ▸ hne)
        cases hru
      obtain ⟨k, v, hrun, hv⟩ := ih hloop hru hu0 hf
      exact ⟨k + 1, v, (run_of_microStep hr h0 hstep k).trans hrun, hv⟩
    · exact ⟨0, s, rfl, hr, h0, (entryStep_effect hi).eq_raise (h0 ▸ hf)⟩

theorem withEphLayout_next {s t : State} {k : State → Result} (h : withEphLayout s k = .next t) :
    s.params.ok = true ∧ k s = .next t := by
  unfold withEphLayout at h
  split at h
  · exact ⟨‹_›, h⟩
  · cases h

/-- A message command of a block that is not halted is the sequencer's run, where it answers; over an EPH_LAYOUT the
answer shows it admissible. -/
theorem runCommand_of_runs {i : Instr} {mt : MsgType} {dir : Direction} (hi : Runs i mt dir) {s t : State}
    (h0 : s.fault = 0) (h : exec i s = .next t) : runCommand mt dir s = .next t ∧ (mt = .eph → s.params.ok = true) := by
  simp only [Runs, List.mem_cons, Prod.mk.injEq, List.not_mem_nil, or_false] at hi
  rcases hi with ⟨rfl, rfl, rfl⟩ | ⟨rfl, rfl, rfl⟩ | ⟨rfl, rfl, rfl⟩ | ⟨rfl, rfl, rfl⟩ <;>
    simp only [exec, execEncRawx, execDecRawx, execEncEph, execDecEph, unlessHalted_of_ok h0] at h
  · exact ⟨h, nofun⟩
  · exact ⟨h, nofun⟩
  · exact (withEphLayout_next h).symm.imp_right fun hok _ => hok
  · exact (withEphLayout_next h).symm.imp_right fun hok _ => hok

/-- A command that leaves the block halted has left STATUS, BITS and RES (60 R131). -/
theorem exec_faulted_keeps {i : Instr} {s t : State} (hi : i.isCommand = true) (h : exec i s = .next t)
    (hf : t.fault ≠ 0) : t.status = s.status ∧ t.bits = s.bits ∧ t.res = s.res := by
  rcases exec_next h with ⟨hc, _⟩ | ⟨_, _, rfl⟩ | ⟨c, _, _, rfl⟩ | ⟨_, _, _, _, h0, _, _, _, rfl⟩ |
    ⟨_, _, _, _, h0, rfl⟩ | ⟨_, _, h0, hr, _⟩
  · rw [hi] at hc
    cases hc
  · exact ⟨rfl, rfl, rfl⟩
  · exact ⟨rfl, rfl, rfl⟩
  · exact absurd h0 hf
  · exact absurd h0 hf
  · rw [(runCommand_faulted hr h0 hf).1]
    exact ⟨rfl, rfl, rfl⟩

/-- Settles O48: a single micro-step and a primitive by what they can do; a message command by the micro-step that
raised. -/
theorem faultEntryIsPrecise : Obligations.FaultEntryIsPrecise := by
  unfold Obligations.FaultEntryIsPrecise
  refine ⟨fun s t i hi h hf => exec_eq_raise hi h hf, fun s t mt dir i hi h0 h hf => ?_,
    fun s t i hi h hf => exec_faulted_keeps hi h hf⟩
  obtain ⟨k, u, hrun, hr, hu0, c, rfl⟩ := microLoop_fault_raised _ (runCommand_of_runs hi h0 h).1 rfl h0 hf
  exact ⟨k, u, hrun, hr, hu0, c, raise_of_ok hu0 c⟩

/-! ### The halted block -/

/-- A halted block takes the host's next action (60 R132). -/
theorem step_of_halted {s : State} (h : s.fault ≠ 0) : step s = stepHost s := by
  unfold step stepNext
  rw [if_neg fun hr => hr.2 ((State.halted_eq_true s).2 h)]

theorem step_of_halted_action {s : State} {a : HostAction} {rest : List HostAction} (h : s.fault ≠ 0)
    (hp : s.pending = a :: rest) : step s = perform a { s with pending := rest } := by
  rw [step_of_halted h, stepHost, hp]

/-- A halted block ignores every command word, legal or not. -/
theorem issue_of_halted {s : State} (h : s.fault ≠ 0) (w : CommandWord) : issue w s = .next s := by
  unfold issue
  cases hw : decodeCommand w with
  | ok i => exact exec_of_halted (isCommand_of_decodeCommand hw) h
  | error e => exact unlessHalted_of_halted h _

/-- A byte wholly written reads back. -/
theorem Memory.readByte_setByte_same (m : Memory) (a : Nat) (b : Byte) :
    (m.setByte a 0xFF b).readByte a = some b := by
  have hb : b &&& 0xFF = b := BitVec.and_allOnes
  rw [Memory.readByte, Memory.mask_setByte, Memory.value_setByte, if_pos rfl, if_pos rfl, if_pos rfl, hb]

/-- What the host does to a halted block leaves FAULT, unless it is a reset. -/
theorem perform_fault_of_halted {a : HostAction} {s t : State} (h0 : s.fault ≠ 0) (hreset : a ≠ .reset)
    (h : perform a s = .next t) : t.fault = s.fault := by
  cases a with
  | command w =>
    cases (issue_of_halted h0 w).symm.trans h
    rfl
  | writeReg addr v =>
    cases h
    exact writeReg_fault addr v s
  | writeBuf b x =>
    simp only [perform] at h
    split at h <;> cases h
    rfl
  | writeFld b v =>
    simp only [perform] at h
    split at h <;> cases h
    rfl
  | reset => exact absurd rfl hreset

theorem step_fault_of_halted {s t : State} (h0 : s.fault ≠ 0) (hreset : ∀ rest, s.pending ≠ .reset :: rest)
    (h : step s = .next t) : t.fault = s.fault := by
  cases hp : s.pending with
  | nil =>
    rw [step_of_halted h0, stepHost, hp] at h
    cases h
    rfl
  | cons a rest =>
    rw [step_of_halted_action h0 hp] at h
    exact perform_fault_of_halted (s := { s with pending := rest }) h0 (fun ha => hreset rest (ha ▸ hp)) h

/-- Settles O47: a step of the halted block is the host's next action, taken one by one. -/
theorem haltedBlockIgnoresCommands : Obligations.HaltedBlockIgnoresCommands := by
  unfold Obligations.HaltedBlockIgnoresCommands
  intro s h0
  refine ⟨fun i hi => exec_of_halted hi h0, fun w rest hp => ?_, fun v rest hp => ?_, fun a b rest hp ha => ?_,
    fun a v rest hp ha => ?_, fun t h hreset => step_fault_of_halted h0 hreset h, fun rest hp => ?_⟩
  · rw [step_of_halted_action h0 hp]
    exact issue_of_halted (s := { s with pending := rest }) h0 w
  · exact step_of_halted_action h0 hp
  · have hcap := s.cap.isLt
    rw [step_of_halted_action h0 hp]
    exact ⟨_, if_pos (by omega), Memory.readByte_setByte_same s.mem a b, rfl⟩
  · have hslot : (s.mem.setSlot a v).slot? a = some v := by rw [Memory.slot?_setSlot, if_pos rfl]
    have hlt : a < recordAddress s.params.maxsat.toNat 0 := ha
    rw [step_of_halted_action h0 hp]
    exact ⟨_, if_pos hlt, hslot, rfl⟩
  · exact ⟨_, step_of_halted_action h0 hp, rfl⟩

end Sys2Proof.Machine
end

section
/-!
PROOFS. How a decode ends (spec/60_exceptions.md): TYPE_MISMATCH by the first two bytes alone (R122), and what a decode
that fails leaves as it was (R124). Both descriptors are walked by one invariant, `Walks`: INREP is set exactly between
REPB and REPE, so that a field's slot is one the descriptor names, and the entries behind the first two are no tags.
-/

namespace Sys2Proof.Machine

open Sys2Proof

/-! ### A field that answers on decode -/

/-- The converse of `entryStep_decode`, for a field that is no tag. -/
theorem decodable_of_next {i : Instr} {s t : State} (hf : isField i = true) (ht : Descriptor.isTag i = false)
    (hd : s.dir = .dec) (hc : s.cur.toNat + i.width ≤ s.capBits) (h : entryStep i s = .next t) :
    Decodable s s.cur.toNat i := by
  have h64 := (width_of_isField hf).2
  cases i <;> simp only [isField, Bool.false_eq_true, Descriptor.isTag, Bool.true_eq_false] at hf ht
  case rsv w => exact ⟨rfl, trivial, nofun, nofun, nofun⟩
  case fld sgn w a =>
    simp only [entryStep, execFld, hd, check_of_fits (w := w.toNat + 1) hc] at h
    obtain ⟨b, hb, h⟩ := withAddress_next h
    obtain ⟨v, hv, _⟩ := getField_next h
    exact decodable_of_untagged rfl rfl (reaches_of_fieldAddress hb).1 (bitsWritten_of_readField h64 hv)
  case cntf w a =>
    simp only [entryStep, execCntf, hd, decodeField, check_of_fits (w := w.toNat + 1) hc] at h
    obtain ⟨v, hv, _⟩ := getField_next h
    exact decodable_of_untagged rfl rfl trivial (bitsWritten_of_readField h64 hv)

/-- What a field that is no tag has done where it answers: BOUNDS raised, or its whole effect. -/
theorem entryStep_untagged_next {i : Instr} {s t : State} (hf : isField i = true) (ht : Descriptor.isTag i = false)
    (hd : s.dir = .dec) (h : entryStep i s = .next t) :
    t = raise .bounds s ∨ (s.cur.toNat + i.width ≤ s.capBits ∧ Decodable s s.cur.toNat i ∧ t = decOne i s) := by
  rcases Nat.lt_or_ge s.capBits (s.cur.toNat + i.width) with hc | hc
  · rw [entryStep_exceeds hf hc] at h
    exact .inl (Host.Outcome.next.inj h).symm
  · have he := decodable_of_next hf ht hd hc h
    rw [entryStep_decode hd he hc] at h
    exact .inr ⟨hc, he, (Host.Outcome.next.inj h).symm⟩

/-- What a tag has done where it answers: BOUNDS raised, its whole effect, or its field read and found to differ. -/
theorem entryStep_tag_next {wm1 slot : BitVec 6} {i : Instr} {expected : Byte} {s t : State}
    (hi : (i = .tagc wm1 slot ∧ expected = s.expClass) ∨ (i = .tagi wm1 slot ∧ expected = s.expId))
    (hd : s.dir = .dec) (h : entryStep i s = .next t) :
    t = raise .bounds s ∨ (s.cur.toNat + i.width ≤ s.capBits ∧ Decodable s s.cur.toNat i ∧ t = decOne i s) ∨
      ∃ v, s.mem.readField (wm1.toNat + 1) s.cur.toNat 0 = .ok v ∧ v ≠ expected.setWidth 64 ∧
        t = finish .typeMismatch (consume (wm1.toNat + 1) s) := by
  have hread : t = raise .bounds s ∨ (s.cur.toNat + (wm1.toNat + 1) ≤ s.capBits ∧
      ∃ v, s.mem.readField (wm1.toNat + 1) s.cur.toNat 0 = .ok v) := by
    rcases hi with ⟨rfl, _⟩ | ⟨rfl, _⟩ <;> simp only [entryStep, execTagc, execTagi, hd] at h <;>
      exact (decodeField_next h).imp_right fun ⟨hc, v, hv, _⟩ => ⟨hc, v, hv⟩
  refine hread.imp_right fun ⟨hc, v, hv⟩ => ?_
  by_cases hmatch : v = expected.setWidth 64
  · have he := decodable_of_tag hi (hmatch ▸ hv)
    have hc' : s.cur.toNat + i.width ≤ s.capBits := by rcases hi with ⟨rfl, _⟩ | ⟨rfl, _⟩ <;> exact hc
    rw [entryStep_decode hd he hc'] at h
    exact .inl ⟨hc', he, (Host.Outcome.next.inj h).symm⟩
  · have hcommand : i.isCommand = false := by rcases hi with ⟨rfl, _⟩ | ⟨rfl, _⟩ <;> rfl
    have hstep := exec_tag_mismatch hi hd hc hv hmatch
    rw [exec_entry hcommand, h] at hstep
    exact .inr ⟨v, hv, hmatch, Host.Outcome.next.inj hstep⟩

/-! ### Descriptors with their repeated block marked -/

/-- `inBlock` marks the indices of `d` from behind REPB up to REPE: every entry but END leads on to an index marked as
it should be, and a field stands in the part of the descriptor that its mark says. Only the first two entries are tags,
each one byte wide (30 R52). -/
structure BlockMap (d : Descriptor) (inBlock : Nat → Bool) : Prop where
  tags : ∃ a b rest, d = .tagc 7 a :: .tagi 7 b :: rest ∧ ∀ i ∈ rest, Descriptor.isTag i = false
  start : ∀ k, inBlock k = true → 2 ≤ k
  field : ∀ k i, d[k]? = some i → isField i = true → k + 1 < 64 ∧ inBlock (k + 1) = inBlock k ∧
    (inBlock k = false → i ∈ d.outside) ∧ (inBlock k = true → i ∈ d.inside ∧ Descriptor.isPlain i = true)
  repb : ∀ k, d[k]? = some .repb → k + 1 < 64 ∧ inBlock k = false ∧ inBlock (k + 1) = true
  repe : ∀ k, d[k]? = some .repe → k + 1 < 64 ∧ inBlock k = true ∧ inBlock (k + 1) = false

/-- The marks of the RAWX descriptor: its REPB stands at index 9, its REPE at index 24 (30 R54). -/
def rawxInBlock (k : Nat) : Bool := decide (10 ≤ k ∧ k ≤ 24)

theorem blockMap_rawx : BlockMap rawxEntries rawxInBlock := by
  have lt {k : Nat} {i : Instr} (hi : rawxEntries[k]? = some i) : k < 26 := (List.getElem?_eq_some_iff.1 hi).1
  have field : ∀ k < 26, ∀ i ∈ rawxEntries[k]?, isField i = true → k + 1 < 64 ∧
      rawxInBlock (k + 1) = rawxInBlock k ∧ (rawxInBlock k = false → i ∈ rawxEntries.outside) ∧
      (rawxInBlock k = true → i ∈ rawxEntries.inside ∧ Descriptor.isPlain i = true) := by decide
  have repb : ∀ k < 26, rawxEntries[k]? = some .repb →
      k + 1 < 64 ∧ rawxInBlock k = false ∧ rawxInBlock (k + 1) = true := by decide
  have repe : ∀ k < 26, rawxEntries[k]? = some .repe →
      k + 1 < 64 ∧ rawxInBlock k = true ∧ rawxInBlock (k + 1) = false := by decide
  refine ⟨⟨0, 1, _, rfl, by decide⟩, fun k hk => ?_, fun k i hi => field k (lt hi) i hi,
    fun k hi => repb k (lt hi) hi, fun k hi => repe k (lt hi) hi⟩
  have hk := of_decide_eq_true hk
  omega

/-- A descriptor without a repeated block has no index marked. -/
theorem blockMap_eph {d : Descriptor} {maxsat : Nat} (h : d.ephOk maxsat = true) : BlockMap d fun _ => false := by
  obtain ⟨xs, rfl, hlen, hfield, -, -, ⟨a, b, rest, rfl, hrest⟩, hout, -⟩ := shape_of_ephOk h
  have hplain : ∀ i ∈ Instr.tagc 7 a :: .tagi 7 b :: rest ++ [.endDesc], i ≠ .repb ∧ i ≠ .repe := by
    intro i hi
    rcases List.mem_append.1 hi with hi | hi
    · have := hfield i hi
      constructor <;> rintro rfl <;> cases this
    · rw [List.mem_singleton.1 hi]
      exact ⟨nofun, nofun⟩
  refine ⟨⟨a, b, rest ++ [.endDesc], rfl, fun i hi => ?_⟩, nofun, fun k i hi hf => ?_, fun k hi => ?_,
    fun k hi => ?_⟩
  · rcases List.mem_append.1 hi with hi | hi
    · exact hrest i hi
    · rw [List.mem_singleton.1 hi]
      rfl
  · refine ⟨?_, rfl, fun _ => hout.symm ▸ List.mem_of_getElem? hi, nofun⟩
    by_contra hlast
    have hend : k = (Instr.tagc 7 a :: .tagi 7 b :: rest).length := by
      have := (List.getElem?_eq_some_iff.1 hi).1
      simp only [List.length_append, List.length_cons, List.length_nil] at hlen this ⊢
      omega
    rw [hend, List.getElem?_concat_length] at hi
    cases hi
    cases hf
  · exact absurd rfl (hplain _ (List.mem_of_getElem? hi)).1
  · exact absurd rfl (hplain _ (List.mem_of_getElem? hi)).2

/-- DIX moved on behind an entry that is not the last does not wrap. -/
theorem dix_succ_toNat {x : BitVec 6} (h : x.toNat + 1 < 64) : (x + 1).toNat = x.toNat + 1 := by
  rw [BitVec.toNat_add]
  exact Nat.mod_eq_of_lt h

/-- Outside a repeated block a field names the scalar slot of its number. -/
theorem slotAddress_of_scalar {s : State} {i : Instr} {a : Nat} (hin : s.inrep = false) (ha : i.slot? = some a) :
    slotAddress s i = a := by
  cases i <;> simp only [Instr.slot?, Option.some.injEq, reduceCtorEq] at ha <;> subst ha <;>
    simp [slotAddress, hin]

/-- The slots a descriptor names (60 R124). -/
theorem mem_namedSlots_iff {d : Descriptor} {maxsat a : Nat} :
    a ∈ namedSlots d maxsat ↔ (∃ i ∈ d.outside, i.slot? = some a) ∨
      ∃ r < maxsat, ∃ i ∈ d.inside, ∃ b, i.slot? = some b ∧ b < recStride ∧ a = recordAddress r b := by
  simp only [namedSlots, List.mem_append, List.mem_filterMap, List.mem_flatMap, List.mem_range, List.mem_map,
    List.mem_filter, decide_eq_true_eq]
  grind

/-- A field that can be decoded has a slot that the descriptor names. -/
theorem slotAddress_mem_namedSlots {d : Descriptor} {s : State} {i : Instr} (hr : Reaches s i)
    (hout : s.inrep = false → i ∈ d.outside)
    (hin : s.inrep = true → i ∈ d.inside ∧ Descriptor.isPlain i = true) (hs : i.slot?.isSome = true) :
    slotAddress s i ∈ namedSlots d s.params.maxsat.toNat := by
  obtain ⟨a, ha⟩ := Option.isSome_iff_exists.1 hs
  rw [mem_namedSlots_iff]
  cases hrep : s.inrep with
  | false => exact .inl ⟨i, hout hrep, by rw [slotAddress_of_scalar hrep ha, ha]⟩
  | true =>
    obtain ⟨hmem, hplain⟩ := hin hrep
    cases i <;> simp only [Descriptor.isPlain, Bool.false_eq_true, Instr.slot?, reduceCtorEq] at hplain ha
    obtain ⟨hslot, hrec⟩ := hr hrep
    exact .inr ⟨_, hrec, _, hmem, _, rfl, hslot, by rw [slotAddress, if_pos hrep]⟩

/-! ### The walk -/

/-- One of the first two bytes is read and differs from the expected one, the first before the second (60 R122). -/
def TagDiffers (m : Memory) (cls idn : Byte) : Prop :=
  ∃ c : Byte, m.readByte 0 = some c ∧ (c ≠ cls ∨ ∃ d : Byte, m.readByte 1 = some d ∧ d ≠ idn)

/-- A byte-wide field that reads as a byte is that byte. -/
theorem Memory.readByte_of_readField_setWidth {m : Memory} {a : Nat} {b : Byte}
    (h : m.readField 8 (8 * a) 0 = .ok (b.setWidth 64)) : m.readByte a = some b := by
  rw [Memory.readByte_of_readField h, BitVec.setWidth_setWidth_of_le _ (by decide), BitVec.setWidth_eq]

/-- A byte-wide field that reads as another value than `b` is a byte other than `b`. -/
theorem Memory.readByte_ne_of_readField {m : Memory} {a : Nat} {v : Slot} {b : Byte}
    (h : m.readField 8 (8 * a) 0 = .ok v) (hne : v ≠ b.setWidth 64) : ∃ c, m.readByte a = some c ∧ c ≠ b := by
  refine ⟨v.setWidth 8, Memory.readByte_of_readField h, ?_⟩
  rintro rfl
  exact hne (setWidth_setWidth_of_lt (Memory.readField_lt h)).symm

/-- A decode over `d` that started at `s₀` and has come to `s`. At the second tag the class byte has matched. -/
structure Walks (d : Descriptor) (inBlock : Nat → Bool) (s₀ s : State) : Prop where
  running : s.running = true
  dir : s.dir = .dec
  mt : s.mt = s₀.mt
  params : s.params = s₀.params
  inrep : s.inrep = inBlock s.dix.toNat
  rpt : s.inrep = true → inBlock s.rpt.toNat = true
  front : s.dix.toNat < 2 → s.cur.toNat = 8 * s.dix.toNat
  second : s.dix.toNat = 1 → s₀.mem.readByte 0 = some s₀.expClass
  buffer : SameBuffer s₀.mem s.mem
  unnamed : ∀ a ∉ namedSlots d s₀.params.maxsat.toNat, s.mem.slot? a = s₀.mem.slot? a

/-- How a decode over `d` that started at `s₀` has ended. -/
structure WalkEnd (d : Descriptor) (s₀ t : State) : Prop where
  mismatch : t.fault = 0 → t.status = .typeMismatch → TagDiffers s₀.mem s₀.expClass s₀.expId
  invalid : t.fault = 0 → t.status = .invalidMessage → .repb ∈ d
  unnamed : ∀ a ∉ namedSlots d s₀.params.maxsat.toNat, t.mem.slot? a = s₀.mem.slot? a

section
variable {d : Descriptor} {inBlock : Nat → Bool} {s₀ s : State}

theorem Walks.expClass_eq (h : Walks d inBlock s₀ s) : s.expClass = s₀.expClass := by
  unfold State.expClass
  rw [h.mt, h.params]

theorem Walks.expId_eq (h : Walks d inBlock s₀ s) : s.expId = s₀.expId := by
  unfold State.expId
  rw [h.mt, h.params]

theorem Walks.words_eq (h : Walks d inBlock s₀ s) : s.words = s₀.words := by
  unfold State.words
  rw [h.mt, h.params]

/-- The walk ends at a fault. -/
theorem Walks.end_raise (h : Walks d inBlock s₀ s) (c : Cause) : WalkEnd d s₀ (raise c s) where
  mismatch h0 := absurd h0 (raise_fault_ne_zero c s)
  invalid h0 := absurd h0 (raise_fault_ne_zero c s)
  unnamed := h.unnamed

/-- The walk ends with a status, which it has come to in a state with the same struct. -/
theorem Walks.end_finish (h : Walks d inBlock s₀ s) (hd : decodeLayout s₀.words = some d) {u : State} (st : Status)
    (hu : u.mem = s.mem ∧ u.mt = s.mt ∧ u.params = s.params)
    (hmismatch : st = .typeMismatch → TagDiffers s₀.mem s₀.expClass s₀.expId)
    (hinvalid : st = .invalidMessage → .repb ∈ d) : WalkEnd d s₀ (finish st u) where
  mismatch _ hst := hmismatch (by rwa [finish_status] at hst)
  invalid _ hst := hinvalid (by rwa [finish_status] at hst)
  unnamed a ha := by
    obtain ⟨hmem, hmt, hparams⟩ := hu
    have hdesc : u.descriptor = d := by
      have hwords : u.words = s₀.words := by
        rw [← h.words_eq, State.words, State.words, hmt, hparams]
      rw [State.descriptor, hwords, hd, Option.getD_some]
    rw [finish_slot?_unnamed, hmem, h.unnamed a ha]
    rwa [hdesc, hparams, h.params]

/-- The walk goes on past a field. -/
theorem Walks.field_next (h : Walks d inBlock s₀ s) (hmap : BlockMap d inBlock) {i : Instr}
    (hi : d[s.dix.toNat]? = some i) (hc : s.cur.toNat + i.width ≤ s.capBits) (he : Decodable s s.cur.toNat i) :
    Walks d inBlock s₀ (decOne i s) := by
  obtain ⟨hf, hreach, -, htagc, -⟩ := he
  obtain ⟨hlt, hmark, hout, hin⟩ := hmap.field _ i hi hf
  have hdix := dix_succ_toNat hlt
  have hbuf := h.buffer.trans (decOne_buffer i s)
  have hcur := decOne_cur hc
  have hslot := decOne_slot? i s
  rw [decOne_eq] at hbuf hcur hslot ⊢
  obtain ⟨a, b, rest, rfl, -⟩ := hmap.tags
  have first : (s.dix + 1).toNat < 2 → s.dix.toNat = 0 ∧ i = .tagc 7 a := fun h2 => by
    have h0 : s.dix.toNat = 0 := by omega
    rw [h0] at hi
    exact ⟨h0, (Option.some.inj hi).symm⟩
  refine ⟨h.running, h.dir, h.mt, h.params, ?_, h.rpt, fun h2 => ?_, fun h1 => ?_, hbuf, fun c hc => ?_⟩
  · exact h.inrep.trans (hmark.symm.trans (congrArg inBlock hdix.symm))
  · obtain ⟨h0, rfl⟩ := first h2
    rw [hcur, h.front (by omega)]
    show 8 * s.dix.toNat + 8 = 8 * (s.dix + 1).toNat
    omega
  · obtain ⟨h0, rfl⟩ := first (h1.trans_lt (by decide))
    have hread := htagc 7 a rfl
    rw [h.front (by omega), h0, h.expClass_eq, h.buffer.readField_eq] at hread
    exact Memory.readByte_of_readField_setWidth hread
  · rw [hslot c, if_neg, h.unnamed c hc]
    rintro ⟨hs, rfl⟩
    refine hc ?_
    rw [← h.params]
    exact slotAddress_mem_namedSlots hreach (fun hr => hout (h.inrep ▸ hr)) (fun hr => hin (h.inrep ▸ hr)) hs

/-- The walk goes on to an entry behind the tags, no memory written. -/
theorem Walks.jump (h : Walks d inBlock s₀ s) {t : State} (hmem : t.mem = s.mem) (hmt : t.mt = s.mt)
    (hparams : t.params = s.params) (hdir : t.dir = s.dir) (hrunning : t.running = s.running)
    (hdix : 2 ≤ t.dix.toNat) (hinrep : t.inrep = inBlock t.dix.toNat)
    (hrpt : t.inrep = true → inBlock t.rpt.toNat = true) : Walks d inBlock s₀ t where
  running := hrunning.trans h.running
  dir := hdir.trans h.dir
  mt := hmt.trans h.mt
  params := hparams.trans h.params
  inrep := hinrep
  rpt := hrpt
  front h2 := absurd hdix (by omega)
  second h1 := absurd hdix (by omega)
  buffer := hmem ▸ h.buffer
  unnamed := hmem ▸ h.unnamed

/-- A tag met on the walk is one of the first two entries; where it differs, the first two bytes are as 60 R122 has
them. -/
theorem Walks.tag_cases (h : Walks d inBlock s₀ s) (hmap : BlockMap d inBlock) {i : Instr}
    (hi : d[s.dix.toNat]? = some i) (ht : Descriptor.isTag i = true) :
    ∃ a expected, ((i = .tagc 7 a ∧ expected = s.expClass) ∨ (i = .tagi 7 a ∧ expected = s.expId)) ∧
      ∀ v, s.mem.readField 8 s.cur.toNat 0 = .ok v → v ≠ expected.setWidth 64 →
        TagDiffers s₀.mem s₀.expClass s₀.expId := by
  obtain ⟨a, b, rest, rfl, hrest⟩ := hmap.tags
  match hk : s.dix.toNat with
  | 0 =>
    rw [hk] at hi
    refine ⟨a, _, .inl ⟨(Option.some.inj hi).symm, rfl⟩, fun v hv hne => ?_⟩
    rw [h.buffer.readField_eq, h.front (by omega), hk] at hv
    obtain ⟨c, hc, hne⟩ := Memory.readByte_ne_of_readField hv hne
    exact ⟨c, hc, .inl (h.expClass_eq ▸ hne)⟩
  | 1 =>
    rw [hk] at hi
    refine ⟨b, _, .inr ⟨(Option.some.inj hi).symm, rfl⟩, fun v hv hne => ?_⟩
    rw [h.buffer.readField_eq, h.front (by omega), hk] at hv
    obtain ⟨c, hc, hne⟩ := Memory.readByte_ne_of_readField hv hne
    exact ⟨_, h.second hk, .inr ⟨c, hc, h.expId_eq ▸ hne⟩⟩
  | k + 2 =>
    rw [hk] at hi
    rw [hrest i (List.mem_of_getElem? hi)] at ht
    cases ht

/-- One field walked. -/
theorem Walks.field_step (h : Walks d inBlock s₀ s) (hmap : BlockMap d inBlock) (hd : decodeLayout s₀.words = some d)
    {i : Instr} {t : State} (hi : d[s.dix.toNat]? = some i) (hf : isField i = true) (hs : entryStep i s = .next t) :
    Walks d inBlock s₀ t ∨ (t.running = false ∧ WalkEnd d s₀ t) := by
  cases ht : Descriptor.isTag i with
  | false =>
    rcases entryStep_untagged_next hf ht h.dir hs with rfl | ⟨hc, he, rfl⟩
    · exact .inr ⟨rfl, h.end_raise _⟩
    · exact .inl (h.field_next hmap hi hc he)
  | true =>
    obtain ⟨a, expected, htag, hdiffers⟩ := h.tag_cases hmap hi ht
    rcases entryStep_tag_next htag h.dir hs with rfl | ⟨hc, he, rfl⟩ | ⟨v, hv, hne, rfl⟩
    · exact .inr ⟨rfl, h.end_raise _⟩
    · exact .inl (h.field_next hmap hi hc he)
    · exact .inr ⟨rfl, h.end_finish hd .typeMismatch ⟨rfl, rfl, rfl⟩ (fun _ => hdiffers v hv hne) nofun⟩

/-- REPB walked: it enters the block, skips it, or ends the decode. -/
theorem Walks.repb_step (h : Walks d inBlock s₀ s) (hmap : BlockMap d inBlock) (hd : decodeLayout s₀.words = some d)
    {t : State} (hi : d[s.dix.toNat]? = some .repb) (hs : execRepb s = .next t) :
    Walks d inBlock s₀ t ∨ (t.running = false ∧ WalkEnd d s₀ t) := by
  obtain ⟨hlt, hout, hin⟩ := hmap.repb _ hi
  rw [← dix_succ_toNat hlt] at hin
  rcases exec_repb_next hs with ⟨_, ⟨_, rfl⟩ | ⟨_, rfl⟩⟩ | ⟨_, k, hk, rfl⟩ | ⟨_, _, rfl⟩
  · exact .inr ⟨rfl, h.end_raise _⟩
  · exact .inr ⟨rfl, h.end_finish hd .invalidMessage ⟨rfl, rfl, rfl⟩ nofun fun _ => List.mem_of_getElem? hi⟩
  · have hrepe : d[k]? = some .repe := by
      rw [← decodeLayout_getElem? hd k, ← h.words_eq, (findIdx?_beq_eq_some_iff.1 hk).1]
      rfl
    obtain ⟨hklt, hkin, hkout⟩ := hmap.repe k hrepe
    have hdix : (BitVec.ofNat 6 (k + 1)).toNat = k + 1 := Nat.mod_eq_of_lt hklt
    have h2 := hmap.start k hkin
    refine .inl (h.jump rfl rfl rfl rfl rfl ?_ ?_ fun _ => hin)
    · show 2 ≤ (BitVec.ofNat 6 (k + 1)).toNat
      omega
    · show s.inrep = inBlock (BitVec.ofNat 6 (k + 1)).toNat
      rw [hdix, hkout, h.inrep, hout]
  · exact .inl (h.jump rfl rfl rfl rfl rfl (hmap.start _ hin) hin.symm fun _ => hin)

/-- REPE walked: it goes back to RPT or leaves the block. -/
theorem Walks.repe_step (h : Walks d inBlock s₀ s) (hmap : BlockMap d inBlock)
    (hi : d[s.dix.toNat]? = some .repe) : Walks d inBlock s₀ (afterRepe s) := by
  obtain ⟨hlt, hin, hout⟩ := hmap.repe _ hi
  have h2 := hmap.start _ hin
  have hrep : s.inrep = true := h.inrep.trans hin
  have hdix := dix_succ_toNat hlt
  unfold afterRepe
  split
  · exact h.jump rfl rfl rfl rfl rfl (hmap.start _ (h.rpt hrep)) (hrep.trans (h.rpt hrep).symm) h.rpt
  · refine h.jump rfl rfl rfl rfl rfl ?_ ?_ nofun
    · show 2 ≤ (s.dix + 1).toNat
      omega
    · show false = inBlock (s.dix + 1).toNat
      rw [hdix, hout]

/-- Every entry of the descriptor walked. -/
theorem Walks.step (h : Walks d inBlock s₀ s) (hmap : BlockMap d inBlock) (hd : decodeLayout s₀.words = some d)
    {i : Instr} {t : State} (hi : fetchEntry s = some i) (hs : entryStep i s = .next t) :
    Walks d inBlock s₀ t ∨ (t.running = false ∧ WalkEnd d s₀ t) := by
  rw [fetchEntry_eq (h.words_eq ▸ hd)] at hi
  by_cases hf : isField i = true
  · exact h.field_step hmap hd hi hf hs
  cases i <;> simp only [isField, not_true_eq_false] at hf
  case endDesc =>
    cases (exec_endDesc_dec h.dir).symm.trans hs
    exact .inr ⟨rfl, h.end_finish hd .ok ⟨rfl, rfl, rfl⟩ nofun nofun⟩
  case repb => exact h.repb_step hmap hd hi hs
  case repe =>
    cases (entryStep_repe s).symm.trans hs
    exact .inl (h.repe_step hmap hi)
  all_goals cases hs
end

/-- A decode that answers ends as `WalkEnd` says. -/
theorem Walks.microLoop_end {d : Descriptor} {inBlock : Nat → Bool} {s₀ : State} (hmap : BlockMap d inBlock)
    (hd : decodeLayout s₀.words = some d) : ∀ (n : Nat) {s t : State}, Walks d inBlock s₀ s →
    microLoop n s = .next t → WalkEnd d s₀ t := by
  intro n
  induction n with
  | zero => intro s t _ hs; cases hs
  | succ n ih =>
    intro s t h hs
    obtain ⟨i, u, hfetch, hi, hu⟩ := microLoop_succ_next hs
    rcases h.step hmap hd hfetch hi, hu with ⟨hw | ⟨hstop, hend⟩, ⟨hrun, hloop⟩ | ⟨hstop', rfl⟩⟩
    · exact ih hw hloop
    · rw [hw.running] at hstop'
      cases hstop'
    · rw [hstop] at hrun
      cases hrun
    · exact hend

end Sys2Proof.Machine
end

section
/-!
PROOFS. STATUS after a command (spec/60_exceptions.md R121 to R124): which commands change it, what its values tell of
the buffer, and what a decode that failed has left as it was.
-/

namespace Sys2Proof.Machine

open Sys2Proof

/-! ### TYPE_MISMATCH -/

/-- A decode starts its walk at the first entry. -/
theorem walks_startCommand {d : Descriptor} {inBlock : Nat → Bool} (hmap : BlockMap d inBlock) (mt : MsgType)
    (s : State) : Walks d inBlock (startCommand mt .dec s) (startCommand mt .dec s) where
  running := rfl
  dir := rfl
  mt := rfl
  params := rfl
  inrep := by
    cases h : inBlock 0 with
    | false => exact h.symm
    | true => exact absurd (hmap.start 0 h) (by decide)
  rpt := nofun
  front _ := rfl
  second := nofun
  buffer := .refl _
  unnamed _ _ := rfl

/-- A decode that answers has walked its descriptor, RAWX the one of 30 R54 and EPH an admissible one, to an end. -/
theorem exec_decode_walkEnd {i : Instr} {mt : MsgType} {s t : State} (hi : Runs i mt .dec) (h0 : s.fault = 0)
    (h : exec i s = .next t) :
    ∃ d, decodeLayout (startCommand mt .dec s).words = some d ∧ WalkEnd d (startCommand mt .dec s) t ∧
      (mt = .eph → d.ephOk s.params.maxsat.toNat = true) := by
  obtain ⟨hr, hok⟩ := runCommand_of_runs hi h0 h
  cases mt with
  | rawx =>
    have hd : decodeLayout (startCommand .rawx .dec s).words = some rawxEntries := decodeLayout_rawx
    exact ⟨_, hd, Walks.microLoop_end blockMap_rawx hd _ (walks_startCommand blockMap_rawx .rawx s) hr, nofun⟩
  | eph =>
    have hok := hok rfl
    unfold Params.ok at hok
    split at hok
    · rename_i d hd
      have hmap := blockMap_eph hok
      have hd : decodeLayout (startCommand .eph .dec s).words = some d := hd
      exact ⟨d, hd, Walks.microLoop_end hmap hd _ (walks_startCommand hmap .eph s) hr, fun _ => hok⟩
    · cases hok

/-- No command but the two decodes changes STATUS (60 R121). -/
theorem exec_status_of_not_decode {i : Instr} {s t : State} (hi : i.isCommand = true) (hrawx : i ≠ .decRawx)
    (heph : i ≠ .decEph) (h : exec i s = .next t) : t.status = s.status := by
  rcases exec_next h with ⟨hc, _⟩ | ⟨_, _, rfl⟩ | ⟨_, _, _, rfl⟩ | ⟨_, _, _, _, _, _, _, _, rfl⟩ |
    ⟨_, _, _, _, _, rfl⟩ | ⟨mt, dir, _, hr, hm, hd⟩
  · rw [hi] at hc
    cases hc
  · rfl
  · rfl
  · rfl
  · rfl
  · obtain rfl : dir = .enc := hd.2 (by simpa [hrawx, heph] using hm)
    refine (runCommand_induction (P := fun u => u.dir = .enc ∧ u.status = s.status) hr ⟨rfl, rfl⟩ ?_).1.2
    intro u v ⟨hdir, hstatus⟩ he
    refine ⟨(he.encode_slots hdir).2, ?_⟩
    cases he with
    | mismatch _ hdec | invalid hdec | finishedOk hdec => rw [hdir] at hdec; cases hdec
    | _ => exact hstatus

/-- Settles O36: a decode by the end of its walk, the other commands by their effects. -/
theorem typeMismatchIsDecidedByTheTags : Obligations.TypeMismatchIsDecidedByTheTags := by
  unfold Obligations.TypeMismatchIsDecidedByTheTags
  refine ⟨fun s t i cls idn hi h0 h hf hstatus => ?_, fun s t i => exec_status_of_not_decode⟩
  rcases hi with ⟨rfl, rfl, rfl⟩ | ⟨rfl, rfl, rfl⟩
  · obtain ⟨_, _, hend, _⟩ := exec_decode_walkEnd (mt := .rawx) (by simp [Runs]) h0 h
    exact hend.mismatch hf hstatus
  · obtain ⟨_, _, hend, _⟩ := exec_decode_walkEnd (mt := .eph) (by simp [Runs]) h0 h
    exact hend.mismatch hf hstatus

/-! ### What a decode that failed leaves -/

/-- A decode changes the memories, STATUS, FAULT and the sequencer alone. -/
theorem runCommand_decode_frame {mt : MsgType} {s t : State} (h : runCommand mt .dec s = .next t) :
    t = { s.sequencedAs t with
      mem := t.mem, status := t.status, freeCount := t.freeCount, fault := t.fault } := by
  refine (runCommand_induction (P := fun u => u.dir = .dec ∧ u = { s.sequencedAs u with
    mem := u.mem, status := u.status, freeCount := u.freeCount, fault := u.fault }) h ⟨rfl, rfl⟩ ?_).1.2
  intro u v ⟨hdir, hu⟩ he
  refine ⟨(he.decode_buffer hdir).2, ?_⟩
  rw [hu] at he
  cases he with
  | completed henc | put _ _ _ henc => rw [← hu, hdir] at henc; cases henc
  | _ => rfl

/-- A decode that has not faulted leaves BUF and every register the host sees but STATUS. -/
theorem exec_decode_frame {i : Instr} {mt : MsgType} {s t : State} (hi : Runs i mt .dec) (h0 : s.fault = 0)
    (h : exec i s = .next t) (hf : t.fault = 0) :
    SameBuffer s.mem t.mem ∧
      t = { s.sequencedAs t with mem := t.mem, status := t.status, freeCount := t.freeCount } := by
  have hr := (runCommand_of_runs hi h0 h).1
  refine ⟨(runCommand_keepsSource hr).buffer rfl, (runCommand_decode_frame hr).trans ?_⟩
  rw [hf, ← h0]
  rfl

/-- The slots the RAWX descriptor names (60 R124). -/
theorem namedSlots_rawx {maxsat a : Nat} (h : a ∈ namedSlots rawxEntries maxsat) :
    a < 8 ∨ ∃ i < maxsat, ∃ j < 13, a = recordAddress i j := by
  have hout : ∀ i ∈ rawxEntries.outside, ∀ b ∈ i.slot?, b < 8 := by decide
  have hin : ∀ i ∈ rawxEntries.inside, ∀ b ∈ i.slot?, b < 13 := by decide
  rcases mem_namedSlots_iff.1 h with ⟨i, hi, ha⟩ | ⟨r, hr, i, hi, b, hb, _, rfl⟩
  · exact .inl (hout i hi a ha)
  · exact .inr ⟨r, hr, b, hin i hi b hb, rfl⟩

/-- The slots an admissible EPH_LAYOUT names: those of its entries. -/
theorem namedSlots_eph {d : Descriptor} {maxsat a : Nat} (hok : d.ephOk maxsat = true)
    (h : a ∈ namedSlots d maxsat) : ∃ i ∈ d, i.slot? = some a := by
  obtain ⟨_, _, _, _, _, _, _, hout, hin⟩ := shape_of_ephOk hok
  rw [mem_namedSlots_iff, hout, hin] at h
  rcases h with h | ⟨_, _, _, hi, _⟩
  · exact h
  · cases hi

/-- Settles O39: the frame of the run, and the slots by the walk over the descriptor. -/
theorem failedDecodeKeepsTheRest : Obligations.FailedDecodeKeepsTheRest := by
  unfold Obligations.FailedDecodeKeepsTheRest
  refine fun s t => ⟨fun h h0 hf _ => ?_, fun d h h0 hf _ hd => ?_⟩
  · have hi : Runs .decRawx .rawx .dec := by simp [Runs]
    obtain ⟨hbuffer, hframe⟩ := exec_decode_frame hi h0 h hf
    obtain ⟨d, hd, hend, _⟩ := exec_decode_walkEnd hi h0 h
    obtain rfl : rawxEntries = d := Option.some.inj (decodeLayout_rawx.symm.trans hd)
    refine ⟨hbuffer, fun a h8 hrec => hend.unnamed a fun hnamed => ?_, hframe⟩
    rcases namedSlots_rawx hnamed with hlt | ⟨i, hi, j, hj, heq⟩
    · omega
    · exact hrec i hi j hj heq
  · have hi : Runs .decEph .eph .dec := by simp [Runs]
    obtain ⟨hbuffer, hframe⟩ := exec_decode_frame hi h0 h hf
    obtain ⟨d', hd', hend, hok⟩ := exec_decode_walkEnd hi h0 h
    obtain rfl : d = d' := Option.some.inj (hd.symm.trans hd')
    refine ⟨hbuffer, fun a hfree => hend.unnamed a fun hnamed => ?_, hframe⟩
    obtain ⟨i, hi, ha⟩ := namedSlots_eph (hok rfl) hnamed
    exact hfree i hi ha

/-! ### COUNT and INVALID_MESSAGE -/

/-- ENC_RAWX of a struct whose scalar slots hold values, with room for the header, is the loop from REPB, with the count
latched and the header written. -/
theorem exec_encRawx_head {s : State} {c : Slot} (h0 : s.fault = 0) (h5 : s.mem.slot? 5 = some c)
    (hw : ∀ k < 8, (s.mem.slot? k).isSome) (hcap : 140 ≤ s.capBits) :
    ∃ u, exec .encRawx s = microLoop (2 + 15 * s.params.maxsat.toNat + 1) u ∧ u.dix = 9 ∧ u.cnt = c ∧
      u.mem.slots = s.mem.slots ∧ SameOutside s.mem u.mem 0 140 ∧
      (∀ f ∈ rawxHeader, ∀ v, s.mem.slot? f.slot = some v → FieldHolds u.mem f.bit f.width v) ∧
      FieldHolds u.mem 136 4 0 ∧
      u = { startCommand .rawx .enc s with mem := u.mem, cur := u.cur, dix := u.dix, cnt := u.cnt } := by
  obtain ⟨u, hloop, hdix, _, hcnt, hslots, hframe, hfields, heq⟩ := encode_head (s := startCommand .rawx .enc s)
    (2 + 15 * s.params.maxsat.toNat + 1) rfl rfl rfl rfl rfl rfl hw h5 hcap
  refine ⟨u, ?_, hdix, hcnt, hslots, hframe, fun f hf v hv => ?_, ?_, heq⟩
  · rw [exec_rawx (mt := .rawx) (dir := .enc) s h0 (by decide), ← hloop]
    congr 1
    omega
  · obtain ⟨p, hp, hbit, hwidth, _, hslot⟩ := rawxHead_table f hf
    have hvalue : fieldValue (startCommand .rawx .enc s) p.2 = v :=
      fieldValue_of_slot (by rw [hslot]; rfl) (by rw [slotAddress_of_scalar rfl hslot]; exact hv)
    rw [← hbit, ← hwidth, ← hvalue]
    exact hfields p hp
  · exact hfields (136, .rsv 3) (by decide)

/-- Settles O33: the header is encoded, and REPB raises COUNT. -/
theorem encRawxCountFault : Obligations.EncRawxCountFault := by
  unfold Obligations.EncRawxCountFault
  intro s n h0 h5 hover hw hcap
  obtain ⟨u, hexec, hdix, hcnt, hslots, hframe, hheader, hreserved, heq⟩ := exec_encRawx_head h0 h5 hw hcap
  have hdir : u.dir = .enc := by rw [heq]; rfl
  have hfault : u.fault = 0 := by rw [heq]; exact h0
  have hover' : u.params.maxsat.toNat < u.cnt.toNat := by rw [hcnt, heq]; exact hover
  refine ⟨raise .count u, ?_, ?_, hheader, hreserved, hframe, hslots, ?_, rfl⟩
  · rw [hexec, repb_over _ (by rw [heq]; rfl) hdix hover', hdir]
  · rw [raise_fault, hfault]
    rfl
  · rw [heq]
    rfl

/-- The bits of the header's fields hold values, those of its reserved field aside (42 R104). -/
theorem rawxHead_written {m : Memory} (h : ∀ f ∈ rawxHeader, BitsWritten m f.bit (f.bit + f.width)) :
    ∀ p ∈ placed 0 rawxHead, p.2.slot?.isSome → BitsWritten m p.1 (p.1 + p.2.width) := by
  have htable : ∀ p ∈ placed 0 rawxHead, p.2.slot?.isSome →
      ∃ f ∈ rawxHeader, f.bit = p.1 ∧ f.width = p.2.width := by decide
  intro p hp hs
  obtain ⟨f, hf, hbit, hwidth⟩ := htable p hp hs
  rw [← hbit, ← hwidth]
  exact h f hf

/-- What a DEC_RAWX of matching first bytes and a count byte above MAXSAT ends with: INVALID_MESSAGE where the header
fits, else BOUNDS (60 R123). -/
theorem exec_decRawx_over {s : State} {c : Slot} (h0 : s.fault = 0)
    (hcls : FieldHolds s.mem 0 8 (s.params.rawxClass.setWidth 64))
    (hid : FieldHolds s.mem 8 8 (s.params.rawxId.setWidth 64)) (hcnt : FieldHolds s.mem 112 8 c)
    (hc : c.toNat < 2 ^ 8) (hover : s.params.maxsat.toNat < c.toNat)
    (hw : ∀ f ∈ rawxHeader, BitsWritten s.mem f.bit (f.bit + f.width)) :
    (140 ≤ s.capBits → Answers (exec .decRawx s) fun t => t.status = .invalidMessage ∧ t.fault = 0) ∧
    (s.capBits < 140 → Answers (exec .decRawx s) fun t => t.status = s.status ∧ t.fault = 0x2) := by
  have hcls' := Memory.readField_eq (by decide) (toNat_setWidth_byte_lt _) hcls
  have hid' := Memory.readField_eq (by decide) (toNat_setWidth_byte_lt _) hid
  have hcnt' := Memory.readField_eq (by decide) hc hcnt
  have hexec : exec .decRawx s =
      microLoop (2 + 15 * s.params.maxsat.toNat + 1 + 9) (startCommand .rawx .dec s) := by
    rw [exec_rawx (mt := .rawx) (dir := .dec) s h0 (by decide)]
    congr 1
    omega
  constructor <;> intro hcap
  · obtain ⟨u, hloop, hdix, _, hucnt, _, _, _, heq⟩ := decode_head (s := startCommand .rawx .dec s)
      (2 + 15 * s.params.maxsat.toNat + 1) rfl rfl rfl rfl rfl rfl (rawxHead_written hw) hcls' hid' hcnt' hcap
    have hdir : u.dir = .dec := by rw [heq]; rfl
    have hfault : u.fault = 0 := by rw [heq]; exact h0
    have hover' : u.params.maxsat.toNat < u.cnt.toNat := by rw [hucnt, heq]; exact hover
    refine ⟨finish .invalidMessage u, ?_, finish_status .., (finish_fault ..).trans hfault⟩
    rw [hexec, hloop, repb_over _ (by rw [heq]; rfl) hdix hover', hdir]
  · obtain ⟨t, ht, hfault, _⟩ := decode_head_bounds (s := startCommand .rawx .dec s)
      (2 + 15 * s.params.maxsat.toNat + 1) rfl rfl rfl rfl rfl rfl (fun p hp hs _ => rawxHead_written hw p hp hs)
      (fun _ => hcls') (fun _ => hid') hcap
    rw [← hexec] at ht
    rw [startCommand_fault, h0] at hfault
    have hne : t.fault ≠ 0 := by rw [hfault]; decide
    exact ⟨t, ht, (exec_faulted_keeps rfl ht hne).1, hfault⟩

/-- A DEC_RAWX that has ended with INVALID_MESSAGE has read a header that fits, with matching tags and a count byte above
MAXSAT (60 R123). -/
theorem exec_decRawx_invalid {s t : State} (h0 : s.fault = 0) (h : exec .decRawx s = .next t) (hf : t.fault = 0)
    (hstatus : t.status = .invalidMessage) :
    s.mem.readByte 0 = some s.params.rawxClass ∧ s.mem.readByte 1 = some s.params.rawxId ∧ 140 ≤ s.capBits ∧
      ∃ c : Byte, s.mem.readByte 14 = some c ∧ s.params.maxsat.toNat < c.toNat := by
  have hn : 12 + 15 * s.params.maxsat.toNat = 3 + 15 * s.params.maxsat.toNat + rawxHead.length := by
    show _ = _ + 9
    omega
  rw [exec_rawx (mt := .rawx) (dir := .dec) s h0 (by decide), hn] at h
  rcases microLoop_decode_next (d := rawxEntries) (y := .repb) (ys := rawxBody ++ [.repe, .endDesc]) (by decide)
    rawxHead (s := startCommand .rawx .dec s) _ decodeLayout_rawx rfl rfl rfl rawxHead_isField h with
    ⟨zs, rfl⟩ | ⟨zs, w, rfl⟩ | ⟨hcap, hdec, _⟩
  · exact absurd hf (raise_fault_ne_zero _ _)
  · rw [finish_status] at hstatus
    cases hstatus
  have hcap : 140 ≤ s.capBits := by
    rw [rawxHead_width, startCommand_cur, startCommand_capBits] at hcap
    have hzero : (0 : BitVec 32).toNat = 0 := rfl
    omega
  have hdec : ∀ p ∈ placed 0 rawxHead, Decodable (startCommand .rawx .dec s) p.1 p.2 := hdec
  have hwritten : ∀ p ∈ placed 0 rawxHead, p.2.slot?.isSome → BitsWritten s.mem p.1 (p.1 + p.2.width) :=
    fun p hp hs => by
      obtain ⟨_, _, hw, _⟩ := hdec p hp
      exact hw hs
  obtain ⟨_, _, _, hcls, _⟩ := hdec (0, .tagc 7 0) (by decide)
  obtain ⟨_, _, _, _, hid⟩ := hdec (8, .tagi 7 1) (by decide)
  obtain ⟨v, hv⟩ := readField_of_bitsWritten (hwritten (112, .cntf 7 5) (by decide) rfl)
  have hcls := hcls 7 0 rfl
  have hid := hid 7 1 rfl
  obtain ⟨u, hloop, hdix, _, hucnt, _, _, _, heq⟩ := decode_head (s := startCommand .rawx .dec s)
    (3 + 15 * s.params.maxsat.toNat) rfl rfl rfl rfl rfl rfl hwritten hcls hid hv hcap
  refine ⟨Memory.readByte_of_readField_setWidth hcls, Memory.readByte_of_readField_setWidth hid, hcap,
    v.setWidth 8, Memory.readByte_of_readField (a := 14) hv, ?_⟩
  have hv8 : (v.setWidth 8).toNat = v.toNat := by
    rw [BitVec.toNat_setWidth]
    exact Nat.mod_eq_of_lt (Memory.readField_lt hv)
  rw [hv8]
  by_contra hmax
  have hdix' : u.dix.toNat = 9 := by rw [hdix]; rfl
  have hcnt : u.cnt.toNat ≤ u.params.maxsat.toNat := by rw [hucnt, heq]; exact not_lt.1 hmax
  refine (decode_tail_valid _ (hloop.symm.trans h) (by rw [heq]; rfl) (by rw [heq]; rfl) (by rw [heq]; rfl)
    (by omega) (by omega) (.inl hdix') hcnt).elim (absurd hf) (absurd hstatus)

/-- DEC_EPH answers a state with INVALID_MESSAGE only where it leaves the old status, in a halted block (60 R123). -/
theorem exec_decEph_invalid {s t : State} (h : exec .decEph s = .next t) (hstatus : t.status = .invalidMessage) :
    s.status = .invalidMessage ∧ t.fault ≠ 0 := by
  have hfault : t.fault ≠ 0 := by
    intro hf
    by_cases h0 : s.fault = 0
    · obtain ⟨d, _, hend, hok⟩ := exec_decode_walkEnd (mt := .eph) (by simp [Runs]) h0 h
      obtain ⟨k, hk⟩ := List.getElem?_of_mem (hend.invalid hf hstatus)
      obtain ⟨_, _, hmark⟩ := (blockMap_eph (hok rfl)).repb k hk
      cases hmark
    · cases (exec_of_halted rfl h0).symm.trans h
      exact h0 hf
  exact ⟨(exec_faulted_keeps rfl h hfault).1 ▸ hstatus, hfault⟩

/-- Settles O38: REPB decides behind the header, forwards and backwards; DEC_EPH meets no REPB. -/
theorem countAboveCapacityIsInvalid : Obligations.CountAboveCapacityIsInvalid := by
  unfold Obligations.CountAboveCapacityIsInvalid
  refine ⟨fun s n h0 hcls hid hcnt hn hover hw => ?_, fun s t => exec_decRawx_invalid, fun s t => exec_decEph_invalid,
    fun s t i => exec_status_of_not_decode⟩
  have hn' : (BitVec.ofNat 64 n).toNat = n := Nat.mod_eq_of_lt (by omega)
  exact exec_decRawx_over h0 hcls hid hcnt (by omega) (by omega) hw

end Sys2Proof.Machine
end

section
/-!
PROOFS. Reset and the idle block (spec/70_reset_and_hazards.md): what reset sets and what it leaves (R140), and what the
block does with nothing to do and with a capacity of 0 (R141).
-/

namespace Sys2Proof.Machine

open Sys2Proof

/-! ### Reset -/

/-- 70 R140: after reset the host reads what it reads after power-up. -/
theorem readReg_resetRegisters (s : State) (addr : Nat) : readReg (resetRegisters s) addr = 0 :=
  readReg_powerUp addr

/-- A step that takes no reset off the list clears no bit of FAULT: a halted block keeps it (60 R132), and any other has
no bit to clear. -/
theorem step_fault_kept {s t : State} (h : step s = .next t) (hreset : ∀ rest, s.pending ≠ .reset :: rest) :
    s.fault &&& t.fault = s.fault := by
  by_cases h0 : s.fault = 0
  · rw [h0]
    exact BitVec.zero_and
  · rw [step_fault_of_halted h0 hreset h]
    exact BitVec.and_self

/-- Settles O53: the step that takes the reset off the list, and every other step by whether the block is halted. -/
theorem resetClearsTheRegisters : Obligations.ResetClearsTheRegisters := by
  unfold Obligations.ResetClearsTheRegisters
  refine ⟨fun s rest hp hr => ?_, fun s t => step_fault_kept⟩
  exact ⟨resetRegisters { s with pending := rest }, step_of_action hr hp, readReg_resetRegisters _, rfl, rfl, rfl,
    rfl, rfl, rfl, rfl, rfl, rfl, rfl, rfl, rfl⟩

/-! ### The idle block -/

/-- 70 R141: with no action of the host to come the block waits. -/
theorem step_waits {s : State} (hr : s.running = false) (hp : s.pending = []) : step s = .next s := by
  rw [step_of_idle hr, stepHost, hp]

/-! ### A message command that stops at its first entry -/

theorem exists_runs {i : Instr} (hi : i ∈ [Instr.encRawx, .decRawx, .encEph, .decEph]) : ∃ mt dir, Runs i mt dir := by
  simp only [List.mem_cons, List.not_mem_nil, or_false] at hi
  rcases hi with rfl | rfl | rfl | rfl
  · exact ⟨.rawx, .enc, by simp [Runs]⟩
  · exact ⟨.rawx, .dec, by simp [Runs]⟩
  · exact ⟨.eph, .enc, by simp [Runs]⟩
  · exact ⟨.eph, .dec, by simp [Runs]⟩

/-- The first entry of a message is its class tag, one byte wide (30 R52, R54). -/
theorem fetchEntry_startCommand {mt : MsgType} (dir : Direction) {s : State} (hok : mt = .eph → s.params.ok = true) :
    ∃ slot, fetchEntry (startCommand mt dir s) = some (.tagc 7 slot) := by
  cases mt with
  | rawx => exact ⟨_, fetchEntry_of_drop decodeLayout_rawx rfl⟩
  | eph =>
    have hok := hok rfl
    unfold Params.ok at hok
    split at hok
    · rename_i d hd
      obtain ⟨_, rfl, _, _, _, _, ⟨a, b, rest, rfl, _⟩, _⟩ := shape_of_ephOk hok
      exact ⟨a, fetchEntry_of_drop hd rfl⟩
    · cases hok

/-- A command whose first field does not fit the capacity raises BOUNDS there, before any access (41 R82, R91). -/
theorem runCommand_first_exceeds {mt : MsgType} {dir : Direction} {s : State} {i : Instr}
    (hfetch : fetchEntry (startCommand mt dir s) = some i) (hf : isField i = true) (hc : s.capBits < i.width) :
    runCommand mt dir s = .next (raise .bounds (startCommand mt dir s)) :=
  microLoop_last hfetch (entryStep_exceeds hf (by simpa using hc)) rfl

/-- A message command with no capacity starts the sequencer and raises BOUNDS, nothing else. -/
theorem exec_message_zero_capacity {i : Instr} (hi : i ∈ [Instr.encRawx, .decRawx, .encEph, .decEph]) {s : State}
    (h0 : s.fault = 0) (hc : s.capBits = 0) (hok : s.params.ok = true) :
    ∃ mt dir, exec i s = .next (raise .bounds (startCommand mt dir s)) := by
  obtain ⟨mt, dir, hi⟩ := exists_runs hi
  obtain ⟨slot, hfetch⟩ := fetchEntry_startCommand dir fun _ : mt = .eph => hok
  refine ⟨mt, dir, (exec_of_runs hi h0 fun _ => hok).trans (runCommand_first_exceeds hfetch rfl ?_)⟩
  rw [hc]
  exact Nat.succ_pos _

/-- Settles O54: the waiting step; with no capacity the operand check of a primitive and the first tag of a message. -/
theorem zeroCapacityFaults : Obligations.ZeroCapacityFaults := by
  unfold Obligations.ZeroCapacityFaults
  refine ⟨fun s => step_waits, rfl, rfl, fun s h0 hcap => ?_⟩
  have hc : s.capBits = 0 := by rw [State.capBits, hcap]; rfl
  refine ⟨fun pos len val h1 h64 i hi => ?_, fun hok i hi => ?_⟩
  · obtain ⟨k, hk⟩ := exec_primitive hi s
    rw [hk, withOperands_of_exceeds h0 h1 h64 (by omega), raise_of_ok h0, Cause.mask]
  · obtain ⟨mt, dir, hexec⟩ := exec_message_zero_capacity hi h0 hc hok
    rw [raise_of_ok (s := startCommand mt dir s) h0] at hexec
    exact ⟨_, hexec, rfl, rfl, rfl⟩

end Sys2Proof.Machine
end

section
/-!
PROOFS. The round trip between instructions and their words (spec/30_encoding.md R46 to R51): each way, and what it says
of the operands. The words of spec/95_test_vectors.md section 2 are decoded one by one.
-/

namespace Sys2Proof.Machine

open Sys2Proof

/-- An assembled word decodes by the fields it was assembled from, and those of an instruction's own word give the
instruction back. -/
theorem decode_encode (i : Instr) : decode (encode i) = .ok i := by
  cases i with
  | setu pos len val => exact decodeCommand_commandWord 0x1 (by decide) len pos val
  | sets pos len val => exact decodeCommand_commandWord 0x2 (by decide) len pos val
  | getu pos len => exact decodeCommand_commandWord 0x3 (by decide) len pos 0
  | gets pos len => exact decodeCommand_commandWord 0x4 (by decide) len pos 0
  | encRawx => exact decodeCommand_commandWord 0x8 (by decide) 0 0 0
  | decRawx => exact decodeCommand_commandWord 0x9 (by decide) 0 0 0
  | encEph => exact decodeCommand_commandWord 0xA (by decide) 0 0 0
  | decEph => exact decodeCommand_commandWord 0xB (by decide) 0 0 0
  | endDesc => exact decodeEntry_entryWord 0 (by decide) false 0 0
  | fld sgn wm1 slot => exact decodeEntry_entryWord 1 (by decide) sgn wm1 slot
  | rsv wm1 => exact decodeEntry_entryWord 2 (by decide) false wm1 0
  | tagc wm1 slot => exact decodeEntry_entryWord 3 (by decide) false wm1 slot
  | tagi wm1 slot => exact decodeEntry_entryWord 4 (by decide) false wm1 slot
  | cntf wm1 slot => exact decodeEntry_entryWord 5 (by decide) false wm1 slot
  | repb => exact decodeEntry_entryWord 6 (by decide) false 0 0
  | repe => exact decodeEntry_entryWord 7 (by decide) false 0 0

/-- Settles O1: one constructor after the other. -/
theorem decodeOfEncodeIsTheInstruction : Obligations.DecodeOfEncodeIsTheInstruction := by
  unfold Obligations.DecodeOfEncodeIsTheInstruction
  exact decode_encode

/-- Settles O2: a command word is assembled from its fields because its ZERO field is 0, an entry word in any case, and
the fields that the instruction does not use are 0. -/
theorem encodeOfDecodeIsTheWord : Obligations.EncodeOfDecodeIsTheWord := by
  unfold Obligations.EncodeOfDecodeIsTheWord
  intro c i h
  cases c with
  | command w => exact encode_of_decodeCommand h
  | entry w => exact encode_of_decodeEntry h

/-- The fields of a word that decodes to an instruction are those that the instruction's word is assembled from. -/
theorem fields_of_decodeCommand {w : CommandWord} {i : Instr} {op : Nat} {len : BitVec 8} {pos : BitVec 32} {val : Slot}
    (h : decodeCommand w = .ok i) (hi : encode i = .command (commandWord op len pos val)) (ho : op < 16) :
    pos = w.extractLsb' 64 32 ∧ len = w.extractLsb' 96 8 ∧ val = w.extractLsb' 0 64 := by
  obtain rfl : commandWord op len pos val = w := Code.command.inj (hi.symm.trans (encode_of_decodeCommand h))
  obtain ⟨-, -, hlen, hpos, hval⟩ := commandWord_fields op ho len pos val
  exact ⟨hpos.symm, hlen.symm, hval.symm⟩

/-- Settles O5: the word is the one assembled from the operands, GETU's and GETS's with VAL 0. -/
theorem operandsAreTheWordsFields : Obligations.OperandsAreTheWordsFields := by
  unfold Obligations.OperandsAreTheWordsFields
  refine fun w pos len val => ⟨fun h => ?_, fun h => ?_⟩
  · rcases h with h | h <;> exact fields_of_decodeCommand h rfl (by decide)
  · have hfields : pos = w.extractLsb' 64 32 ∧ len = w.extractLsb' 96 8 ∧ 0 = w.extractLsb' 0 64 := by
      rcases h with h | h <;> exact fields_of_decodeCommand h rfl (by decide)
    exact ⟨hfields.1, hfields.2.1, hfields.2.2.symm⟩

/-- Settles O6: the legal and the illegal words of each kind are decoded. -/
theorem writtenOutWordsDecode : Obligations.WrittenOutWordsDecode := by
  unfold Obligations.WrittenOutWordsDecode
  exact ⟨by decide, by decide, by decide, by decide⟩

end Sys2Proof.Machine
end

section
/-!
PROOFS. The invariant of the machine (spec/60_exceptions.md R132, spec/41_sequencer_ops.md R91): each micro-step, each
instruction and each action of the host keeps it, and the parameters.
-/

namespace Sys2Proof.Machine

open Sys2Proof

/-! ### What an instruction keeps of the host's side -/

theorem MicroEffect.sameHostSide {s t : State} (h : MicroEffect s t) : SameHostSide s t := by
  cases h <;> simp [SameHostSide]

theorem runCommand_sameHostSide {mt : MsgType} {dir : Direction} {s t : State} (h : runCommand mt dir s = .next t) :
    SameHostSide s t :=
  (runCommand_induction (P := SameHostSide s) h ⟨rfl, rfl, rfl⟩ fun _ _ ⟨hp, hc, ha⟩ he =>
    have ⟨hp', hc', ha'⟩ := he.sameHostSide
    ⟨hp'.trans hp, hc'.trans hc, ha'.trans ha⟩).1

/-- No instruction writes CAP or the parameters, or takes an action off the host's list. -/
theorem exec_sameHostSide {i : Instr} {s t : State} (h : exec i s = .next t) : SameHostSide s t := by
  rcases exec_next h with ⟨_, he⟩ | ⟨_, _, rfl⟩ | ⟨_, _, _, rfl⟩ | ⟨_, _, _, _, _, _, _, _, rfl⟩ |
    ⟨_, _, _, _, _, rfl⟩ | ⟨_, _, _, hr, _⟩
  · exact he.sameHostSide
  · exact ⟨rfl, rfl, rfl⟩
  · exact ⟨rfl, rfl, rfl⟩
  · exact ⟨rfl, rfl, rfl⟩
  · exact ⟨rfl, rfl, rfl⟩
  · exact runCommand_sameHostSide hr

/-! ### A micro-step of a command in progress -/

/-- Every listed slot is one that exists (10 R12). -/
def SlotsExist (p : Params) (m : Memory) : Prop :=
  ∀ a v, m.slot? a = some v → a < recordAddress p.maxsat.toNat 0

theorem SlotsExist.setSlot {p : Params} {m : Memory} (h : SlotsExist p m) {a : Nat}
    (ha : a < recordAddress p.maxsat.toNat 0) (v : Slot) : SlotsExist p (m.setSlot a v) := by
  intro b u hb
  rw [Memory.slot?_setSlot] at hb
  split at hb
  · rwa [‹b = a›]
  · exact h b u hb

theorem SlotsExist.scramble {p : Params} {m : Memory} (h : SlotsExist p m) (n : Nat) (d : Descriptor) :
    SlotsExist p (m.scramble n (namedSlots d p.maxsat.toNat)) := by
  intro b u hb
  rw [Memory.slot?_scramble] at hb
  split at hb
  · exact namedSlots_lt ‹_›
  · exact h b u hb

/-- Ending a decode keeps the two memories in order. -/
theorem finish_mem_ok {s : State} (st : Status) (hwf : s.mem.wf = true) (hslots : SlotsExist s.params s.mem) :
    (finish st s).mem.wf = true ∧ SlotsExist s.params (finish st s).mem := by
  cases st with
  | ok => exact ⟨hwf, hslots⟩
  | typeMismatch | invalidMessage => exact ⟨Memory.wf_scramble _ _ hwf, hslots.scramble _ _⟩

/-- The cause raised in a block that is not halted is the only bit of FAULT. -/
theorem raise_faultSingle {s : State} (h0 : s.fault = 0) (c : Cause) : (raise c s).faultSingle = true := by
  rw [raise_of_ok h0]
  cases c <;> rfl

theorem faultSingle_of_ok {s : State} (h0 : s.fault = 0) : s.faultSingle = true := by
  rw [State.faultSingle, h0]
  rfl

/-- The last byte of a field that fits the capacity is one that CAP can reach. -/
theorem capBits_le (s : State) : s.capBits ≤ 8 * (2 ^ 29 - 1) := by
  have := s.cap.isLt
  unfold State.capBits
  omega

/-- The invariant while a command is in progress. -/
theorem inv_of_running {s : State} (hwf : s.mem.wf = true) (hslots : SlotsExist s.params s.mem) (h0 : s.fault = 0)
    (hc : s.cur.toNat ≤ s.capBits) : s.Inv := ⟨hwf, hslots, faultSingle_of_ok h0, fun _ => ⟨h0, hc⟩⟩

/-- The invariant of a block with no command in progress. -/
theorem inv_of_idle {s : State} (hwf : s.mem.wf = true) (hslots : SlotsExist s.params s.mem)
    (hf : s.faultSingle = true) (hr : s.running = false) : s.Inv :=
  ⟨hwf, hslots, hf, fun h => absurd h (by rw [hr]; exact Bool.false_ne_true)⟩

theorem MicroEffect.inv {s t : State} (h : MicroEffect s t) (hi : s.Inv) (hr : s.running = true) : t.Inv := by
  obtain ⟨hwf, hslots, hf, hrun⟩ := hi
  obtain ⟨h0, hc⟩ := hrun hr
  have hfinish {u : State} (st : Status) (hu : u.mem = s.mem ∧ u.params = s.params ∧ u.fault = s.fault) :
      (finish st u).Inv := by
    obtain ⟨hmem, hparams, hfault⟩ := hu
    obtain ⟨hwf', hslots'⟩ := finish_mem_ok (s := u) st (hmem ▸ hwf) (hmem ▸ hparams ▸ hslots)
    refine inv_of_idle hwf' (by rwa [finish_params]) (faultSingle_of_ok ?_) (finish_running ..)
    rw [finish_fault, hfault, h0]
  cases h with
  | raised c => exact inv_of_idle hwf hslots (raise_faultSingle h0 c) rfl
  | completed => exact inv_of_idle hwf hslots hf rfl
  | finishedOk => exact hfinish .ok ⟨rfl, rfl, rfl⟩
  | mismatch w => exact hfinish (u := consume w s) .typeMismatch ⟨rfl, rfl, rfl⟩
  | invalid => exact hfinish .invalidMessage ⟨rfl, rfl, rfl⟩
  | put w v c hd h1 h64 hfit =>
    have hwf' := Memory.wf_writeField hwf v (hfit.trans (capBits_le s))
    refine inv_of_running hwf' (fun a u ha => hslots a u ?_) h0 ?_
    · rwa [← Memory.slot?_writeField s.mem v w s.cur.toNat a]
    · exact (putField_cur_toNat hfit).trans_le hfit
  | skipped w hd hfit => exact inv_of_running hwf hslots h0 ((advance_cur_toNat hfit).trans_le hfit)
  | stored w a v c hd hfit ha =>
    exact inv_of_running (Memory.wf_setSlot hwf a v) (SlotsExist.setSlot hslots ha v) h0 ((advance_cur_toNat hfit).trans_le hfit)
  | moved => exact inv_of_running hwf hslots h0 hc

/-! ### A message command -/

theorem startCommand_inv {s : State} (hi : s.Inv) (h0 : s.fault = 0) (mt : MsgType) (dir : Direction) :
    (startCommand mt dir s).Inv := by
  obtain ⟨hwf, hslots, -, -⟩ := hi
  exact inv_of_running (s := startCommand mt dir s) hwf hslots h0 (Nat.zero_le _)

theorem microLoop_inv : ∀ (n : Nat) {s t : State}, s.Inv → s.running = true → microLoop n s = .next t → t.Inv := by
  intro n
  induction n with
  | zero => intro s t _ _ h; cases h
  | succ n ih =>
    intro s t hi hr h
    obtain ⟨i, u, _, hstep, hrest⟩ := microLoop_succ_next h
    have hu := (entryStep_effect hstep).inv hi hr
    rcases hrest with ⟨hru, hloop⟩ | ⟨_, rfl⟩
    · exact ih hu hru hloop
    · exact hu

/-- A command of the host keeps the invariant of the idle block. -/
theorem exec_command_inv {i : Instr} {s t : State} (hc : i.isCommand = true) (hi : s.Inv) (hr : s.running = false)
    (h : exec i s = .next t) : t.Inv := by
  have ⟨hwf, hslots, hf, _⟩ := hi
  rcases exec_next h with ⟨hc', _⟩ | ⟨_, _, rfl⟩ | ⟨c, _, h0, rfl⟩ | ⟨p, l, v, _, _, _, _, hfit, rfl⟩ |
    ⟨_, _, v, _, _, rfl⟩ | ⟨mt, dir, h0, hrun, _⟩
  · rw [hc] at hc'
    cases hc'
  · exact hi
  · exact inv_of_idle hwf hslots (raise_faultSingle h0 c) rfl
  · have hwf' := Memory.wf_writeField hwf v (hfit.trans (capBits_le s))
    refine inv_of_idle hwf' (fun a u ha => hslots a u ?_) hf hr
    rwa [← Memory.slot?_writeField s.mem v l.toNat p.toNat a]
  · exact inv_of_idle hwf hslots hf hr
  · exact microLoop_inv _ (startCommand_inv hi h0 mt dir) rfl hrun

/-! ### A step -/

/-- What a host action does to the idle block keeps the invariant. -/
theorem perform_inv {a : HostAction} {s t : State} (hi : s.Inv) (hr : s.running = false) (h : perform a s = .next t) :
    t.Inv := by
  have ⟨hwf, hslots, hf, _⟩ := hi
  cases a with
  | command w =>
    simp only [perform, issue] at h
    cases hw : decodeCommand w with
    | ok i =>
      rw [hw] at h
      exact exec_command_inv (isCommand_of_decodeCommand hw) hi hr h
    | error e =>
      rw [hw] at h
      rcases unlessHalted_next h with ⟨_, rfl⟩ | ⟨h0, h⟩
      · exact hi
      · cases h
        exact inv_of_idle hwf hslots (raise_faultSingle h0 _) rfl
  | writeReg addr v =>
    cases h
    refine inv_of_idle ?_ ?_ ?_ ?_
    · rwa [writeReg_mem]
    · rwa [writeReg_params, writeReg_mem]
    · rwa [State.faultSingle, writeReg_fault]
    · rwa [writeReg_running]
  | writeBuf b x =>
    simp only [perform] at h
    split at h <;> cases h
    refine inv_of_idle (Memory.wf_setByte hwf ‹_› _ _) (fun c v hc => hslots c v ?_) hf hr
    rwa [Memory.slot?, Memory.slots_setByte] at hc
  | writeFld b v =>
    simp only [perform] at h
    split at h <;> cases h
    exact inv_of_idle (Memory.wf_setSlot hwf b v) (SlotsExist.setSlot hslots ‹_› v) hf hr
  | reset =>
    cases h
    exact inv_of_idle hwf hslots rfl rfl

theorem perform_params {a : HostAction} {s t : State} (h : perform a s = .next t) : t.params = s.params := by
  cases a with
  | command w =>
    simp only [perform, issue] at h
    cases hw : decodeCommand w with
    | ok i =>
      rw [hw] at h
      exact (exec_sameHostSide h).1
    | error e =>
      rw [hw] at h
      rcases unlessHalted_next h with ⟨_, rfl⟩ | ⟨_, h⟩ <;> [rfl; (cases h; rfl)]
  | writeReg addr v =>
    cases h
    exact writeReg_params addr v s
  | writeBuf b x =>
    simp only [perform] at h
    split at h <;> cases h
    rfl
  | writeFld b v =>
    simp only [perform] at h
    split at h <;> cases h
    rfl
  | reset =>
    cases h
    rfl

/-- What a step that answers is: a micro-step of a command in progress, a wait, or the host's next action. -/
theorem step_next {s t : State} (h : step s = .next t) :
    (s.running = true ∧ s.fault = 0 ∧ MicroEffect s t) ∨
    ((s.running = false ∨ s.fault ≠ 0) ∧
      (t = s ∨ ∃ a rest, s.pending = a :: rest ∧ perform a { s with pending := rest } = .next t)) := by
  by_cases hrun : s.running = true ∧ s.fault = 0
  · obtain ⟨hr, h0⟩ := hrun
    rw [step_of_running hr h0] at h
    obtain ⟨i, _, hi⟩ := microStep_next h
    exact .inl ⟨hr, h0, entryStep_effect hi⟩
  · have hidle : s.running = false ∨ s.fault ≠ 0 :=
      (not_and_or.1 hrun).imp_left Bool.eq_false_of_not_eq_true
    have hhost : step s = stepHost s := hidle.elim step_of_idle step_of_halted
    refine .inr ⟨hidle, ?_⟩
    rw [hhost, stepHost] at h
    cases hp : s.pending with
    | nil =>
      rw [hp] at h
      exact .inl (Host.Outcome.next.inj h).symm
    | cons a rest =>
      rw [hp] at h
      exact .inr ⟨a, rest, rfl, h⟩

theorem step_params {s t : State} (h : step s = .next t) : t.params = s.params := by
  rcases step_next h with ⟨_, _, he⟩ | ⟨_, rfl | ⟨a, rest, _, hp⟩⟩
  · exact he.sameHostSide.1
  · rfl
  · exact perform_params (s := { s with pending := rest }) hp

/-- The invariant rules out a command in progress in a halted block, so a host action meets the idle block. -/
theorem step_inv {s t : State} (hi : s.Inv) (h : step s = .next t) : t.Inv := by
  rcases step_next h with ⟨hr, _, he⟩ | ⟨hidle, rfl | ⟨a, rest, _, hp⟩⟩
  · exact he.inv hi hr
  · exact hi
  · have hr : s.running = false := by
      by_contra hrun
      obtain ⟨-, -, -, hrunning⟩ := hi
      exact hidle.elim hrun fun h0 => h0 (hrunning (Bool.eq_true_of_not_eq_false hrun)).1
    exact perform_inv (s := { s with pending := rest }) hi hr hp

/-- Settles O58: by what a step can be. -/
theorem everyStepKeepsTheInvariant : Obligations.EveryStepKeepsTheInvariant := by
  unfold Obligations.EveryStepKeepsTheInvariant
  exact fun s t h => ⟨fun hi => step_inv hi h, step_params h⟩

end Sys2Proof.Machine
end

section
/-!
PROOFS. The state after power-up (spec/10_state.md R24), the canonical form of the memory, the host's writes of the two
memories (R11, R12), and which instruction a step runs (spec/70_reset_and_hazards.md R146).
-/

namespace Sys2Proof.Machine

open Sys2Proof

/-! ### The canonical form -/

/-- The unwritten bits of a byte in canonical form stand as 0. -/
theorem Memory.getLsbD_value_of_unwritten {m : Memory} (h : m.wf = true) {a j : Nat}
    (hj : (m.mask a).getLsbD j = false) : (m.value a).getLsbD j = false := by
  obtain ⟨-, hpart, -⟩ := (Memory.wf_iff m).1 h
  by_cases hj8 : j < 8
  · cases hb : Cells.read m.bytes a with
    | none => simp [Memory.value, hb]
    | some v =>
      cases hk : Cells.read m.part a with
      | none =>
        have hones : ∀ j < 8, (0xFF : Byte).getLsbD j = true := by decide
        simp only [Memory.mask, hb, hk, Option.getD_none, hones j hj8, Bool.true_eq_false] at hj
      | some k =>
        obtain ⟨-, -, hzero, -⟩ := hpart a k hk
        have hbit : (m.value a &&& ~~~ k).getLsbD j = false := by rw [hzero]; exact BitVec.getLsbD_zero
        simp only [Memory.mask, hb, hk, Option.getD_some] at hj
        rwa [BitVec.getLsbD_and, BitVec.getLsbD_not, hj, decide_eq_true hj8, Bool.not_false, Bool.and_true,
          Bool.and_true] at hbit
  · exact BitVec.getLsbD_of_ge _ _ (not_lt.1 hj8)

/-- What the list of bytes holds, told by the mask and the value. -/
theorem Memory.read_bytes {m : Memory} (h : m.wf = true) (a : Nat) :
    Cells.read m.bytes a = if m.mask a = 0 then none else some (m.value a) := by
  obtain ⟨-, hpart, -⟩ := (Memory.wf_iff m).1 h
  cases hb : Cells.read m.bytes a with
  | none => simp [Memory.mask, hb]
  | some v =>
    have hmask : m.mask a ≠ 0 := by
      cases hk : Cells.read m.part a with
      | none => simp [Memory.mask, hb, hk]
      | some k =>
        obtain ⟨hne, -⟩ := hpart a k hk
        simpa [Memory.mask, hb, hk] using hne
    rw [if_neg hmask, Memory.value, hb, Option.getD_some]

/-- What the list of partly written bytes holds, told by the mask. -/
theorem Memory.read_part {m : Memory} (h : m.wf = true) (a : Nat) :
    Cells.read m.part a = if m.mask a = 0 ∨ m.mask a = 0xFF then none else some (m.mask a) := by
  obtain ⟨-, hpart, -⟩ := (Memory.wf_iff m).1 h
  cases hk : Cells.read m.part a with
  | none => cases hb : Cells.read m.bytes a <;> simp [Memory.mask, hb, hk]
  | some k =>
    obtain ⟨h0, h1, -, hsome⟩ := hpart a k hk
    obtain ⟨v, hb⟩ := Option.isSome_iff_exists.1 hsome
    have hmask : m.mask a = k := by simp [Memory.mask, hb, hk]
    rw [hmask, if_neg (not_or.2 ⟨h0, h1⟩)]

/-- The bits of a byte tell which of its bits are written, and in canonical form its value. -/
theorem Memory.byte_eq_of_bits {m m' : Memory} (h : m.wf = true) (h' : m'.wf = true)
    (hbits : ∀ q, m.bit? q = m'.bit? q) (a : Nat) : m.mask a = m'.mask a ∧ m.value a = m'.value a := by
  have hbit : ∀ j < 8, (m.mask a).getLsbD j = (m'.mask a).getLsbD j ∧
      (m.value a).getLsbD j = (m'.value a).getLsbD j := fun j hj => by
    have hq := hbits (8 * a + (7 - j))
    simp only [Memory.bit?, show (8 * a + (7 - j)) / 8 = a by omega,
      show inByte (8 * a + (7 - j)) = j by unfold inByte; omega] at hq
    cases hm : (m.mask a).getLsbD j <;> cases hm' : (m'.mask a).getLsbD j <;> rw [hm, hm'] at hq
    · exact ⟨rfl, (Memory.getLsbD_value_of_unwritten h hm).trans (Memory.getLsbD_value_of_unwritten h' hm').symm⟩
    · cases hq
    · cases hq
    · exact ⟨rfl, Option.some.inj hq⟩
  exact ⟨BitVec.eq_of_getLsbD_eq fun j hj => (hbit j hj).1, BitVec.eq_of_getLsbD_eq fun j hj => (hbit j hj).2⟩

/-- Settles O60: the three lists rise, and what each holds is told by the bits and the slots. -/
theorem canonicalFormIsUnique : Obligations.CanonicalFormIsUnique := by
  unfold Obligations.CanonicalFormIsUnique
  intro m m' h h' hbits hslots
  have hbyte := Memory.byte_eq_of_bits h h' hbits
  obtain ⟨⟨hb, hp, hs⟩, -⟩ := (Memory.wf_iff m).1 h
  obtain ⟨⟨hb', hp', hs'⟩, -⟩ := (Memory.wf_iff m').1 h'
  have hbytes : m.bytes = m'.bytes := Cells.ext_of_read hb hb' fun a => by
    rw [Memory.read_bytes h, Memory.read_bytes h', (hbyte a).1, (hbyte a).2]
  have hpart : m.part = m'.part := Cells.ext_of_read hp hp' fun a => by
    rw [Memory.read_part h, Memory.read_part h', (hbyte a).1]
  have hslots : m.slots = m'.slots := Cells.ext_of_read hs hs' hslots
  obtain ⟨bytes, part, slots⟩ := m
  obtain ⟨bytes', part', slots'⟩ := m'
  congr

/-! ### The host's writes of the two memories -/

/-- A byte written whole changes no bit of another. -/
theorem sameOutside_setByte (m : Memory) (a : Nat) (k v : Byte) :
    SameOutside m (m.setByte a k v) (8 * a) (8 * a + 8) := by
  intro q hq
  rw [Memory.bit?_setByte, if_neg (by omega)]

/-- Settles O56: the idle block takes the write off the list, and what it does is told byte by byte, slot by slot. -/
theorem hostWritesLand : Obligations.HostWritesLand := by
  unfold Obligations.HostWritesLand
  refine fun s a b v rest hr => ⟨fun hp ha => ?_, fun hp ha => ?_⟩
  · rw [step_of_action hr hp]
    exact ⟨_, if_pos ha, Memory.readByte_setByte_same .., sameOutside_setByte s.mem a 0xFF b,
      Memory.slots_setByte .., rfl⟩
  · have hslot (c : Nat) : (s.mem.setSlot a v).slot? c = if c = a then some v else s.mem.slot? c :=
      Memory.slot?_setSlot ..
    rw [step_of_action hr hp]
    exact ⟨_, if_pos ha, (hslot a).trans (if_pos rfl), fun c hc => (hslot c).trans (if_neg hc), ⟨rfl, rfl⟩, rfl⟩

/-! ### The instruction a step runs -/

/-- The step that runs the entry at DIX. -/
theorem step_of_entry {s : State} {w : EntryWord} {i : Instr} (hr : s.running = true) (h0 : s.fault = 0)
    (hw : s.words[s.dix.toNat]? = some w) (hi : decodeEntry w = .ok i) : step s = exec i s := by
  have hfetch : fetchEntry s = some i := by
    rw [fetchEntry, hw]
    exact congrArg Except.toOption hi
  rw [step_of_running hr h0, microStep, hfetch, exec_entry (notCommand_of_decodeEntry hi)]

/-- The step that runs the command word that the host has sent. -/
theorem step_of_command {s : State} {w : CommandWord} {i : Instr} {rest : List HostAction} (hr : s.running = false)
    (hp : s.pending = .command w :: rest) (hi : decodeCommand w = .ok i) :
    step s = exec i { s with pending := rest } := by
  rw [step_of_action hr hp, perform, issue, hi]

/-- Settles O57: the two ways a step finds its instruction. -/
theorem stepRunsTheDecodedInstruction : Obligations.StepRunsTheDecodedInstruction := by
  unfold Obligations.StepRunsTheDecodedInstruction
  exact fun s i => ⟨fun w => step_of_entry, fun w rest => step_of_command⟩

/-! ### Power-up -/

/-- `EPH_LAYOUT_REF` (30 R56) as entries. -/
def ephReferenceEntries : Descriptor := (decodeLayout ephReference).getD []

theorem decodeLayout_ephReference : decodeLayout ephReference = some ephReferenceEntries := by decide

/-- The reference layout is admissible for every MAXSAT: it has no repeated block, so its size does not depend on it. -/
theorem ephReferenceEntries_ok (maxsat : Nat) : ephReferenceEntries.ephOk maxsat = true := by
  have hshape : (ephReferenceEntries.endsOnce && ephReferenceEntries.tagsFirst && ephReferenceEntries.repeatOnce &&
      ephReferenceEntries.bodyPlain && ephReferenceEntries.slotsDistinct) = true := by decide
  have hsize : ephReferenceEntries.sizeOk maxsat = true := by
    have hin : Descriptor.totalWidth ephReferenceEntries.inside = 0 := by decide
    have hout : Descriptor.totalWidth ephReferenceEntries.outside < 2 ^ 32 := by decide
    rw [Descriptor.sizeOk, hin]
    exact decide_eq_true (by omega)
  have heph : (ephReferenceEntries.noRepeat && ephReferenceEntries.widthsEph && ephReferenceEntries.oneReserved) =
      true := by decide
  rw [Descriptor.ephOk, Descriptor.wf, hshape, hsize]
  exact heph

/-- The block's own parameters are admissible, whatever its configuration is. -/
theorem config_ok : Params.config.ok = true := by
  unfold Params.config
  simp only
  split
  · assumption
  · simp only [Params.ok, decodeLayout_ephReference, ephReferenceEntries_ok]

/-- A memory that nothing has written holds no bit. -/
theorem Memory.bit?_empty (q : Nat) : (⟨[], [], []⟩ : Memory).bit? q = none :=
  if_neg (by simp [Memory.mask])

theorem reset_inv : State.reset.Inv :=
  inv_of_idle rfl (fun _ _ h => nomatch h) rfl rfl

/-- Settles O59: the registers and the memories as they are written, and the parameters of the block. -/
theorem resetMeetsTheInvariant : Obligations.ResetMeetsTheInvariant := by
  unfold Obligations.ResetMeetsTheInvariant
  exact ⟨by simp only [State.reset, and_self], readReg_powerUp, rfl, Memory.bit?_empty, fun _ => rfl,
    reset_inv, config_ok⟩

/-! ### The sequencer registers before a command -/

/-- Settles O45: a command that is not ignored sets every sequencer register at its start. -/
theorem resultIgnoresOldSequencer : Obligations.ResultIgnoresOldSequencer := by
  unfold Obligations.ResultIgnoresOldSequencer
  intro s u i hi h0
  have hstart (mt : MsgType) (dir : Direction) :
      startCommand mt dir (s.sequencedAs u) = startCommand mt dir s := rfl
  have h0' : (s.sequencedAs u).fault = 0 := h0
  simp only [List.mem_cons, List.not_mem_nil, or_false] at hi
  rcases hi with rfl | rfl | rfl | rfl <;>
    simp only [exec, execEncRawx, execDecRawx, execEncEph, execDecEph, unlessHalted_of_ok h0, unlessHalted_of_ok h0',
      withEphLayout, runCommand, hstart] <;> rfl

end Sys2Proof.Machine
end

section
/-!
PROOFS. Where a read stops: at the first bit that holds no value (spec/10_state.md R24, spec/93_implementation_defined.md
U7), at a slot that holds none, and at a slot that does not exist (R12).
-/

namespace Sys2Proof.Machine

open Sys2Proof

/-- A field is read bit by bit, so the read stops at the first bit that holds no value. -/
theorem Memory.readField_of_unwritten {m : Memory} : ∀ {n pos k : Nat} {acc : Slot}, k < n →
    BitsWritten m pos (pos + k) → m.bit? (pos + k) = none → m.readField n pos acc = .error (pos + k) := by
  intro n
  induction n with
  | zero => intro pos k acc hk; omega
  | succ n ih =>
    intro pos k acc hk hw hnone
    cases k with
    | zero => simp only [Memory.readField, Nat.add_zero] at hnone ⊢; rw [hnone]
    | succ k =>
      obtain ⟨b, hb⟩ := Option.isSome_iff_exists.1 (hw pos (le_refl _) (by omega))
      have hnext : pos + (k + 1) = pos + 1 + k := by omega
      rw [hnext] at hw hnone ⊢
      simp only [Memory.readField, hb]
      exact ih (by omega) (fun q hlo hhi => hw q (by omega) hhi) hnone

/-- Settles O18: the read of the primitive within its contract, stopped. -/
theorem readOfUnwrittenBitStops : Obligations.ReadOfUnwrittenBitStops := by
  unfold Obligations.ReadOfUnwrittenBitStops
  intro pos len k s h0 h64 hc hk hw hnone
  have hread : s.mem.readField len.toNat pos.toNat 0 = .error (pos.toNat + k) :=
    Memory.readField_of_unwritten hk hw hnone
  have hstop (k' : Slot → Result) :
      withOperands pos len s (fun s => readOperand pos len s k') = .fault (.unwrittenBit (pos.toNat + k)) := by
    rw [withOperands_of_ok h0 (by omega) h64 hc, readOperand, hread]
  exact ⟨hstop _, hstop _⟩

/-! ### The entries -/

theorem readSlot_of_none {a : Nat} {s : State} (h : s.mem.slot? a = none) (k : Slot → Result) :
    readSlot a s k = .fault (.unwrittenSlot a) := by
  rw [readSlot, h]

theorem getField_of_unwritten {w k : Nat} {s : State} (hk : k < w)
    (hw : BitsWritten s.mem s.cur.toNat (s.cur.toNat + k)) (hnone : s.mem.bit? (s.cur.toNat + k) = none)
    (c : Slot → Result) : getField w s c = .fault (.unwrittenBit (s.cur.toNat + k)) := by
  rw [getField, Memory.readField_of_unwritten hk hw hnone]

theorem withAddress_of_namesSlot {s : State} {slot : BitVec 6} {a : Nat} (h : NamesSlot s slot a) (k : Nat → Result) :
    withAddress slot s k = k a := by
  rw [withAddress, fieldAddress_of_namesSlot h]

/-- Inside a repeated block an FLD with a SLOT of 16 or more, or a REC of MAXSAT or more, names no slot (10 R12). -/
theorem withAddress_of_noSlot {s : State} {slot : BitVec 6} (hin : s.inrep = true)
    (h : 16 ≤ slot.toNat ∨ s.params.maxsat.toNat ≤ s.recIx.toNat) (k : Nat → Result) :
    withAddress slot s k = .fault (.noSuchSlot (64 + 16 * s.recIx.toNat + slot.toNat)) := by
  have hno : ¬ (slot.toNat < recStride ∧ s.recIx.toNat < s.params.maxsat.toNat) := by
    rw [recStride]
    omega
  rw [withAddress, fieldAddress, hin, if_pos rfl, if_neg hno]
  rfl

/-- The entries with a scalar slot, on encode. -/
theorem exec_scalar_encode_stops {wm1 slot : BitVec 6} {s : State} {i : Instr}
    (hi : i ∈ [Instr.tagc wm1 slot, .tagi wm1 slot, .cntf wm1 slot]) (hd : s.dir = .enc)
    (hc : s.cur.toNat + (wm1.toNat + 1) ≤ s.capBits) (h : s.mem.slot? slot.toNat = none) :
    exec i s = .fault (.unwrittenSlot slot.toNat) := by
  simp only [List.mem_cons, List.not_mem_nil, or_false] at hi
  rcases hi with rfl | rfl | rfl <;>
    simp only [exec, execTagc, execTagi, execCntf, hd, encodeScalar, check_of_fits hc, readSlot_of_none h]

/-- And on decode. -/
theorem exec_scalar_decode_stops {wm1 slot : BitVec 6} {s : State} {i : Instr} {k : Nat}
    (hi : i ∈ [Instr.tagc wm1 slot, .tagi wm1 slot, .cntf wm1 slot]) (hd : s.dir = .dec)
    (hc : s.cur.toNat + (wm1.toNat + 1) ≤ s.capBits) (hk : k < wm1.toNat + 1)
    (hw : BitsWritten s.mem s.cur.toNat (s.cur.toNat + k)) (hnone : s.mem.bit? (s.cur.toNat + k) = none) :
    exec i s = .fault (.unwrittenBit (s.cur.toNat + k)) := by
  simp only [List.mem_cons, List.not_mem_nil, or_false] at hi
  rcases hi with rfl | rfl | rfl <;>
    simp only [exec, execTagc, execTagi, execCntf, hd, decodeField, check_of_fits hc, getField_of_unwritten hk hw hnone]

/-- Settles O28: FLD by the slot it names, the others by their scalar slot; each stops at what it reads first. -/
theorem entriesStopWhereNoValueIs : Obligations.EntriesStopWhereNoValueIs := by
  unfold Obligations.EntriesStopWhereNoValueIs
  refine fun sgn wm1 slot s hc => ⟨fun hd a ha hnone => ?_, fun hd hnone i hi => ?_, fun hd k hk hw hnone => ⟨?_, ?_⟩,
    fun hin hno => ?_⟩
  · simp only [exec, execFld, hd, check_of_fits hc, withAddress_of_namesSlot ha, readSlot_of_none hnone]
  · exact exec_scalar_encode_stops hi hd hc hnone
  · exact fun i hi => exec_scalar_decode_stops hi hd hc hk hw hnone
  · rintro ⟨a, ha⟩
    simp only [exec, execFld, hd, check_of_fits hc, withAddress_of_namesSlot ha, getField_of_unwritten hk hw hnone]
  · rcases enc_or_dec s.dir with hd | hd <;>
      simp only [exec, execFld, hd, check_of_fits hc, withAddress_of_noSlot hin hno]

end Sys2Proof.Machine
end

section
/-!
PROOFS. What an instruction leaves: the bits at or past the declared capacity (spec/20_memory.md R36), and the registers
that are not its own to write (spec/10_state.md R15, R17, R18).
-/

namespace Sys2Proof.Machine

open Sys2Proof

/-! ### The capacity -/

theorem runCommand_outside {mt : MsgType} {dir : Direction} {s t : State} (h : runCommand mt dir s = .next t) :
    SameOutside s.mem t.mem 0 s.capBits := by
  refine (runCommand_induction (P := fun u => SameOutside s.mem u.mem 0 s.capBits ∧ u.capBits = s.capBits) h
    ⟨fun _ _ => rfl, rfl⟩ fun u v ⟨hu, hcap⟩ he => ?_).1.1
  obtain ⟨hv, hcap'⟩ := he.outside
  rw [hcap] at hv
  exact ⟨fun q hq => (hv q hq).trans (hu q hq), hcap'.trans hcap⟩

/-- Settles O52: a micro-step by its effect, a SETU or SETS by its operand check, the other instructions write no bit. -/
theorem nothingPastTheCapacityChanges : Obligations.NothingPastTheCapacityChanges := by
  unfold Obligations.NothingPastTheCapacityChanges
  intro s t i h
  rcases exec_next h with ⟨_, he⟩ | ⟨_, _, rfl⟩ | ⟨_, _, _, rfl⟩ | ⟨p, l, v, _, _, h1, h64, hc, rfl⟩ |
    ⟨_, _, _, _, _, rfl⟩ | ⟨_, _, _, hr, _⟩
  · exact he.outside.1
  · exact fun _ _ => rfl
  · exact fun _ _ => rfl
  · exact fun q hq => sameOutside_writeField s.mem v h1 h64 q (by omega)
  · exact fun _ _ => rfl
  · exact runCommand_outside hr

/-! ### The writers of RES, STATUS and BITS -/

theorem MicroEffect.res_eq {s t : State} (h : MicroEffect s t) : t.res = s.res := by
  cases h <;> simp

/-- A micro-step changes STATUS on decode alone. -/
theorem MicroEffect.dec_of_status {s t : State} (h : MicroEffect s t) (hne : t.status ≠ s.status) : s.dir = .dec := by
  cases h with
  | finishedOk hd | mismatch _ hd | invalid hd => exact hd
  | _ => exact absurd rfl hne

/-- And BITS on encode alone. -/
theorem MicroEffect.enc_of_bits {s t : State} (h : MicroEffect s t) (hne : t.bits ≠ s.bits) : s.dir = .enc := by
  cases h with
  | completed hd => exact hd
  | finishedOk | mismatch | invalid => exact absurd (finish_bits ..) hne
  | _ => exact absurd rfl hne

/-- An entry with a field leaves BITS, and STATUS unless it is a tag. -/
theorem exec_field_results {i : Instr} {s t : State} (hf : isField i = true) (h : exec i s = .next t) :
    t.bits = s.bits ∧ (Descriptor.isTag i = false → t.status = s.status) := by
  rw [exec_entry (isCommand_of_isField hf)] at h
  rcases enc_or_dec s.dir with hd | hd
  · rcases Nat.lt_or_ge s.capBits (s.cur.toNat + i.width) with hc | hc
    · cases (entryStep_exceeds hf hc).symm.trans h
      exact ⟨rfl, fun _ => rfl⟩
    · cases (entryStep_encode hd (encodable_of_next hf hd hc h) hc).symm.trans h
      exact ⟨rfl, fun _ => rfl⟩
  · refine ⟨?_, fun ht => ?_⟩
    · rcases entryStep_decode_next hf hd h with rfl | rfl | ⟨_, _, rfl⟩
      · rfl
      · rfl
      · rw [decOne_eq]
    · rcases entryStep_untagged_next hf ht hd h with rfl | ⟨_, _, rfl⟩
      · rfl
      · rw [decOne_eq]

/-- An entry that changes STATUS is END, REPB or a tag. -/
theorem entry_of_status {i : Instr} {s t : State} (hi : i.isCommand = false) (h : exec i s = .next t)
    (hne : t.status ≠ s.status) : i = .endDesc ∨ i = .repb ∨ ∃ w a, i = .tagc w a ∨ i = .tagi w a := by
  cases i with
  | endDesc => exact .inl rfl
  | repb => exact .inr (.inl rfl)
  | tagc w a => exact .inr (.inr ⟨w, a, .inl rfl⟩)
  | tagi w a => exact .inr (.inr ⟨w, a, .inr rfl⟩)
  | fld | rsv | cntf => exact absurd ((exec_field_results rfl h).2 rfl) hne
  | repe =>
    cases (exec_repe s).symm.trans h
    exact absurd (by rw [afterRepe_sequenced]; rfl) hne
  | _ => cases hi

/-- An entry that changes BITS is END. -/
theorem entry_of_bits {i : Instr} {s t : State} (hi : i.isCommand = false) (h : exec i s = .next t)
    (hne : t.bits ≠ s.bits) : i = .endDesc := by
  cases i with
  | endDesc => rfl
  | fld | rsv | tagc | tagi | cntf => exact absurd (exec_field_results rfl h).1 hne
  | repb =>
    rcases exec_repb_next h with ⟨_, ⟨_, rfl⟩ | ⟨_, rfl⟩⟩ | ⟨_, _, _, rfl⟩ | ⟨_, _, rfl⟩ <;> exact absurd rfl hne
  | repe =>
    cases (exec_repe s).symm.trans h
    exact absurd (by rw [afterRepe_sequenced]; rfl) hne
  | _ => cases hi

/-- The result of the last read is written by the reads alone (10 R15). -/
theorem read_of_res {i : Instr} {s t : State} (h : exec i s = .next t) (hne : t.res ≠ s.res) :
    ∃ pos len, i = .getu pos len ∨ i = .gets pos len := by
  rcases exec_next h with ⟨_, he⟩ | ⟨_, _, rfl⟩ | ⟨_, _, _, rfl⟩ | ⟨_, _, _, _, _, _, _, _, rfl⟩ |
    ⟨pos, len, _, hi, _⟩ | ⟨_, _, _, hr, _⟩
  · exact absurd he.res_eq hne
  · exact absurd rfl hne
  · exact absurd rfl hne
  · exact absurd rfl hne
  · exact ⟨pos, len, hi⟩
  · exact absurd (runCommand_induction (P := fun u => u.res = s.res) hr rfl fun _ _ hu he => he.res_eq.trans hu).1 hne

/-- A command that changes BITS is an encode (10 R18). -/
theorem encode_of_bits {i : Instr} {s t : State} (hi : i.isCommand = true) (h : exec i s = .next t)
    (hne : t.bits ≠ s.bits) : i = .encRawx ∨ i = .encEph := by
  rcases exec_next h with ⟨hc, _⟩ | ⟨_, _, rfl⟩ | ⟨_, _, _, rfl⟩ | ⟨_, _, _, _, _, _, _, _, rfl⟩ |
    ⟨_, _, _, _, _, rfl⟩ | ⟨mt, dir, _, hr, _, hd⟩
  · rw [hi] at hc
    cases hc
  · exact absurd rfl hne
  · exact absurd rfl hne
  · exact absurd rfl hne
  · exact absurd rfl hne
  · refine hd.1 ((enc_or_dec dir).resolve_right ?_)
    rintro rfl
    exact hne (by rw [runCommand_decode_frame hr]; rfl)

/-- Settles O50: register by register, the entries apart from the commands. -/
theorem resultRegistersHaveTheirWriters : Obligations.ResultRegistersHaveTheirWriters := by
  unfold Obligations.ResultRegistersHaveTheirWriters
  refine fun s t i h => ⟨exec_sameHostSide h, read_of_res h, fun hne => ?_, fun hne => ?_⟩
  · cases hi : i.isCommand with
    | true =>
      by_cases hrawx : i = .decRawx
      · exact .inl hrawx
      · exact .inr (.inl (by_contra fun heph => hne (exec_status_of_not_decode hi hrawx heph h)))
    | false =>
      have he := entryStep_effect ((exec_entry hi).symm.trans h)
      exact .inr (.inr ⟨he.dec_of_status hne, entry_of_status hi h hne⟩)
  · cases hi : i.isCommand with
    | true => exact (encode_of_bits hi h hne).imp_right .inl
    | false =>
      have he := entryStep_effect ((exec_entry hi).symm.trans h)
      exact .inr (.inr ⟨he.enc_of_bits hne, entry_of_bits hi h hne⟩)

end Sys2Proof.Machine
end

section
/-!
PROOFS. A message command comes to its end (spec/41_sequencer_ops.md R81, R92): within the bound of R92 its micro-steps
stop on a fault of the model or end the command, and none of them is refused.
-/

namespace Sys2Proof.Machine

open Sys2Proof

/-- The command has ended, or the model has stopped on a fault of its own. -/
def Ends (r : Result) : Prop := (∃ f, r = .fault f) ∨ ∃ t, r = .next t ∧ t.running = false

theorem Ends.ne_refused {x : Result} (h : Ends x) (r : Refusal) : x ≠ .refused r := by
  rintro rfl
  rcases h with ⟨_, h⟩ | ⟨_, h, _⟩ <;> cases h

theorem Ends.running {x : Result} (h : Ends x) {t : State} (ht : x = .next t) : t.running = false := by
  subst ht
  rcases h with ⟨_, h⟩ | ⟨_, h, hr⟩ <;> cases h
  exact hr

/-! ### The RAWX descriptor -/

theorem ends_at_endDesc {s : State} (n : Nat) (hmt : s.mt = .rawx) (hdix : s.dix = 25) :
    Ends (microLoop (n + 1) s) := by
  have hword : decodeLayout s.words = some rawxEntries := by unfold State.words; rw [hmt]; exact decodeLayout_rawx
  exact .inr (microLoop_end n hword (by rw [hdix]; rfl))

/-- A run of fields ends the command, or leads on to what is behind it. -/
theorem ends_of_fields {d : Descriptor} {y : Instr} {ys xs : List Instr} {s : State} (n : Nat) (hlen : d.length ≤ 64)
    (hw : decodeLayout s.words = some d) (hd : d.drop s.dix.toNat = xs ++ y :: ys) (hrun : s.running = true)
    (hf : ∀ i ∈ xs, isField i = true)
    (hend : ∀ t : State, d.drop t.dix.toNat = y :: ys → t.running = true → t.mt = s.mt → t.dir = s.dir →
      t.params = s.params → t.inrep = s.inrep → t.recIx = s.recIx → t.rpt = s.rpt →
      ((∀ i ∈ xs, Descriptor.isCount i = false) → t.cnt = s.cnt) → Ends (microLoop n t)) :
    Ends (microLoop (n + xs.length) s) := by
  rcases microLoop_fields hlen xs n hw hd hrun hf with
    h | h | ⟨t, hloop, hdrop, hr, hmt, hdir, hparams, hinrep, hrec, hrpt, hcnt⟩
  · exact .inl h
  · exact .inr h
  · rw [hloop]
    exact hend t hdrop hr hmt hdir hparams hinrep hrec hrpt hcnt

/-- A record ends the command, or leads on past its REPE. -/
theorem ends_of_record {s : State} {dir : Direction} {r k : Nat} (n : Nat) (h : InBlock s dir r k)
    (hend : ∀ t : State, InBlock { t with dix := 10 } dir r k → rawxEntries.drop t.dix.toNat = [.repe, .endDesc] →
      Ends (microLoop n (afterRepe t))) : Ends (microLoop (n + 15) s) := by
  refine ends_of_fields (n + 1) (by decide) h.words h.drop h.run rawxBody_isField
    fun t hdrop hr hmt hdir hparams hinrep hrec hrpt hcnt => ?_
  have hblock : InBlock { t with dix := 10 } dir r k :=
    ⟨hmt.trans h.mt, hdir.trans h.dir, hr, hinrep.trans h.inrep, hrpt.trans h.rpt, rfl,
      (congrArg _ hrec).trans h.recIx, (congrArg _ (hcnt rawxBody_noCount)).trans h.cnt, hparams ▸ h.max⟩
  rw [microLoop_repe (u := t) n hblock.words hdrop hr]
  exact hend t hblock hdrop

/-- The records that are left, and END behind them. -/
theorem ends_in_block : ∀ (k : Nat) {s : State} {dir : Direction} {r : Nat} (m : Nat), InBlock s dir r (k + 1) →
    Ends (microLoop (m + 1 + 15 * (k + 1)) s) := by
  intro k
  induction k with
  | zero =>
    intro s dir r m h
    refine ends_of_record (m + 1) h fun t hblock hdrop => ?_
    rw [hblock.afterRepe_last (u := t) rfl rfl hdrop]
    exact ends_at_endDesc m hblock.mt rfl
  | succ k ih =>
    intro s dir r m h
    exact ends_of_record (m + 1 + 15 * (k + 1)) h fun t hblock _ => ih m (hblock.afterRepe_next (u := t) rfl rfl)

/-- The state REPB leaves where it enters the block (41 R89). -/
def enterBlock (s : State) : State := { s with recIx := 0, rpt := 10, inrep := true, dix := 10 }

theorem inBlock_enterBlock {s : State} {dir : Direction} (hmt : s.mt = .rawx) (hdir : s.dir = dir)
    (hrun : s.running = true) (hmax : s.cnt.toNat ≤ s.params.maxsat.toNat) :
    InBlock (enterBlock s) dir 0 s.cnt.toNat :=
  ⟨hmt, hdir, hrun, rfl, rfl, rfl, rfl, (Nat.zero_add _).symm, (Nat.zero_add _).trans_le hmax⟩

/-- REPB with records to go enters the block, with micro-steps enough left for all of them. -/
theorem repb_enter_records {s : State} (hmt : s.mt = .rawx) (hrun : s.running = true) (hdix : s.dix = 9)
    (hmax : s.cnt.toNat ≤ s.params.maxsat.toNat) (hz : s.cnt ≠ 0) :
    ∃ k m, s.cnt.toNat = k + 1 ∧
      microLoop (2 + 15 * s.params.maxsat.toNat + 1) s = microLoop (m + 1 + 15 * s.cnt.toNat) (enterBlock s) := by
  obtain ⟨k, hk⟩ := Nat.exists_eq_succ_of_ne_zero fun h0 : s.cnt.toNat = 0 => hz (BitVec.eq_of_toNat_eq h0)
  have hfuel : 2 + 15 * s.params.maxsat.toNat =
      1 + 15 * (s.params.maxsat.toNat - s.cnt.toNat) + 1 + 15 * s.cnt.toNat := by omega
  refine ⟨k, 1 + 15 * (s.params.maxsat.toNat - s.cnt.toNat), hk, ?_⟩
  rw [repb_enter _ hmt hrun hdix hz hmax, hfuel]
  rfl

/-- REPB: the command ends there, or goes on to END, past the records if there are any. -/
theorem ends_at_repb {s : State} (hmt : s.mt = .rawx) (hrun : s.running = true) (hdix : s.dix = 9) :
    Ends (microLoop (2 + 15 * s.params.maxsat.toNat + 1) s) := by
  by_cases hover : s.params.maxsat.toNat < s.cnt.toNat
  · rw [repb_over _ hmt hdix hover]
    refine .inr ⟨_, rfl, ?_⟩
    cases s.dir <;> rfl
  by_cases hz : s.cnt = 0
  · rw [repb_skip _ hmt hrun hdix hz, Nat.add_comm 2]
    exact ends_at_endDesc _ hmt rfl
  · obtain ⟨k, m, hk, hloop⟩ := repb_enter_records hmt hrun hdix (not_lt.1 hover) hz
    have hblock := inBlock_enterBlock hmt rfl hrun (not_lt.1 hover)
    rw [hk] at hblock hloop
    rw [hloop]
    exact ends_in_block k m hblock

theorem dix_repb {x : BitVec 6} (h : rawxEntries.drop x.toNat = .repb :: (rawxBody ++ [.repe, .endDesc])) : x = 9 := by
  have hlen := congrArg List.length h
  have hlen' : rawxEntries.length = 26 := rfl
  have hlen'' : (Instr.repb :: (rawxBody ++ [.repe, .endDesc])).length = 17 := rfl
  rw [List.length_drop, hlen', hlen''] at hlen
  exact BitVec.eq_of_toNat_eq (by show x.toNat = 9; omega)

/-- A RAWX command of a block that is not halted is the loop over its header and, behind it, from REPB on. -/
theorem exec_rawx_loop {i : Instr} {dir : Direction} (hi : Runs i .rawx dir) {s : State} (h0 : s.fault = 0) :
    exec i s = microLoop (2 + 15 * s.params.maxsat.toNat + 1 + 9) (startCommand .rawx dir s) := by
  have hmem : (i, MsgType.rawx, dir) ∈ [(Instr.encRawx, MsgType.rawx, Direction.enc), (.decRawx, .rawx, .dec)] := by
    simpa [Runs] using hi
  rw [exec_rawx s h0 hmem]
  congr 1
  omega

theorem ends_rawx (dir : Direction) (s : State) :
    Ends (microLoop (2 + 15 * s.params.maxsat.toNat + 1 + 9) (startCommand .rawx dir s)) := by
  refine ends_of_fields (d := rawxEntries) (xs := rawxHead) _ (by decide) decodeLayout_rawx rfl rfl rawxHead_isField
    fun t hdrop hr hmt _ hparams _ _ _ _ => ?_
  have hend := ends_at_repb hmt hr (dix_repb hdrop)
  rwa [hparams] at hend

/-! ### Any message command -/

/-- A message command of a block that is not halted, over an admissible layout, ends. -/
theorem ends_of_runs {i : Instr} {mt : MsgType} {dir : Direction} (hi : Runs i mt dir) {s : State} (h0 : s.fault = 0)
    (hok : mt = .eph → s.params.ok = true) : Ends (exec i s) := by
  cases mt with
  | rawx =>
    rw [exec_rawx_loop hi h0]
    exact ends_rawx dir s
  | eph =>
    have hok := hok rfl
    obtain ⟨d, hd⟩ : ∃ d, decodeLayout s.params.ephLayout = some d := by
      unfold Params.ok at hok
      split at hok
      · exact ⟨_, ‹_›⟩
      · cases hok
    obtain ⟨xs, M, rfl, hlen, hfield, -, -, -, henc, hdec⟩ := exec_eph h0 hok hd
    have hloop (dir : Direction) : Ends (microLoop (M + 1 + xs.length) (startCommand .eph dir s)) :=
      ends_of_fields (s := startCommand .eph dir s) (M + 1) hlen hd rfl rfl hfield
        fun t hdrop _ hmt _ hparams _ _ _ _ => by
          have hword : decodeLayout t.words = some (xs ++ [.endDesc]) := by
            rw [State.words, hmt, hparams]
            exact hd
          exact .inr (microLoop_end M hword hdrop)
    have hi : i = .encEph ∨ i = .decEph := by
      simp only [Runs, List.mem_cons, Prod.mk.injEq, reduceCtorEq, List.not_mem_nil, false_and, and_false, true_and,
        false_or, or_false] at hi
      exact hi.imp And.left And.left
    rcases hi with rfl | rfl
    · exact henc ▸ hloop .enc
    · exact hdec ▸ hloop .dec

/-! ### What is refused -/

theorem withOperands_ne_refused {pos : BitVec 32} {len : BitVec 8} {s : State} {k : State → Result} {r : Refusal}
    (hk : ∀ t, k t ≠ .refused r) : withOperands pos len s k ≠ .refused r := by
  dsimp only [withOperands, unlessHalted]
  split
  · nofun
  · split
    · nofun
    · split
      · nofun
      · exact hk s

theorem readOperand_ne_refused {pos : BitVec 32} {len : BitVec 8} {s : State} {k : Slot → Result} {r : Refusal}
    (hk : ∀ v, k v ≠ .refused r) : readOperand pos len s k ≠ .refused r := by
  unfold readOperand
  split
  · nofun
  · exact hk _

theorem exec_message_ne_refused {i : Instr} (hi : i ∈ [Instr.encRawx, .decRawx, .encEph, .decEph]) {s : State}
    (hok : s.params.ok = true) (r : Refusal) : exec i s ≠ .refused r := by
  by_cases h0 : s.fault = 0
  · obtain ⟨mt, dir, hruns⟩ := exists_runs hi
    exact (ends_of_runs hruns h0 fun _ => hok).ne_refused r
  · have hcommand : i.isCommand = true := (by decide : ∀ i ∈ [Instr.encRawx, .decRawx, .encEph, .decEph],
      i.isCommand = true) i hi
    rw [exec_of_halted hcommand h0]
    nofun

/-- Settles O42: a primitive by its checks and its read, a message command by its end. -/
theorem commandsAreNeverRefused : Obligations.CommandsAreNeverRefused := by
  unfold Obligations.CommandsAreNeverRefused
  intro s i r hok hi
  cases i with
  | setu | sets =>
    simp only [exec, execSetu, execSets]
    exact withOperands_ne_refused fun _ => nofun
  | getu | gets =>
    simp only [exec, execGetu, execGets]
    exact withOperands_ne_refused fun _ => readOperand_ne_refused fun _ => nofun
  | encRawx | decRawx | encEph | decEph => exact exec_message_ne_refused (by simp) hok r
  | _ => cases hi

/-- Settles O43: the check of the layout stands before the two EPH commands; the RAWX commands come to their end. -/
theorem inadmissibleLayoutIsRefused : Obligations.InadmissibleLayoutIsRefused := by
  unfold Obligations.InadmissibleLayoutIsRefused
  intro s hok h0
  have hlayout (k : State → Result) : withEphLayout s k = .refused .malformedDescriptor := by
    rw [withEphLayout, hok]
    rfl
  have hrawx {i : Instr} {dir : Direction} (hi : Runs i .rawx dir) := (ends_of_runs hi h0 nofun).ne_refused
  refine ⟨?_, ?_, hrawx (dir := .enc) (by simp [Runs]), hrawx (dir := .dec) (by simp [Runs])⟩
  · rw [exec, execEncEph, unlessHalted_of_ok h0, hlayout]
  · rw [exec, execDecEph, unlessHalted_of_ok h0, hlayout]

/-! ### The micro-steps as steps -/

/-- While a command goes on FAULT stays 0. -/
theorem fault_of_microStep {s u : State} (h0 : s.fault = 0) (h : microStep s = .next u) (hr : u.running = true) :
    u.fault = 0 := by
  by_contra hne
  obtain ⟨i, _, hi⟩ := microStep_next h
  obtain ⟨c, rfl⟩ := (entryStep_effect hi).eq_raise (h0 ▸ hne)
  cases hr

theorem microLoop_of_next {n : Nat} {s u : State} (h : microStep s = .next u) :
    microLoop (n + 1) s = if u.running then microLoop n u else .next u := by
  simp only [microLoop, h]

theorem microLoop_of_fault {n : Nat} {s : State} {f : Fault} (h : microStep s = .fault f) :
    microLoop (n + 1) s = .fault f := by
  simp only [microLoop, h]

theorem run_of_fault {s : core.State} {f : core.Fault} (h : core.step s = .fault f) (k : Nat) :
    core.run (k + 1) s = .fault f := by
  simp only [Host.Core.run, h]

/-- The loop answers what as many steps of the machine answer as it takes to end it. -/
theorem run_of_microLoop : ∀ (n : Nat) {s : State}, s.running = true → s.fault = 0 → Ends (microLoop n s) →
    ∃ k ≤ n, core.run k s = microLoop n s := by
  intro n
  induction n with
  | zero =>
    intro s _ _ h
    exact absurd rfl (h.ne_refused .beyondMicroBound)
  | succ n ih =>
    intro s hr h0 h
    have hstep : core.step s = microStep s := step_of_running hr h0
    cases hm : microStep s with
    | next u =>
      rw [microLoop_of_next hm] at h ⊢
      split at h
      · obtain ⟨k, hk, hrun⟩ := ih ‹_› (fault_of_microStep h0 hm ‹_›) h
        exact ⟨k + 1, Nat.succ_le_succ hk, by rw [if_pos ‹_›, run_of_microStep hr h0 hm k, hrun]⟩
      · exact ⟨1, Nat.le_add_left 1 n, by rw [if_neg ‹_›]; exact run_of_microStep hr h0 hm 0⟩
    | fault f =>
      exact ⟨1, Nat.le_add_left 1 n, (run_of_fault (hstep.trans hm) 0).trans (microLoop_of_fault hm).symm⟩
    | refused r =>
      simp only [microLoop, hm] at h
      exact absurd rfl (h.ne_refused r)

/-- Settles O44: the command is the loop from its start, which ends within the bound. -/
theorem commandIsItsMicroSteps : Obligations.CommandIsItsMicroSteps := by
  unfold Obligations.CommandIsItsMicroSteps
  intro s mt dir i hi h0 hok
  have hend := ends_of_runs hi h0 fun _ => hok
  refine ⟨?_, fun t => hend.running, hend.ne_refused⟩
  rw [exec_of_runs hi h0 fun _ => hok] at hend ⊢
  exact run_of_microLoop _ rfl h0 hend

end Sys2Proof.Machine
end

section
/-!
PROOFS. The RAWX message (spec/42_message_codecs.md R100, R101, R104): the walk of its descriptor from REPB to END, what
ENC_RAWX writes and what DEC_RAWX reads, and where either stops at the capacity (60 R127).
-/

namespace Sys2Proof.Machine

open Sys2Proof

/-! ### The wire layout and the descriptor -/

/-- A list of fields is laid out the same from every bit address. -/
theorem placed_eq_map (q : Nat) : ∀ (xs : List Instr) (c : Nat),
    placed (q + c) xs = (placed c xs).map fun p => (q + p.1, p.2) := by
  intro xs
  induction xs with
  | nil => intro c; rfl
  | cons x xs ih => intro c; simp only [placed, List.map_cons, Nat.add_assoc, ih]

/-- A field of the header that has a slot is in the table of 42 R104. -/
theorem rawxHeader_of_placed : ∀ p ∈ placed 0 rawxHead, p.2.slot?.isSome →
    ∃ f ∈ rawxHeader, f.bit = p.1 ∧ f.width = p.2.width := by decide

/-- And so is a field of a record. -/
theorem rawxRecord_of_placed {q : Nat} {p : Nat × Instr} (hp : p ∈ placed q rawxBody) (hs : p.2.slot?.isSome) :
    ∃ f ∈ rawxRecord, q + f.bit = p.1 ∧ f.width = p.2.width := by
  have htable : ∀ p ∈ placed 0 rawxBody, p.2.slot?.isSome →
      ∃ f ∈ rawxRecord, f.bit = p.1 ∧ f.width = p.2.width := by decide
  rw [← Nat.add_zero q, placed_eq_map, List.mem_map] at hp
  obtain ⟨p, hp, rfl⟩ := hp
  obtain ⟨f, hf, hbit, hwidth⟩ := htable p hp hs
  exact ⟨f, hf, by rw [hbit], hwidth⟩

/-- Every field of the record table is a field of the body, at its place in the record that begins at bit `q`. -/
theorem placed_of_rawxRecord (q : Nat) {f : WireField} (hf : f ∈ rawxRecord) :
    ∃ p ∈ placed q rawxBody, p.1 = q + f.bit ∧ p.2.width = f.width ∧ p.2.isSigned = f.signed ∧
      p.2.slot? = some f.slot := by
  obtain ⟨p, hp, hbit, hrest⟩ := rawxBody_table f hf
  exact ⟨_, placed_shift rawxBody q 0 p hp, congrArg (q + ·) hbit, hrest⟩

/-! ### From REPB to END -/

section

variable {s : State} (hmt : s.mt = .rawx) (hrun : s.running = true) (hdix : s.dix = 9)
  (hmax : s.cnt.toNat ≤ s.params.maxsat.toNat)

include hmt hrun hdix hmax

/-- All records encoded, and END. -/
theorem encode_from_repb (hdir : s.dir = .enc) (hcap : s.cur.toNat + 256 * s.cnt.toNat ≤ s.capBits)
    (hw : ∀ i < s.cnt.toNat, ∀ j < 13, (s.mem.slot? (recordAddress i j)).isSome) :
    ∃ t, microLoop (2 + 15 * s.params.maxsat.toNat + 1) s = .next { t with bits := t.cur, running := false } ∧
      t.cur.toNat = s.cur.toNat + 256 * s.cnt.toNat ∧ t.mem.slots = s.mem.slots ∧
      SameOutside s.mem t.mem s.cur.toNat (s.cur.toNat + 256 * s.cnt.toNat) ∧
      (∀ i < s.cnt.toNat, ∀ p ∈ placed (s.cur.toNat + 256 * i) rawxBody,
        FieldHolds t.mem p.1 p.2.width (recordValue s.mem i p.2)) ∧
      t = { s.sequencedAs t with mem := t.mem } := by
  by_cases hz : s.cnt = 0
  · rw [repb_skip _ hmt hrun hdix hz, Nat.add_comm 2, hz]
    exact ⟨_, encode_end _ hmt hdir rfl, rfl, rfl, fun _ _ => rfl, fun i hi => absurd hi (Nat.not_lt_zero i), rfl⟩
  · obtain ⟨k, m, hk, hloop⟩ := repb_enter_records hmt hrun hdix hmax hz
    obtain ⟨t, hrecords, htdix, _, htdir, htmt, hcur, hslots, hframe, hfields, heq⟩ :=
      encode_records k (m + 1) s.cnt.toNat hk (inBlock_enterBlock hmt hdir hrun hmax)
        (fun i hi => by rw [Nat.zero_add]; exact hw i hi) hcap
    simp only [Nat.zero_add] at hfields
    rw [hloop, hrecords]
    exact ⟨t, encode_end m htmt htdir htdix, hcur, hslots, hframe, hfields, heq⟩

/-- All records decoded, and END. -/
theorem decode_from_repb (hdir : s.dir = .dec) (hcap : s.cur.toNat + 256 * s.cnt.toNat ≤ s.capBits)
    (hw : ∀ i < s.cnt.toNat, ∀ p ∈ placed (s.cur.toNat + 256 * i) rawxBody, p.2.slot?.isSome →
      BitsWritten s.mem p.1 (p.1 + p.2.width)) :
    ∃ t, microLoop (2 + 15 * s.params.maxsat.toNat + 1) s = .next (finish .ok t) ∧ SameBuffer s.mem t.mem ∧
      (∀ a, (∀ i < s.cnt.toNat, ∀ j < 13, a ≠ recordAddress i j) → t.mem.slot? a = s.mem.slot? a) ∧
      (∀ i < s.cnt.toNat, ∀ p ∈ placed (s.cur.toNat + 256 * i) rawxBody, ∀ a, p.2.slot? = some a →
        t.mem.slot? (recordAddress i a) = some (decodedSlot s.mem p.1 p.2)) ∧
      t = { s.sequencedAs t with mem := t.mem } := by
  by_cases hz : s.cnt = 0
  · rw [repb_skip _ hmt hrun hdix hz, Nat.add_comm 2, hz]
    exact ⟨_, decode_end _ hmt hdir rfl, .refl _, fun _ _ => rfl, fun i hi => absurd hi (Nat.not_lt_zero i), rfl⟩
  · obtain ⟨k, m, hk, hloop⟩ := repb_enter_records hmt hrun hdix hmax hz
    obtain ⟨t, hrecords, htdix, _, htdir, htmt, hbuf, hkeep, hslots, heq⟩ :=
      decode_records k (m + 1) s.cnt.toNat hk (inBlock_enterBlock hmt hdir hrun hmax) hw hcap
    simp only [Nat.zero_add] at hkeep hslots
    rw [hloop, hrecords]
    exact ⟨t, decode_end m htmt htdir htdix, hbuf, hkeep, hslots, heq⟩

/-- Records to encode that do not all fit: BOUNDS. -/
theorem encode_from_repb_bounds (hdir : s.dir = .enc) (hcur : s.cur.toNat ≤ s.capBits)
    (hcap : s.capBits < s.cur.toNat + 256 * s.cnt.toNat)
    (hw : ∀ i < s.cnt.toNat, ∀ j < 13, (s.mem.slot? (recordAddress i j)).isSome) :
    Answers (microLoop (2 + 15 * s.params.maxsat.toNat + 1) s) fun t => t.fault = s.fault ||| 0x2 := by
  have hz : s.cnt ≠ 0 := fun h => by rw [h] at hcap; exact absurd hcap (not_lt.2 hcur)
  obtain ⟨k, m, hk, hloop⟩ := repb_enter_records hmt hrun hdix hmax hz
  rw [hloop]
  exact encode_records_bounds k (m + 1) s.cnt.toNat hk (inBlock_enterBlock hmt hdir hrun hmax)
    (fun i hi => by rw [Nat.zero_add]; exact hw i hi) hcur hcap

/-- And to decode. -/
theorem decode_from_repb_bounds (hdir : s.dir = .dec) (hcur : s.cur.toNat ≤ s.capBits)
    (hcap : s.capBits < s.cur.toNat + 256 * s.cnt.toNat)
    (hw : ∀ i < s.cnt.toNat, ∀ p ∈ placed (s.cur.toNat + 256 * i) rawxBody, p.2.slot?.isSome →
      p.1 + p.2.width ≤ s.capBits → BitsWritten s.mem p.1 (p.1 + p.2.width)) :
    Answers (microLoop (2 + 15 * s.params.maxsat.toNat + 1) s) fun t => t.fault = s.fault ||| 0x2 ∧
      ∀ a, (∀ i < s.cnt.toNat, ∀ j < 13, a ≠ recordAddress i j) → t.mem.slot? a = s.mem.slot? a := by
  have hz : s.cnt ≠ 0 := fun h => by rw [h] at hcap; exact absurd hcap (not_lt.2 hcur)
  obtain ⟨k, m, hk, hloop⟩ := repb_enter_records hmt hrun hdix hmax hz
  obtain ⟨t, hrecords, hfault, hkeep⟩ :=
    decode_records_bounds k (m + 1) s.cnt.toNat hk (inBlock_enterBlock hmt hdir hrun hmax) hw hcur hcap
  simp only [Nat.zero_add] at hkeep
  exact ⟨t, hloop.trans hrecords, hfault, hkeep⟩

end

/-! ### What ENC_RAWX writes -/

/-- The header's fields, encoded from the struct of `s`, are those of the table, and the reserved one. -/
theorem rawxHeader_holds {s : State} (hin : s.inrep = false) {m : Memory}
    (h : ∀ p ∈ placed 0 rawxHead, FieldHolds m p.1 p.2.width (fieldValue s p.2)) :
    (∀ f ∈ rawxHeader, ∀ v, s.mem.slot? f.slot = some v → FieldHolds m f.bit f.width v) ∧ FieldHolds m 136 4 0 := by
  refine ⟨fun f hf v hv => ?_, h (136, .rsv 3) (by decide)⟩
  obtain ⟨p, hp, hbit, hwidth, -, hslot⟩ := rawxHead_table f hf
  have hvalue : fieldValue s p.2 = v :=
    fieldValue_of_slot (by rw [hslot]; rfl) (by rw [slotAddress_of_scalar hin hslot]; exact hv)
  rw [← hbit, ← hwidth, ← hvalue]
  exact h p hp

/-- So are a record's fields, in the record that begins at bit `q`. -/
theorem rawxRecord_holds {m m' : Memory} {i q : Nat}
    (h : ∀ p ∈ placed q rawxBody, FieldHolds m' p.1 p.2.width (recordValue m i p.2)) :
    (∀ f ∈ rawxRecord, ∀ v, m.slot? (recordAddress i f.slot) = some v → FieldHolds m' (q + f.bit) f.width v) ∧
      FieldHolds m' (q + 248) 8 0 := by
  refine ⟨fun f hf v hv => ?_, h (q + 248, .rsv 7) (placed_shift rawxBody q 0 (248, .rsv 7) (by decide))⟩
  obtain ⟨p, hp, hbit, hwidth, -, hslot⟩ := placed_of_rawxRecord q hf
  have hvalue : recordValue m i p.2 = v := by rw [recordValue, hslot]; exact congrArg (Option.getD · 0) hv
  rw [← hbit, ← hwidth, ← hvalue]
  exact h p hp

/-- The header's table ends in front of its reserved bits. -/
theorem rawxHeader_within : ∀ f ∈ rawxHeader, f.bit + f.width ≤ 140 := by decide

/-- Settles O29: the header, the records and END. -/
theorem encRawxWritesTheMessage : Obligations.EncRawxWritesTheMessage := by
  unfold Obligations.EncRawxWritesTheMessage
  intro s n h0 h5 hmax ⟨hscalar, hrecords⟩ hcap
  obtain ⟨u, hhead, hdix, hcur, hcnt, hslots, hframe, hfields, heq⟩ := encode_head (s := startCommand .rawx .enc s)
    (2 + 15 * s.params.maxsat.toNat + 1) rfl rfl rfl rfl rfl rfl hscalar h5
    (by rw [startCommand_capBits]; omega)
  have hparams : u.params = s.params := by rw [heq]; rfl
  have hucap : u.capBits = s.capBits := by rw [heq]; rfl
  have huslot (a : Nat) : u.mem.slot? a = s.mem.slot? a := congrArg (Cells.read · a) hslots
  obtain ⟨hheader, hreserved⟩ := rawxHeader_holds rfl hfields
  rw [← hcnt] at hmax hrecords hcap ⊢
  obtain ⟨t, htail, htcur, htslots, htframe, htfields, hteq⟩ := encode_from_repb (s := u) (by rw [heq]; rfl)
    (by rw [heq]; rfl) hdix (by rw [hparams]; exact hmax) (by rw [heq]; rfl) (by rw [hcur, hucap]; exact hcap)
    fun i hi j hj => by rw [huslot]; exact hrecords i hi j hj
  rw [hcur] at htcur htframe htfields
  rw [hparams] at htail
  refine ⟨_, (exec_rawx_loop (by simp [Runs]) h0).trans (hhead.trans htail), htcur, fun f hf v hv => ?_, ?_,
    fun i hi => ?_, fun q hq => ?_, htslots.trans hslots, ?_, rfl⟩
  · exact (hheader f hf v hv).of_outside htframe (.inl (rawxHeader_within f hf))
  · exact hreserved.of_outside htframe (.inl (by decide))
  · obtain ⟨hrecord, hrsv⟩ := rawxRecord_holds (htfields i hi)
    exact ⟨fun f hf v hv => hrecord f hf v ((huslot _).trans hv), hrsv⟩
  · rw [htframe q (by omega), hframe q (by omega)]
    rfl
  · rw [hteq, heq]
    rfl

/-! ### What DEC_RAWX reads -/

/-- A decoded field of the header's table. -/
theorem rawxHeader_decodes {m m' : Memory} (hw : ∀ f ∈ rawxHeader, BitsWritten m f.bit (f.bit + f.width))
    (h : ∀ p ∈ placed 0 rawxHead, ∀ a, p.2.slot? = some a → m'.slot? a = some (decodedSlot m p.1 p.2)) :
    ∀ f ∈ rawxHeader, SlotDecodes m m' f.bit f.width f.signed f.slot := by
  intro f hf
  obtain ⟨p, hp, hbit, hwidth, hsigned, hslot⟩ := rawxHead_table f hf
  have hwritten := hw f hf
  rw [← hbit, ← hwidth] at hwritten
  rw [← hbit, ← hwidth, ← hsigned]
  exact slotDecodes_of_decodedSlot (width_of_isField (rawxHead_isField _ (mem_of_placed _ _ _ hp))) hwritten
    (h p hp _ hslot)

/-- And of a record's. -/
theorem rawxRecord_decodes {m m' : Memory} {i q : Nat}
    (hw : ∀ f ∈ rawxRecord, BitsWritten m (q + f.bit) (q + f.bit + f.width))
    (h : ∀ p ∈ placed q rawxBody, ∀ a, p.2.slot? = some a →
      m'.slot? (recordAddress i a) = some (decodedSlot m p.1 p.2)) :
    ∀ f ∈ rawxRecord, SlotDecodes m m' (q + f.bit) f.width f.signed (recordAddress i f.slot) := by
  intro f hf
  obtain ⟨p, hp, hbit, hwidth, hsigned, hslot⟩ := placed_of_rawxRecord q hf
  have hwritten := hw f hf
  rw [← hbit, ← hwidth] at hwritten
  rw [← hbit, ← hwidth, ← hsigned]
  exact slotDecodes_of_decodedSlot (width_of_isField (rawxBody_isField _ (mem_of_placed _ _ _ hp))) hwritten
    (h p hp _ hslot)

theorem SlotDecodes.of_sameBuffer {m m₀ m' : Memory} {pos w a : Nat} {signed : Bool}
    (h : SlotDecodes m m' pos w signed a) (hb : SameBuffer m₀ m) : SlotDecodes m₀ m' pos w signed a := by
  obtain ⟨v, hv, hfield, hslot⟩ := h
  exact ⟨v, hv, fun i hi => (hb.bit?_eq _).symm.trans (hfield i hi), hslot⟩

theorem SameBuffer.bitsWritten {m m' : Memory} (h : SameBuffer m m') {lo hi : Nat} (hw : BitsWritten m lo hi) :
    BitsWritten m' lo hi := fun q hlo hhi => by rw [h.bit?_eq]; exact hw q hlo hhi

theorem rawxHeader_slots : ∀ f ∈ rawxHeader, f.slot < 8 := by decide

/-- A record count as the value of the count field (42 R104). -/
theorem toNat_count {n : Nat} {maxsat : BitVec 8} (h : n ≤ maxsat.toNat) :
    (BitVec.ofNat 64 n).toNat = n ∧ (BitVec.ofNat 64 n).toNat < 2 ^ 8 := by
  have hmax := maxsat.isLt
  have hn : (BitVec.ofNat 64 n).toNat = n := Nat.mod_eq_of_lt (by omega)
  exact ⟨hn, by omega⟩

/-- Settles O30: the header, the records and END. -/
theorem decRawxReadsTheMessage : Obligations.DecRawxReadsTheMessage := by
  unfold Obligations.DecRawxReadsTheMessage
  intro s n h0 hcls hid hcount hmax hcap hheader hrecord
  obtain ⟨hn, hn8⟩ := toNat_count hmax
  obtain ⟨u, hhead, hdix, hcur, hcnt, hbuf, hkeep, hslots, heq⟩ := decode_head (s := startCommand .rawx .dec s)
    (2 + 15 * s.params.maxsat.toNat + 1) rfl rfl rfl rfl rfl rfl (rawxHead_written hheader)
    (Memory.readField_eq (by decide) (toNat_setWidth_byte_lt _) hcls)
    (Memory.readField_eq (by decide) (toNat_setWidth_byte_lt _) hid)
    (Memory.readField_eq (by decide) hn8 hcount) (by rw [startCommand_capBits]; omega)
  have hbuf : SameBuffer s.mem u.mem := hbuf
  have hparams : u.params = s.params := by rw [heq]; rfl
  have hucap : u.capBits = s.capBits := by rw [heq]; rfl
  rw [← hcnt] at hn
  obtain ⟨t, htail, htbuf, htkeep, htslots, hteq⟩ := decode_from_repb (s := u) (by rw [heq]; rfl) (by rw [heq]; rfl)
    hdix (by rw [hparams, hn]; exact hmax) (by rw [heq]; rfl) (by rw [hcur, hucap, hn]; exact hcap)
    fun i hi p hp hs => by
      rw [hcur] at hp
      obtain ⟨f, hf, hbit, hwidth⟩ := rawxRecord_of_placed hp hs
      rw [← hbit, ← hwidth]
      exact hbuf.bitsWritten (hrecord i (hn ▸ hi) f hf)
  rw [hn] at htkeep htslots
  rw [hcur] at htslots
  rw [hparams] at htail
  refine ⟨_, (exec_rawx_loop (by simp [Runs]) h0).trans (hhead.trans htail), rfl, ?_, fun i hi => ?_,
    fun a h8 hrec => ?_, hbuf.trans htbuf, ?_, rfl⟩
  · refine rawxHeader_decodes hheader fun p hp a ha => ?_
    have h8 := head_slots _ (mem_of_placed _ _ _ hp) a ha
    refine (htkeep a fun i _ j _ h => ?_).trans (hslots p hp a ha)
    simp only [recordAddress, nslot] at h
    omega
  · intro f hf
    exact (rawxRecord_decodes (fun f hf => hbuf.bitsWritten (hrecord i hi f hf)) (htslots i hi) f hf).of_sameBuffer hbuf
  · exact (htkeep a hrec).trans (hkeep a h8)
  · show finish .ok t = _
    rw [hteq, heq]
    rfl

end Sys2Proof.Machine
end

section
/-!
PROOFS. The EPH message (spec/42_message_codecs.md R102, R103, R107) over any admissible layout: what ENC_EPH writes and
what DEC_EPH reads.
-/

namespace Sys2Proof.Machine

open Sys2Proof

/-! ### An admissible layout -/

theorem totalWidth_layout (xs : List Instr) : Descriptor.totalWidth (xs ++ [.endDesc]) = Descriptor.totalWidth xs :=
  totalWidth_append xs [.endDesc]

/-- The fields of a layout are laid out as in the layout; END stands behind them. -/
theorem placed_append (xs ys : List Instr) : ∀ q : Nat,
    placed q (xs ++ ys) = placed q xs ++ placed (q + Descriptor.totalWidth xs) ys := by
  induction xs with
  | nil => intro q; rfl
  | cons x xs ih =>
    intro q
    rw [totalWidth_cons, ← Nat.add_assoc]
    exact congrArg _ (ih (q + x.width))

theorem mem_placed_layout {xs : List Instr} {p : Nat × Instr} (hp : p ∈ placed 0 (xs ++ [.endDesc])) :
    p ∈ placed 0 xs ∨ p.2 = .endDesc := by
  rw [placed_append, List.mem_append] at hp
  exact hp.imp_right fun h => congrArg Prod.snd (List.mem_singleton.1 h)

/-- Every entry of a list has its place. -/
theorem exists_placed {i : Instr} : ∀ {xs : List Instr} (q : Nat), i ∈ xs → ∃ p ∈ placed q xs, p.2 = i := by
  intro xs
  induction xs with
  | nil => intro q hi; cases hi
  | cons x xs ih =>
    intro q hi
    rcases List.mem_cons.1 hi with rfl | hi
    · exact ⟨(q, i), List.mem_cons_self .., rfl⟩
    · obtain ⟨p, hp, hpi⟩ := ih (q + x.width) hi
      exact ⟨p, List.mem_cons_of_mem _ hp, hpi⟩

/-- Outside a repeated block fields name the scalar slots of their numbers. -/
theorem map_slotAddress_of_scalar {s : State} (hin : s.inrep = false) (xs : List Instr) :
    (xs.filter fun i => i.slot?.isSome).map (slotAddress s) = xs.filterMap Instr.slot? := by
  induction xs with
  | nil => rfl
  | cons i xs ih =>
    cases ha : i.slot? with
    | none => rw [List.filter_cons_of_neg (by simp [ha]), List.filterMap_cons_none ha, ih]
    | some a =>
      rw [List.filter_cons_of_pos (by simp [ha]), List.filterMap_cons_some ha, List.map_cons, ih,
        slotAddress_of_scalar hin ha]

/-! ### What ENC_EPH writes -/

/-- Outside a repeated block a field whose slot, if it has one, holds a value can be encoded. -/
theorem encodable_of_scalar {s : State} (hin : s.inrep = false) {i : Instr} (hf : isField i = true)
    (hw : ∀ a, i.slot? = some a → (s.mem.slot? a).isSome) : Encodable s i := by
  refine ⟨hf, head_reaches hin i, fun hs => ?_⟩
  obtain ⟨a, ha⟩ := Option.isSome_iff_exists.1 hs
  rw [slotAddress_of_scalar hin ha]
  exact hw a ha

theorem fieldValue_of_scalar {s : State} (hin : s.inrep = false) {i : Instr} {a : Nat} {v : Slot}
    (ha : i.slot? = some a) (hv : s.mem.slot? a = some v) : fieldValue s i = v :=
  fieldValue_of_slot (by rw [ha]; rfl) (by rw [slotAddress_of_scalar hin ha]; exact hv)

theorem fieldValue_of_no_slot {s : State} {i : Instr} (ha : i.slot? = none) : fieldValue s i = 0 := by
  rw [fieldValue, ha]
  rfl

/-- END, reached by the loop on encode. -/
theorem microLoop_end_enc {s : State} {d : Descriptor} (n : Nat) (hw : decodeLayout s.words = some d)
    (hd : d.drop s.dix.toNat = [.endDesc]) (hdir : s.dir = .enc) :
    microLoop (n + 1) s = .next { s with bits := s.cur, running := false } :=
  microLoop_last (fetchEntry_of_drop hw hd) (exec_endDesc_enc hdir) rfl

/-- And on decode. -/
theorem microLoop_end_dec {s : State} {d : Descriptor} (n : Nat) (hw : decodeLayout s.words = some d)
    (hd : d.drop s.dix.toNat = [.endDesc]) (hdir : s.dir = .dec) : microLoop (n + 1) s = .next (finish .ok s) :=
  microLoop_last (fetchEntry_of_drop hw hd) (exec_endDesc_dec hdir) rfl

/-- Settles O31: the fields of the layout, then END. -/
theorem encEphWritesTheMessage : Obligations.EncEphWritesTheMessage := by
  unfold Obligations.EncEphWritesTheMessage
  intro s d h0 hok hd hw hcap
  obtain ⟨xs, M, rfl, hlen, hfield, -, -, -, hexec, -⟩ := exec_eph h0 hok hd
  rw [totalWidth_layout] at hcap ⊢
  have hz : (startCommand .eph .enc s).cur.toNat = 0 := rfl
  have hfit : (startCommand .eph .enc s).cur.toNat + Descriptor.totalWidth xs ≤
      (startCommand .eph .enc s).capBits := by rw [hz, Nat.zero_add]; exact hcap
  obtain ⟨hloop, hdrop⟩ := microLoop_encode hlen xs (s := startCommand .eph .enc s) (M + 1) hd rfl rfl rfl
    (fun i hi => encodable_of_scalar rfl (hfield i hi) (hw i (List.mem_append_left _ hi))) hfit
  have heq := encFields_eq xs (startCommand .eph .enc s)
  have hcur := encFields_cur xs hfit
  have hslots := encFields_slots xs (startCommand .eph .enc s)
  obtain ⟨hframe, hfields⟩ := encFields_bits xs hfield hfit
  rw [hz, Nat.zero_add] at hcur hframe
  rw [hz] at hfields
  generalize encFields xs (startCommand .eph .enc s) = u at *
  have hend := microLoop_end_enc M (s := u) (by rw [heq]; exact hd) hdrop (by rw [heq]; rfl)
  refine ⟨_, hexec.trans (hloop.trans hend), hcur, fun p hp => ?_, hframe, hslots, ?_, rfl⟩
  · rcases mem_placed_layout hp with hp | hp
    · refine ⟨fun a v ha hv => ?_, fun ha => ?_⟩
      · rw [← fieldValue_of_scalar (s := startCommand .eph .enc s) rfl ha hv]
        exact hfields p hp
      · rw [← fieldValue_of_no_slot (s := startCommand .eph .enc s) ha]
        exact hfields p hp
    · rw [hp]
      exact ⟨nofun, fun _ i hi => absurd hi (Nat.not_lt_zero i)⟩
  · rw [heq]
    rfl

/-! ### What DEC_EPH reads -/

/-- A field of an admissible layout whose bits hold values, and whose tag, if it is one of the two, matches. -/
theorem decodable_of_layout {s : State} (hin : s.inrep = false) {xs : List Instr}
    (hfield : ∀ i ∈ xs, isField i = true)
    (htags : ∃ a b rest, xs = .tagc 7 a :: .tagi 7 b :: rest ∧ ∀ i ∈ rest, Descriptor.isTag i = false)
    {p : Nat × Instr} (hp : p ∈ placed 0 xs) (hw : p.2.slot?.isSome → BitsWritten s.mem p.1 (p.1 + p.2.width))
    (hcls : p.1 + p.2.width = 8 → s.mem.readField 8 0 0 = .ok (s.expClass.setWidth 64))
    (hid : p.1 + p.2.width = 16 → s.mem.readField 8 8 0 = .ok (s.expId.setWidth 64)) : Decodable s p.1 p.2 := by
  obtain ⟨a, b, rest, rfl, hrest⟩ := htags
  have hf := hfield _ (mem_of_placed _ _ _ hp)
  simp only [placed, List.mem_cons] at hp
  rcases hp with rfl | rfl | hp
  · exact decodable_of_tag (.inl ⟨rfl, rfl⟩) (hcls rfl)
  · exact decodable_of_tag (.inr ⟨rfl, rfl⟩) (hid rfl)
  · have ht := hrest _ (mem_of_placed _ _ _ hp)
    refine ⟨hf, head_reaches hin _, hw, fun w c h => ?_, fun w c h => ?_⟩ <;>
      rw [h] at ht <;> cases ht

/-- Settles O32: the fields of the layout, then END. -/
theorem decEphReadsTheMessage : Obligations.DecEphReadsTheMessage := by
  unfold Obligations.DecEphReadsTheMessage
  intro s d h0 hok hd hcls hid hcap hw
  obtain ⟨xs, M, rfl, hlen, hfield, -, hnodup, htags, -, hexec⟩ := exec_eph h0 hok hd
  rw [totalWidth_layout] at hcap
  have hz : (startCommand .eph .dec s).cur.toNat = 0 := rfl
  have hfit : (startCommand .eph .dec s).cur.toNat + Descriptor.totalWidth xs ≤
      (startCommand .eph .dec s).capBits := by rw [hz, Nat.zero_add]; exact hcap
  have hcls' := Memory.readField_eq (by decide) (by decide) hcls
  have hid' := Memory.readField_eq (by decide) (by decide) hid
  have hw' : ∀ p ∈ placed 0 xs, p.2.slot?.isSome → BitsWritten s.mem p.1 (p.1 + p.2.width) := fun p hp =>
    hw p (by rw [placed_append]; exact List.mem_append_left _ hp)
  obtain ⟨hloop, hdrop⟩ := microLoop_decode hlen xs (s := startCommand .eph .dec s) (M + 1) hd rfl rfl rfl
    (fun p hp => decodable_of_layout rfl hfield htags hp (hw' p hp) (fun _ => hcls') fun _ => hid') hfit
  have heq := decFields_eq xs (startCommand .eph .dec s)
  have hbuf : SameBuffer s.mem (decFields xs (startCommand .eph .dec s)).mem := decFields_buffer xs _
  obtain ⟨hkeep, hset⟩ := decFields_slots xs hfit
  have hset := hset (by rw [map_slotAddress_of_scalar rfl]; exact hnodup)
  rw [hz] at hset
  generalize decFields xs (startCommand .eph .dec s) = u at *
  have hend := microLoop_end_dec M (s := u) (by rw [heq]; exact hd) hdrop (by rw [heq]; rfl)
  refine ⟨_, hexec.trans (hloop.trans hend), rfl, fun p hp a ha => ?_, fun a ha => ?_, hbuf, ?_, rfl⟩
  · rcases mem_placed_layout hp with hp | hp
    · have hs : p.2.slot?.isSome = true := by rw [ha]; rfl
      have hslot := hset p hp hs
      rw [slotAddress_of_scalar rfl ha] at hslot
      exact slotDecodes_of_decodedSlot (width_of_isField (hfield _ (mem_of_placed _ _ _ hp))) (hw' p hp hs) hslot
    · rw [hp] at ha
      cases ha
  · refine hkeep a fun i hi hs h => ?_
    obtain ⟨b, hb⟩ := Option.isSome_iff_exists.1 hs
    rw [slotAddress_of_scalar rfl hb] at h
    exact ha i (List.mem_append_left _ hi) (h ▸ hb)
  · rw [heq]
    rfl

end Sys2Proof.Machine
end

section
/-!
PROOFS. Messages longer than the declared capacity (spec/60_exceptions.md R127, R130, spec/41_sequencer_ops.md R91): the
field that does not fit raises BOUNDS.
-/

namespace Sys2Proof.Machine

open Sys2Proof

/-- A message command that BOUNDS has stopped leaves what `StoppedByBounds` says, and the memory it reads. -/
theorem stoppedByBounds_of_fault {i : Instr} {mt : MsgType} {dir : Direction} (hi : Runs i mt dir) {s t : State}
    (h0 : s.fault = 0) (h : exec i s = .next t) (hf : t.fault = s.fault ||| 0x2) :
    StoppedByBounds s t ∧ (dir = .enc → t.mem.slots = s.mem.slots) ∧ (dir = .dec → SameBuffer s.mem t.mem) := by
  rw [h0] at hf
  have hf : t.fault = 0x2 := hf
  have hne : t.fault ≠ 0 := by rw [hf]; decide
  obtain ⟨hframe, hrun, hout, hrest⟩ := runCommand_faulted (runCommand_of_runs hi h0 h).1 h0 hne
  exact ⟨⟨hf, hout, hframe, hrun⟩, hrest⟩

/-! ### RAWX -/

/-- ENC_RAWX whose header does not fit. -/
theorem encRawx_head_bounds {s : State} (h0 : s.fault = 0) (hw : ∀ k < 8, (s.mem.slot? k).isSome)
    (hcap : s.capBits < 140) : Answers (exec .encRawx s) fun t => t.fault = s.fault ||| 0x2 := by
  obtain ⟨zs, _, _, _, hloop⟩ := microLoop_encode_bounds (d := rawxEntries) (y := .repb)
    (ys := rawxBody ++ [.repe, .endDesc]) (by decide) rawxHead (s := startCommand .rawx .enc s)
    (2 + 15 * s.params.maxsat.toNat + 1) decodeLayout_rawx rfl rfl rfl (head_encodable rfl hw) (Nat.zero_le _)
    (by rw [rawxHead_width]; exact hcap)
  exact ⟨_, (exec_rawx_loop (by simp [Runs]) h0).trans hloop, by rw [encFields_eq]; rfl⟩

/-- ENC_RAWX whose header fits and whose records do not. -/
theorem encRawx_records_bounds {s : State} {n : Slot} (h0 : s.fault = 0) (h5 : s.mem.slot? 5 = some n)
    (hmax : n.toNat ≤ s.params.maxsat.toNat) (hw : RawxStructWritten s.mem n.toNat) (hhead : 140 ≤ s.capBits)
    (hcap : s.capBits < 140 + 256 * n.toNat) :
    Answers (exec .encRawx s) fun t => t.fault = s.fault ||| 0x2 := by
  obtain ⟨hscalar, hrecords⟩ := hw
  obtain ⟨u, hloop, hdix, hcur, hcnt, hslots, -, -, heq⟩ := encode_head (s := startCommand .rawx .enc s)
    (2 + 15 * s.params.maxsat.toNat + 1) rfl rfl rfl rfl rfl rfl hscalar h5 hhead
  have hparams : u.params = s.params := by rw [heq]; rfl
  have hucap : u.capBits = s.capBits := by rw [heq]; rfl
  have hufault : u.fault = s.fault := by rw [heq]; rfl
  have huslot (a : Nat) : u.mem.slot? a = s.mem.slot? a := congrArg (Cells.read · a) hslots
  rw [← hcnt] at hmax hrecords hcap
  obtain ⟨t, htail, hf⟩ := encode_from_repb_bounds (s := u) (by rw [heq]; rfl) (by rw [heq]; rfl) hdix
    (by rw [hparams]; exact hmax) (by rw [heq]; rfl) (by rw [hcur, hucap]; exact hhead)
    (by rw [hcur, hucap]; exact hcap) fun i hi j hj => by rw [huslot]; exact hrecords i hi j hj
  rw [hparams] at htail
  exact ⟨t, (exec_rawx_loop (by simp [Runs]) h0).trans (hloop.trans htail), hufault ▸ hf⟩

section

variable {s : State} (h0 : s.fault = 0)
  (hcls : 8 ≤ s.capBits → FieldHolds s.mem 0 8 (s.params.rawxClass.setWidth 64))
  (hid : 16 ≤ s.capBits → FieldHolds s.mem 8 8 (s.params.rawxId.setWidth 64))
  (hheader : ∀ f ∈ rawxHeader, f.bit + f.width ≤ s.capBits → BitsWritten s.mem f.bit (f.bit + f.width))

include h0 hcls hid hheader

/-- DEC_RAWX whose header does not fit: of the struct its eight slots alone may have changed. -/
theorem decRawx_head_bounds (hcap : s.capBits < 140) :
    Answers (exec .decRawx s) fun t => t.fault = s.fault ||| 0x2 ∧ ∀ a, 8 ≤ a → t.mem.slot? a = s.mem.slot? a := by
  obtain ⟨t, hloop, hf, hkeep⟩ := decode_head_bounds (s := startCommand .rawx .dec s)
    (2 + 15 * s.params.maxsat.toNat + 1) rfl rfl rfl rfl rfl rfl
    (fun p hp hs hfit => by
      obtain ⟨f, hf, hbit, hwidth⟩ := rawxHeader_of_placed p hp hs
      rw [← hbit, ← hwidth] at hfit ⊢
      exact hheader f hf hfit)
    (fun hfit => Memory.readField_eq (by decide) (toNat_setWidth_byte_lt _) (hcls hfit))
    (fun hfit => Memory.readField_eq (by decide) (toNat_setWidth_byte_lt _) (hid hfit)) hcap
  exact ⟨t, (exec_rawx_loop (by simp [Runs]) h0).trans hloop, hf, hkeep⟩

/-- DEC_RAWX whose header fits and whose records do not. -/
theorem decRawx_records_bounds {n : Nat} (hmax : n ≤ s.params.maxsat.toNat)
    (hcount : FieldHolds s.mem 112 8 (BitVec.ofNat 64 n)) (hhead : 140 ≤ s.capBits) (hcap : s.capBits < 140 + 256 * n)
    (hrecord : ∀ i < n, ∀ f ∈ rawxRecord, recordBit i + f.bit + f.width ≤ s.capBits →
      BitsWritten s.mem (recordBit i + f.bit) (recordBit i + f.bit + f.width)) :
    Answers (exec .decRawx s) fun t => t.fault = s.fault ||| 0x2 ∧
      ∀ a, 8 ≤ a → (∀ i < n, ∀ j < 13, a ≠ recordAddress i j) → t.mem.slot? a = s.mem.slot? a := by
  obtain ⟨hn, hn8⟩ := toNat_count hmax
  obtain ⟨u, hloop, hdix, hcur, hcnt, hbuf, hkeep, -, heq⟩ := decode_head (s := startCommand .rawx .dec s)
    (2 + 15 * s.params.maxsat.toNat + 1) rfl rfl rfl rfl rfl rfl
    (rawxHead_written fun f hf => hheader f hf ((rawxHeader_within f hf).trans hhead))
    (Memory.readField_eq (by decide) (toNat_setWidth_byte_lt _) (hcls (by omega)))
    (Memory.readField_eq (by decide) (toNat_setWidth_byte_lt _) (hid (by omega)))
    (Memory.readField_eq (by decide) hn8 hcount) hhead
  have hbuf : SameBuffer s.mem u.mem := hbuf
  have hparams : u.params = s.params := by rw [heq]; rfl
  have hucap : u.capBits = s.capBits := by rw [heq]; rfl
  have hufault : u.fault = s.fault := by rw [heq]; rfl
  rw [← hcnt] at hn
  obtain ⟨t, htail, hf, htkeep⟩ := decode_from_repb_bounds (s := u) (by rw [heq]; rfl) (by rw [heq]; rfl) hdix
    (by rw [hparams, hn]; exact hmax) (by rw [heq]; rfl) (by rw [hcur, hucap]; exact hhead)
    (by rw [hcur, hucap, hn]; exact hcap) fun i hi p hp hs hfit => by
      rw [hcur] at hp
      rw [hucap] at hfit
      obtain ⟨f, hf, hbit, hwidth⟩ := rawxRecord_of_placed hp hs
      rw [← hbit, ← hwidth] at hfit ⊢
      exact hbuf.bitsWritten (hrecord i (hn ▸ hi) f hf hfit)
  rw [hn] at htkeep
  rw [hparams] at htail
  exact ⟨t, (exec_rawx_loop (by simp [Runs]) h0).trans (hloop.trans htail), hufault ▸ hf,
    fun a h8 hrec => (htkeep a hrec).trans (hkeep a h8)⟩

end

/-! ### EPH -/

/-- ENC_EPH over a layout that does not fit. -/
theorem encEph_bounds {s : State} {d : Descriptor} (h0 : s.fault = 0) (hok : s.params.ok = true)
    (hd : decodeLayout s.params.ephLayout = some d) (hcap : s.capBits < Descriptor.totalWidth d)
    (hw : ∀ i ∈ d, ∀ a, i.slot? = some a → (s.mem.slot? a).isSome) :
    Answers (exec .encEph s) fun t => t.fault = s.fault ||| 0x2 := by
  obtain ⟨xs, M, rfl, hlen, hfield, -, -, -, hexec, -⟩ := exec_eph h0 hok hd
  rw [totalWidth_layout] at hcap
  obtain ⟨zs, _, _, _, hloop⟩ := microLoop_encode_bounds hlen xs (s := startCommand .eph .enc s) (M + 1) hd rfl rfl rfl
    (fun i hi => encodable_of_scalar rfl (hfield i hi) (hw i (List.mem_append_left _ hi))) (Nat.zero_le _)
    (hcap.trans_eq (Nat.zero_add _).symm)
  exact ⟨_, hexec.trans hloop, by rw [encFields_eq]; rfl⟩

/-- DEC_EPH over a layout that does not fit: of the struct its slots alone may have changed. -/
theorem decEph_bounds {s : State} {d : Descriptor} (h0 : s.fault = 0) (hok : s.params.ok = true)
    (hd : decodeLayout s.params.ephLayout = some d) (hcap : s.capBits < Descriptor.totalWidth d)
    (hcls : 8 ≤ s.capBits → FieldHolds s.mem 0 8 0x13) (hid : 16 ≤ s.capBits → FieldHolds s.mem 8 8 0x00)
    (hw : ∀ p ∈ placed 0 d, p.2.slot?.isSome → p.1 + p.2.width ≤ s.capBits →
      BitsWritten s.mem p.1 (p.1 + p.2.width)) :
    Answers (exec .decEph s) fun t => t.fault = s.fault ||| 0x2 ∧
      ∀ a, (∀ i ∈ d, i.slot? ≠ some a) → t.mem.slot? a = s.mem.slot? a := by
  obtain ⟨xs, M, rfl, hlen, hfield, -, -, htags, -, hexec⟩ := exec_eph h0 hok hd
  rw [totalWidth_layout] at hcap
  obtain ⟨zs, _, hpre, hfit, hloop⟩ := microLoop_decode_bounds hlen xs (s := startCommand .eph .dec s) (M + 1) hd rfl
    rfl rfl hfield
    (fun p hp hfit => decodable_of_layout rfl hfield htags hp
      (fun hs => hw p (by rw [placed_append]; exact List.mem_append_left _ hp) hs hfit)
      (fun h8 => Memory.readField_eq (by decide) (toNat_setWidth_byte_lt _) (hcls (h8 ▸ hfit)))
      fun h16 => Memory.readField_eq (by decide) (toNat_setWidth_byte_lt _) (hid (h16 ▸ hfit)))
    (Nat.zero_le _) (hcap.trans_eq (Nat.zero_add _).symm)
  refine ⟨_, hexec.trans hloop, by rw [decFields_eq]; rfl, fun a ha => (decFields_slots zs hfit).1 a fun i hi hs h => ?_⟩
  obtain ⟨b, hb⟩ := Option.isSome_iff_exists.1 hs
  rw [slotAddress_of_scalar rfl hb] at h
  exact ha i (List.mem_append_left _ (hpre.subset (List.mem_append_left _ hi))) (h ▸ hb)

/-- Settles O34: command by command, the header of RAWX apart from its records. -/
theorem longMessagesRaiseBounds : Obligations.LongMessagesRaiseBounds := by
  unfold Obligations.LongMessagesRaiseBounds
  refine fun s h0 => ⟨fun hw hlong => ?_, fun hcls hid hheader hlong => ?_, fun hok d hd hcap =>
    ⟨fun hw => ?_, fun hcls hid hw => ?_⟩⟩
  · obtain ⟨t, ht, hf⟩ : Answers (exec .encRawx s) fun t => t.fault = s.fault ||| 0x2 := by
      rcases Nat.lt_or_ge s.capBits 140 with hhead | hhead
      · exact encRawx_head_bounds h0 hw hhead
      · obtain ⟨n, h5, hmax, hw', hcap⟩ := hlong.resolve_left hhead.not_gt
        exact encRawx_records_bounds h0 h5 hmax hw' hhead hcap
    obtain ⟨hstop, hslots, -⟩ := stoppedByBounds_of_fault (mt := .rawx) (dir := .enc) (by simp [Runs]) h0 ht hf
    exact ⟨t, ht, hstop, hslots rfl⟩
  · obtain ⟨t, ht, hf, hkeep⟩ : Answers (exec .decRawx s) fun t => t.fault = s.fault ||| 0x2 ∧
        ∀ a, 8 ≤ a → (∀ i < s.params.maxsat.toNat, ∀ j < 13, a ≠ recordAddress i j) →
          t.mem.slot? a = s.mem.slot? a := by
      rcases Nat.lt_or_ge s.capBits 140 with hhead | hhead
      · obtain ⟨t, ht, hf, hkeep⟩ := decRawx_head_bounds h0 hcls hid hheader hhead
        exact ⟨t, ht, hf, fun a h8 _ => hkeep a h8⟩
      · obtain ⟨n, hmax, hcount, hcap, hrecord⟩ := hlong.resolve_left hhead.not_gt
        obtain ⟨t, ht, hf, hkeep⟩ := decRawx_records_bounds h0 hcls hid hheader hmax hcount hhead hcap hrecord
        exact ⟨t, ht, hf, fun a h8 hrec => hkeep a h8 fun i hi => hrec i (hi.trans_le hmax)⟩
    obtain ⟨hstop, -, hbuf⟩ := stoppedByBounds_of_fault (mt := .rawx) (dir := .dec) (by simp [Runs]) h0 ht hf
    exact ⟨t, ht, hstop, hbuf rfl, hkeep⟩
  · obtain ⟨t, ht, hf⟩ := encEph_bounds h0 hok hd hcap hw
    obtain ⟨hstop, hslots, -⟩ := stoppedByBounds_of_fault (mt := .eph) (dir := .enc) (by simp [Runs]) h0 ht hf
    exact ⟨t, ht, hstop, hslots rfl⟩
  · obtain ⟨t, ht, hf, hkeep⟩ := decEph_bounds h0 hok hd hcap hcls hid hw
    obtain ⟨hstop, -, hbuf⟩ := stoppedByBounds_of_fault (mt := .eph) (dir := .dec) (by simp [Runs]) h0 ht hf
    exact ⟨t, ht, hstop, hbuf rfl, hkeep⟩

end Sys2Proof.Machine
end

section
/-! PROOFS. The round trip: a canonical struct encoded and decoded from the same buffer. -/

namespace Sys2Proof.Machine

open Sys2Proof

/-- What a field decodes to is the slot it was encoded from, where that slot is canonical (10 R13). -/
theorem SlotDecodes.eq_of_canonical {m m' : Memory} {pos w a : Nat} {signed : Bool} {v : Slot}
    (h : SlotDecodes m m' pos w signed a) (hv : FieldHolds m pos w v) (hc : Canonical w signed v) (h64 : w ≤ 64) :
    m'.slot? a = some v := by
  obtain ⟨u, hu, hfield, hslot⟩ := h
  have hlow : u = (v.setWidth w).setWidth 64 :=
    Except.ok.inj ((Memory.readField_eq h64 hu hfield).symm.trans (hv.readField_eq h64))
  rw [hslot, hlow]
  unfold Canonical at hc
  cases signed with
  | false => exact congrArg some (setWidth_setWidth_of_lt hc)
  | true =>
    rw [if_pos rfl, ofNat_toNat_mod_two_pow] at hc
    exact congrArg some hc.symm

theorem slot?_eq_of_slots {m m' : Memory} (h : m'.slots = m.slots) (a : Nat) : m'.slot? a = m.slot? a := by
  unfold Memory.slot?
  rw [h]

/-- What an operation's answer is known to meet, the state it answered meets. -/
theorem Answers.of_next {r : Result} {P : State → Prop} {t : State} (h : Answers r P) (ht : r = .next t) : P t := by
  obtain ⟨u, hu, hP⟩ := h
  obtain rfl := Host.Outcome.next.inj (ht.symm.trans hu)
  exact hP

/-! ### RAWX -/

theorem rawxHeader_width_le : ∀ f ∈ rawxHeader, f.width ≤ 64 := by decide

theorem rawxRecord_width_le : ∀ f ∈ rawxRecord, f.width ≤ 64 := by decide

theorem exists_rawxHeader_slot : ∀ k < 8, ∃ f ∈ rawxHeader, f.slot = k := by decide

theorem exists_rawxRecord_slot : ∀ j < 13, ∃ f ∈ rawxRecord, f.slot = j := by decide

/-- A struct every field of which has a canonical slot is a written struct. -/
theorem rawxStructWritten_of_canonical {m : Memory} {n : Nat}
    (hhead : ∀ f ∈ rawxHeader, ∃ v, m.slot? f.slot = some v ∧ Canonical f.width f.signed v)
    (hrec : ∀ i < n, ∀ f ∈ rawxRecord,
      ∃ v, m.slot? (recordAddress i f.slot) = some v ∧ Canonical f.width f.signed v) : RawxStructWritten m n := by
  refine ⟨fun k hk => ?_, fun i hi j hj => ?_⟩
  · obtain ⟨f, hf, rfl⟩ := exists_rawxHeader_slot k hk
    obtain ⟨v, hv, -⟩ := hhead f hf
    exact Option.isSome_of_eq_some hv
  · obtain ⟨f, hf, rfl⟩ := exists_rawxRecord_slot j hj
    obtain ⟨v, hv, -⟩ := hrec i hi f hf
    exact Option.isSome_of_eq_some hv

/-- An ENC_RAWX that ended without fault had room for its message. -/
theorem encRawx_fits {s t : State} {n : Slot} (h0 : s.fault = 0) (h5 : s.mem.slot? 5 = some n)
    (hmax : n.toNat ≤ s.params.maxsat.toNat) (hw : RawxStructWritten s.mem n.toNat) (ht : exec .encRawx s = .next t)
    (hf : t.fault = 0) : 140 + 256 * n.toNat ≤ s.capBits := by
  by_contra hlong
  obtain ⟨⟨huf, -⟩, -⟩ :=
    ((longMessagesRaiseBounds s h0).1 hw.1 (.inr ⟨n, h5, hmax, hw, Nat.lt_of_not_le hlong⟩)).of_next ht
  rw [hf] at huf
  exact absurd huf (by decide)

/-- Settles O40: what ENC_RAWX has written is what DEC_RAWX reads, and a canonical slot is read back as it was. -/
theorem rawxRoundTrip : Obligations.RawxRoundTrip := by
  unfold Obligations.RawxRoundTrip
  intro s t n h0 h5 hmax hcls hid hhead hrec ht hf
  have hw := rawxStructWritten_of_canonical hhead hrec
  have hcap := encRawx_fits h0 h5 hmax hw ht hf
  obtain ⟨-, hheader, -, hrecord, -, hslots, heq, -⟩ := (encRawxWritesTheMessage s n h0 h5 hmax hw hcap).of_next ht
  have hparams : t.params = s.params := by rw [heq]; rfl
  have hcapBits : t.capBits = s.capBits := by rw [heq]; rfl
  have hrecordWritten : ∀ i < n.toNat, ∀ f ∈ rawxRecord,
      BitsWritten t.mem (recordBit i + f.bit) (recordBit i + f.bit + f.width) := fun i hi f hfmem => by
    obtain ⟨v, hv, -⟩ := hrec i hi f hfmem
    exact ((hrecord i hi).1 f hfmem v hv).bitsWritten
  obtain ⟨u, hu, hstatus, huhead, hurec, hukeep, -, hueq, -⟩ := decRawxReadsTheMessage t n.toNat hf
    (by rw [hparams]; exact hheader ⟨0, 8, false, 0⟩ (by decide) _ hcls)
    (by rw [hparams]; exact hheader ⟨8, 8, false, 1⟩ (by decide) _ hid)
    (by rw [BitVec.ofNat_toNat, BitVec.setWidth_eq]; exact hheader ⟨112, 8, false, 5⟩ (by decide) _ h5)
    (by rw [hparams]; exact hmax) (by rw [hcapBits]; exact hcap)
    (fun f hfmem => by
      obtain ⟨v, hv, -⟩ := hhead f hfmem
      exact (hheader f hfmem v hv).bitsWritten)
    hrecordWritten
  refine ⟨u, hu, hstatus, by rw [hueq]; exact hf, by rw [hueq]; rfl, fun a => ?_⟩
  by_cases h8 : a < 8
  · obtain ⟨f, hfmem, rfl⟩ := exists_rawxHeader_slot a h8
    obtain ⟨v, hv, hc⟩ := hhead f hfmem
    rw [(huhead f hfmem).eq_of_canonical (hheader f hfmem v hv) hc (rawxHeader_width_le f hfmem), hv]
  by_cases hin : ∃ i < n.toNat, ∃ j < 13, a = recordAddress i j
  · obtain ⟨i, hi, j, hj, rfl⟩ := hin
    obtain ⟨f, hfmem, rfl⟩ := exists_rawxRecord_slot j hj
    obtain ⟨v, hv, hc⟩ := hrec i hi f hfmem
    rw [(hurec i hi f hfmem).eq_of_canonical ((hrecord i hi).1 f hfmem v hv) hc (rawxRecord_width_le f hfmem), hv]
  · rw [hukeep a (Nat.le_of_not_lt h8) fun i hi j hj h => hin ⟨i, hi, j, hj, h⟩]
    exact slot?_eq_of_slots hslots a

/-! ### EPH -/

/-- An ENC_EPH that ended without fault had room for its message. -/
theorem encEph_fits {s t : State} {d : Descriptor} (h0 : s.fault = 0) (hok : s.params.ok = true)
    (hd : decodeLayout s.params.ephLayout = some d) (hw : ∀ i ∈ d, ∀ a, i.slot? = some a → (s.mem.slot? a).isSome)
    (ht : exec .encEph s = .next t) (hf : t.fault = 0) : Descriptor.totalWidth d ≤ s.capBits := by
  by_contra hlong
  have hu0 := (encEph_bounds h0 hok hd (Nat.lt_of_not_le hlong) hw).of_next ht
  rw [hf, h0] at hu0
  exact absurd hu0 (by decide)

/-- An admissible layout begins with its two tags, eight bits each (30 R55). -/
theorem placed_tags {s : State} {d : Descriptor} (h0 : s.fault = 0) (hok : s.params.ok = true)
    (hd : decodeLayout s.params.ephLayout = some d) :
    ∃ a b, (0, .tagc 7 a) ∈ placed 0 d ∧ (8, .tagi 7 b) ∈ placed 0 d := by
  obtain ⟨xs, M, rfl, -, -, -, -, ⟨a, b, rest, rfl, -⟩, -⟩ := exec_eph h0 hok hd
  exact ⟨a, b, List.mem_cons_self .., List.mem_cons_of_mem _ (List.mem_cons_self ..)⟩

/-- Settles O41: what ENC_EPH has written is what DEC_EPH reads, and a canonical slot is read back as it was. -/
theorem ephRoundTrip : Obligations.EphRoundTrip := by
  unfold Obligations.EphRoundTrip
  intro s t d h0 hok hd hcanon hcls hid ht hf
  have hw : ∀ i ∈ d, ∀ a, i.slot? = some a → (s.mem.slot? a).isSome := fun i hi a ha => by
    obtain ⟨v, hv, -⟩ := hcanon i hi a ha
    exact Option.isSome_of_eq_some hv
  have hcap := encEph_fits h0 hok hd hw ht hf
  obtain ⟨-, hfields, -, hslots, heq, -⟩ := (encEphWritesTheMessage s d h0 hok hd hw hcap).of_next ht
  have hparams : t.params = s.params := by rw [heq]; rfl
  have hcapBits : t.capBits = s.capBits := by rw [heq]; rfl
  obtain ⟨a, b, hta, htb⟩ := placed_tags h0 hok hd
  obtain ⟨u, hu, hstatus, hudec, hukeep, -, hueq, -⟩ := decEphReadsTheMessage t d hf (by rw [hparams]; exact hok)
    (by rw [hparams]; exact hd)
    ((hfields _ hta).1 a.toNat _ rfl (hcls 7 a (mem_of_placed _ _ _ hta)))
    ((hfields _ htb).1 b.toNat _ rfl (hid 7 b (mem_of_placed _ _ _ htb)))
    (by rw [hcapBits]; exact hcap)
    (fun p hp hs => by
      obtain ⟨c, hc⟩ := Option.isSome_iff_exists.1 hs
      obtain ⟨v, hv, -⟩ := hcanon p.2 (mem_of_placed _ _ _ hp) c hc
      exact ((hfields p hp).1 c v hc hv).bitsWritten)
  refine ⟨u, hu, hstatus, by rw [hueq]; exact hf, by rw [hueq]; rfl, fun c => ?_⟩
  by_cases hnamed : ∃ i ∈ d, i.slot? = some c
  · obtain ⟨i, hi, hc⟩ := hnamed
    obtain ⟨v, hv, hcan⟩ := hcanon i hi c hc
    obtain ⟨p, hp, rfl⟩ := exists_placed 0 hi
    have hwidth := width_of_isField (isField_of_slot (Option.isSome_of_eq_some hc))
    rw [(hudec p hp c hc).eq_of_canonical ((hfields p hp).1 c v hc hv) hcan hwidth.2, hv]
  · rw [hukeep c fun i hi h => hnamed ⟨i, hi, h⟩]
    exact slot?_eq_of_slots hslots c

end Sys2Proof.Machine
end
